-- ==== Sys2Proof/Word.lean ====
section
/-! DEFINITION. The word types of the block (spec/00_scope.md R6, R7; spec/30_encoding.md R80, R84, R85). -/

namespace Sys2Proof

/-- One byte of IMG or FLASH. -/
abbrev Byte := BitVec 8

/-- A word of the 16-bit data bus (R6 DATA_BITS). -/
abbrev Half := BitVec 16

/-- An 18-bit word address, which is also a command token (R6 ADDR_BITS, R52). -/
abbrev Addr := BitVec 18

/-- A word of the inter-core FIFO (R6 FIFO_WIDTH). -/
abbrev FifoWord := BitVec 32

/-- The 14-bit argument of a command word (R6 ARG_BITS, R90). -/
abbrev Arg := BitVec 14

end Sys2Proof
end

