-- ==== Sys2Proof/Syntax.lean ====
section
/-! DEFINITION. The instructions: one constructor per row of spec/opcode_table.json, and the four contexts
in which a row is read (spec/30_encoding.md R92, R93). -/

namespace Sys2Proof

/-- The role of an 18-bit value (R92): the address of a host read on the bus, a matcher token, a command word
(popped while MATCH = ARMED) or a payload word (popped while DCTL = HOSTCOPY(i)). -/
inductive Context where
  | bus
  | token
  | command
  | payload
  deriving DecidableEq, Repr

/-- The rows of the opcode table. The same 18 bits can be several rows: the context tells which one (R93). -/
inductive Instr where
  /-- R121: host read transaction of a word address. -/
  | rd (addr : Addr)
  /-- R173: token 0x00082. -/
  | magic0
  /-- R174: token 0x0044A. -/
  | magic1
  /-- R175: token 0x3FA7F. -/
  | magic2
  /-- R176: any other token. -/
  | otherToken (value : Addr)
  /-- R182, opcode 0. -/
  | updateActiveSlot (slot : Arg)
  /-- R184, opcode 1; the argument is ignored. -/
  | writeStatusToSram (arg : Arg)
  /-- R185, opcode 2; the argument is ignored. -/
  | restorePageToSram (arg : Arg)
  /-- R186, opcode 3; the argument is ignored. -/
  | copyPageHostToSram (arg : Arg)
  /-- R202, opcode 4. -/
  | copyPageFlashToSram (page : Arg)
  /-- R203, opcode 5. -/
  | copyPageSramToFlash (page : Arg)
  /-- R204, opcode 6. -/
  | eraseFlashSector (sector : Arg)
  /-- R167, opcode 7. -/
  | reservedOp7 (arg : Arg)
  /-- R167, opcodes 8 to 15. -/
  | reservedOp8to15 (opcode : BitVec 4) (arg : Arg)
  /-- R186, R89: a payload word; bits 17:16 are ignored. -/
  | payload (ignored : BitVec 2) (data : Half)
  deriving DecidableEq, Repr

/-- The context in which an instruction's word is read (column "context" of the table). -/
def Instr.context : Instr → Context
  | .rd _ => .bus
  | .magic0 => .token
  | .magic1 => .token
  | .magic2 => .token
  | .otherToken _ => .token
  | .updateActiveSlot _ => .command
  | .writeStatusToSram _ => .command
  | .restorePageToSram _ => .command
  | .copyPageHostToSram _ => .command
  | .copyPageFlashToSram _ => .command
  | .copyPageSramToFlash _ => .command
  | .eraseFlashSector _ => .command
  | .reservedOp7 _ => .command
  | .reservedOp8to15 _ _ => .command
  | .payload _ _ => .payload

end Sys2Proof
end

