-- ==== Sys2Proof/WellFormed.lean ====
section
/-! DEFINITION. Which terms of `Instr` are instructions of the table: the fields' ranges that their types do not
already give (spec/42_command_decoder.md R167, R176). -/

namespace Sys2Proof

/-- R176 excludes the three magic values; RESERVED_OP8_15 has bit 3 of the opcode set (R167). -/
def Instr.wellFormed : Instr → Bool
  | .otherToken v => v != 0x00082#18 && v != 0x0044A#18 && v != 0x3FA7F#18
  | .reservedOp8to15 op _ => op.getLsbD 3
  | .rd _ => true
  | .magic0 => true
  | .magic1 => true
  | .magic2 => true
  | .updateActiveSlot _ => true
  | .writeStatusToSram _ => true
  | .restorePageToSram _ => true
  | .copyPageHostToSram _ => true
  | .copyPageFlashToSram _ => true
  | .copyPageSramToFlash _ => true
  | .eraseFlashSector _ => true
  | .reservedOp7 _ => true
  | .payload _ _ => true

end Sys2Proof
end

