-- ==== Sys2Proof/Decode.lean ====
section
/-! DEFINITION. The decoder and the encoder (spec/30_encoding.md R84-R93). A word is an 18-bit address; which row of
the table it is depends on the context (R92), never on the word alone. -/

namespace Sys2Proof

/-- R88: the first magic address. -/
def magicToken0 : Addr := 0x00082#18
/-- R88: the second magic address. -/
def magicToken1 : Addr := 0x0044A#18
/-- R88: the third magic address. -/
def magicToken2 : Addr := 0x3FA7F#18

/-- R85: bits 17:14 of a command word. -/
def opcodeOf (v : Addr) : BitVec 4 := v.extractLsb' 14 4

/-- R85, R90: bits 13:0 of a command word. -/
def argOf (v : Addr) : Arg := v.extractLsb' 0 14

/-- R86: `encode(op, arg) = (op << 14) | (arg & 0x3FFF)`, for any natural number arg. -/
def encodeCommand (op : BitVec 4) (arg : Nat) : Addr := op ++ BitVec.ofNat 14 arg

/-- R84: the forwarded word of an address, `zext_32(addr)`. -/
def forwardedWord (a : Addr) : FifoWord := a.setWidth 32

/-- R84: everything DISP decodes is a function of v[17:0]. -/
def tokenOf (v : FifoWord) : Addr := v.setWidth 18

/-- R87: the command word's row, by opcode. -/
def decodeCommand (v : Addr) : Instr :=
  match (opcodeOf v).toNat with
  | 0 => .updateActiveSlot (argOf v)
  | 1 => .writeStatusToSram (argOf v)
  | 2 => .restorePageToSram (argOf v)
  | 3 => .copyPageHostToSram (argOf v)
  | 4 => .copyPageFlashToSram (argOf v)
  | 5 => .copyPageSramToFlash (argOf v)
  | 6 => .eraseFlashSector (argOf v)
  | 7 => .reservedOp7 (argOf v)
  | _ => .reservedOp8to15 (opcodeOf v) (argOf v)

/-- R93, token context: the three magic rows first, then the catch-all row (R162: all 18 bits are compared). -/
def decodeToken (v : Addr) : Instr :=
  if v = magicToken0 then .magic0
  else if v = magicToken1 then .magic1
  else if v = magicToken2 then .magic2
  else .otherToken v

/-- R93: the row of an 18-bit value in a context. No word is illegal in its context (R91), so it is total. -/
def decode (c : Context) (v : Addr) : Instr :=
  match c with
  | .bus => .rd v
  | .token => decodeToken v
  | .command => decodeCommand v
  | .payload => .payload (v.extractLsb' 16 2) (v.extractLsb' 0 16)

/-- Why a pattern of bits is no instruction of any context. -/
inductive DecodeError where
  /-- The pattern has a bit set above bit 17, where there is no address line (R80). -/
  | beyondAddressLines (bits : Nat)
  deriving DecidableEq, Repr

/-- The decoder on any pattern of bits: an 18-bit value decodes in its context, a wider one is rejected by name. -/
def decodeBits (c : Context) (bits : Nat) : Except DecodeError Instr :=
  if bits < 2 ^ 18 then .ok (decode c (BitVec.ofNat 18 bits)) else .error (.beyondAddressLines bits)

/-- The 18-bit value of an instruction, from the table's match and fields (R85-R90). -/
def encode : Instr → Addr
  | .rd a => a
  | .magic0 => magicToken0
  | .magic1 => magicToken1
  | .magic2 => magicToken2
  | .otherToken v => v
  | .updateActiveSlot slot => encodeCommand 0 slot.toNat
  | .writeStatusToSram arg => encodeCommand 1 arg.toNat
  | .restorePageToSram arg => encodeCommand 2 arg.toNat
  | .copyPageHostToSram arg => encodeCommand 3 arg.toNat
  | .copyPageFlashToSram page => encodeCommand 4 page.toNat
  | .copyPageSramToFlash page => encodeCommand 5 page.toNat
  | .eraseFlashSector sector => encodeCommand 6 sector.toNat
  | .reservedOp7 arg => encodeCommand 7 arg.toNat
  | .reservedOp8to15 op arg => encodeCommand op arg.toNat
  | .payload ign d => ign ++ d

/-- DESIGN CHOICE (log 12). The table's contexts overlap and its bits alone do not name one: a pattern equal to a
magic value is read as that token, so is a pattern of a row to which the table gives fewer than 18 bits (only
OTHER_TOKEN), and every other one is read as a command word. -/
def tableContext (nbits bits : Nat) : Context :=
  if nbits < 18 ∨ bits = magicToken0.toNat ∨ bits = magicToken1.toNat ∨ bits = magicToken2.toNat then .token else .command

/-- The instruction the decoder reads from a pattern of bits in its table context. -/
def decodeTableWord (nbits w : Nat) : Option Instr :=
  match decodeBits (tableContext nbits w) w with
  | .ok i => some i
  | .error _ => none

/-! ### The table's rows -/

/-- Column "mask" of the opcode table. -/
def rowMask : Instr → Addr
  | .rd _ => 0x00000
  | .magic0 => 0x3FFFF
  | .magic1 => 0x3FFFF
  | .magic2 => 0x3FFFF
  | .otherToken _ => 0x00000
  | .updateActiveSlot _ => 0x3C000
  | .writeStatusToSram _ => 0x3C000
  | .restorePageToSram _ => 0x3C000
  | .copyPageHostToSram _ => 0x3C000
  | .copyPageFlashToSram _ => 0x3C000
  | .copyPageSramToFlash _ => 0x3C000
  | .eraseFlashSector _ => 0x3C000
  | .reservedOp7 _ => 0x3C000
  | .reservedOp8to15 _ _ => 0x20000
  | .payload _ _ => 0x00000

/-- Column "match" of the opcode table. -/
def rowMatch : Instr → Addr
  | .rd _ => 0x00000
  | .magic0 => 0x00082
  | .magic1 => 0x0044A
  | .magic2 => 0x3FA7F
  | .otherToken _ => 0x00000
  | .updateActiveSlot _ => 0x00000
  | .writeStatusToSram _ => 0x04000
  | .restorePageToSram _ => 0x08000
  | .copyPageHostToSram _ => 0x0C000
  | .copyPageFlashToSram _ => 0x10000
  | .copyPageSramToFlash _ => 0x14000
  | .eraseFlashSector _ => 0x18000
  | .reservedOp7 _ => 0x1C000
  | .reservedOp8to15 _ _ => 0x20000
  | .payload _ _ => 0x00000

end Sys2Proof
end

