-- ==== Sys2Proof/Config.lean ====
section
/-! DEFINITION. What an implementation fixes (spec/00_scope.md R6, spec/10_state.md R41), what the environment chooses
(spec/00_scope.md R10), and the free values. The open parameters have no value here: the machine takes them as an
argument, in State's field `params` (log 1). -/

namespace Sys2Proof

/-- D2, R81-R83: the physical pin of each line. -/
structure PinMap where
  /-- First of the consecutive address pins. -/
  addrBase : Nat
  /-- Pin of the address bit that the split layout moves. -/
  splitPin : Nat
  /-- First of the 16 consecutive data pins. -/
  dataBase : Nat
  oe : Nat
  ce : Nat
  strap : Nat
  deriving DecidableEq, Repr

/-- A run of flash bytes. -/
structure Region where
  base : Nat
  size : Nat
  deriving DecidableEq, Repr

/-- CFG_LAYOUT (R221, D31): byte offsets of the 4-byte fields within a 256-byte config page. DESIGN CHOICE (log 25): the 31
slot fields are equally spaced, as they are in the default layout; the spec leaves the parameter's shape open. -/
structure CfgLayout where
  pagesBitmap : Nat := 0
  tuplesBitmap : Nat := 4
  /-- Slot field of tuple 0. -/
  slotField : Nat := 8
  /-- Distance from one tuple's slot field to the next one's. -/
  tupleStride : Nat := 8
  deriving DecidableEq, Repr

/-- The parameters of R6. Those with a default carry the spec's own default. -/
structure Params where
  /-- FIFO_DEPTH, open, at least 1 (D9). -/
  fifoDepth : Nat
  pins : PinMap
  /-- SPLIT_BIT (D3). -/
  splitBit : Nat := 17
  /-- STRAP_SPLIT_LEVEL, open (D4). -/
  strapSplitLevel : Bool
  /-- D5. -/
  oeActiveLow : Bool := true
  /-- D5. -/
  ceActiveLow : Bool := true
  /-- D6. -/
  ceQualifies : Bool := false
  /-- FLASH_SIZE_MB, open, 1 to 255 (D34). -/
  flashSizeMb : Byte
  /-- D18. -/
  pageOrigin : Nat := 0
  /-- SLOT_BASE(1), …, SLOT_BASE(7) (D19). -/
  slotBases : List Nat := [0x080000, 0x100000, 0x180000, 0x200000, 0x280000, 0x300000, 0x380000]
  /-- CONFIG_SECTOR_ADDR, open (D20). -/
  configSector : Nat
  /-- FIRMWARE_REGION, open (D21), as the runs of bytes it is made of. -/
  firmware : List Region
  cfgLayout : CfgLayout := {}
  /-- D35, open. -/
  fwMajor : Byte
  /-- D35, open. -/
  fwMinor : Byte
  /-- D35, open. -/
  fwPatch : Byte
  deriving DecidableEq, Repr

/-- The free choices of one step of DISP (D26, D45). -/
structure Choice where
  /-- In HOSTCOPY: land a payload byte that is still due, rather than pop the next word. -/
  land : Bool
  /-- Which of the byte writes that are due takes effect (counted round). -/
  pick : Nat
  /-- Where in the picked run of bytes the copy goes on (counted round). -/
  off : Nat
  /-- How many bytes beyond the first are copied before the step ends (log 7). -/
  len : Nat
  deriving DecidableEq, Repr

/-- One move of the environment (R10): which agent moves next, and the choices it makes. -/
inductive Event where
  /-- HOST makes a whole read transaction of a word address (R118, R121). -/
  | read (a : Addr)
  /-- HOST puts levels on the pins (R34); bit i is pin i. -/
  | drive (levels : Nat)
  /-- RESP takes a sample step (R116). -/
  | sample
  /-- HOST latches the data lines (R118, step 3). -/
  | latch
  /-- DISP takes one step (R161, R180), with the choices the spec leaves open. -/
  | disp (c : Choice)
  /-- DISP runs, uninterrupted, what it is doing or the next word in Q, until it waits for a word again (log 7). -/
  | run
  /-- From here on `n` flash primitives succeed and the next one fails (R66); none: no failure ahead. -/
  | fate (n : Option Nat)
  /-- Power cycle (R280); `torn` are the bytes left where a flash primitive was interrupted (R231), if one was. -/
  | powerCycle (torn : List Byte)
  deriving DecidableEq, Repr, Inhabited

namespace Config

/-- FREE VALUE (R224, D32; log 9): which slot, less one, the n-th free lookup answers. -/
opaque freeSlot : Nat → Fin 7

/-- FREE VALUE (R120, R284, D8; log 10): what the n-th undriven latch reads. -/
opaque freeBus : Nat → BitVec 16

/-- FREE VALUE (R280; log 14): the bytes of IMG that the n-th power cycle leaves, every other byte reading as 0xFF. -/
opaque freeImg : Nat → List (Nat × Byte)

/-- FREE VALUE (R280; log 14): whether LAYOUT is SPLIT after the n-th power cycle, before boot samples the strap. -/
opaque freeLayout : Nat → Bool

/-- FREE VALUE (R10; log 2): the n-th move of the environment once the moves listed in State are used up. -/
opaque freeEvent : Nat → Event

end Config

/-- Two runs share no byte. -/
def Region.disjoint (x y : Region) : Bool :=
  x.size = 0 || y.size = 0 || x.base + x.size ≤ y.base || y.base + y.size ≤ x.base

end Sys2Proof
end

