-- ==== Sys2Proof/Machine/State.lean ====
section
/-! DEFINITION. The machine's state (spec/10_state.md R20 to R41), the reasons DISP or a step can stop, and the state
after reset (spec/70_reset_and_hazards.md R280). -/

namespace Sys2Proof.Machine

/-- R25: LAYOUT. -/
inductive Layout where
  | contiguous
  | split
  deriving DecidableEq, Repr

/-- R27: DDIR, the direction of the 16 data lines. -/
inductive Direction where
  | input
  | output
  deriving DecidableEq, Repr

/-- R31: MATCH. -/
inductive MatchState where
  | s0
  | s1
  | s2
  | armed
  deriving DecidableEq, Repr

/-- R66: the flash primitives. -/
inductive FlashPrim where
  | read
  | program
  | erase
  deriving DecidableEq, Repr

/-- R251, E4 to E6: why DISP is FAULTED, with the recorded value. -/
inductive FaultReason where
  /-- E4 FLASH_FAIL: a primitive failed at an address. -/
  | flashFail (prim : FlashPrim) (addr : Nat)
  /-- E5 FLASH_RANGE: a range, given by its start, leaves the flash or meets the firmware (R67). -/
  | flashRange (addr : Nat)
  /-- E6 CFG_CORRUPT: the store update found an index out of range (R227). -/
  | cfgCorrupt (index : Nat)
  deriving DecidableEq, Repr

/-- The commands of R87, as EXEC names them. -/
inductive Op where
  | updateActiveSlot
  | writeStatusToSram
  | restorePageToSram
  | copyPageHostToSram
  | copyPageFlashToSram
  | copyPageSramToFlash
  | eraseFlashSector
  deriving DecidableEq, Repr

/-- A memory, as its listed bytes (address, byte); `Memory.wf` is its canonical form. -/
abbrev Memory := List Host.Cell

/-- `len` bytes still to copy, from flash address `src` on to IMG offset `dst` on. -/
structure Segment where
  dst : Nat
  src : Nat
  len : Nat
  deriving DecidableEq, Repr

/-- What DISP still has to do within BOOT or a command: the internal step k of R30. -/
inductive Task where
  /-- R281 step 2. -/
  | sampleStrap
  /-- R281 steps 3 and 4, R185: look the active slot up, then load its first `n` bytes. -/
  | loadActive (n : Nat)
  /-- R184: look the active slot up, then write the status record. -/
  | status
  /-- R225: read the pages-bitmap. -/
  | storePages (slot : Nat)
  /-- R225: read the active page's tuples-bitmap; `pb` is the pages-bitmap. -/
  | storeTuples (slot : Nat) (pb : BitVec 32)
  /-- R225: read the target page `p2` and program tuple `t2` of it; `p` was the active page. -/
  | storePage (slot : Nat) (pb : BitVec 32) (p p2 t2 : Nat)
  /-- R67: check a flash range. -/
  | check (addr n : Nat)
  /-- R181, R202: copy flash bytes into IMG, in any order. -/
  | copy (segs : List Segment)
  /-- R53: write IMG bytes, in any order. -/
  | bytes (cells : List Host.Cell)
  /-- R66: program bytes. -/
  | program (addr : Nat) (data : List Byte)
  /-- R203: program IMG bytes 0..255. -/
  | programPage (addr : Nat)
  /-- R66: erase a sector. -/
  | erase (addr : Nat)
  /-- R281 step 5. -/
  | startResponder
  deriving DecidableEq, Repr

/-- R30: DCTL. -/
inductive Dctl where
  | boot (todo : List Task)
  | recv
  | exec (op : Op) (arg : Arg) (todo : List Task)
  /-- Waiting for payload word `i`; `due` are payload bytes that have not taken effect yet (D45). -/
  | hostCopy (i : Nat) (due : List Host.Cell)
  | faulted (reason : FaultReason)
  deriving DecidableEq, Repr

/-- Why `exec` stops the model itself. What the spec calls a fault (E4 to E6) is no stop: it is a next state whose
DCTL is FAULTED (R252). -/
inductive Fault where
  /-- Raised by PAYLOAD executed outside DCTL = HOSTCOPY(i), where no word is a payload word (R92, R93). No step does
  that: the decoder gives PAYLOAD only in HOSTCOPY. Safe. -/
  | payloadOutsideHostCopy
  deriving DecidableEq, Repr

/-- Why `exec` has no meaning for an instruction. -/
inductive Refusal where
  /-- Raised by an arm of `exec` that has no meaning yet. Safe. -/
  | notModelled (mnemonic : String)
  deriving DecidableEq, Repr

/-- The block's state (R20), then the parameters (R41), then the model's own fields for the environment. -/
structure State where
  /-- IMG (R23). -/
  img : Memory
  /-- Q (R24), oldest word first. -/
  q : List FifoWord
  /-- LAYOUT (R25). -/
  layout : Layout
  /-- TRIG (R26). -/
  trig : Bool
  /-- DDIR (R27). -/
  ddir : Direction
  /-- DOUT (R28). -/
  dout : Half
  /-- RUN (R29). -/
  run : Bool
  /-- MATCH (R31). -/
  matcher : MatchState
  /-- DCTL (R30). -/
  dctl : Dctl
  /-- FLASH (R32). -/
  flash : Memory
  /-- The parameters (R41); no step changes them. -/
  params : Params
  /-- The levels HOST and the board put on the pins (R34): bit i is pin i. -/
  pins : Nat
  /-- A qualifying sample has occurred in HOST's current assertion (R120). -/
  sampled : Bool
  /-- The values HOST has latched, oldest first (R306). -/
  latched : List Half
  /-- How many flash primitives still succeed before one fails (R66); none: no failure ahead. -/
  failAt : Option Nat
  /-- How many free values have been drawn. -/
  draws : Nat
  /-- The environment's next moves (R10). -/
  script : List Event
  deriving DecidableEq, Repr

/-- R281: the boot sequence; its last step, DCTL <- RECV, is taken when nothing is left to do. -/
def bootTasks : List Task := [.sampleStrap, .loadActive (2 ^ 19), .startResponder]

/-- R280: the state right after power comes on, for given parameters, flash contents and pin levels. DOUT, LAYOUT and
IMG have no value in the spec: DESIGN CHOICE (log 3, 5, 6); after a power cycle on the way they are free values. -/
def State.powerOn (params : Params) (flash : Memory) (pins : Nat) : State where
  img := []
  q := []
  layout := .contiguous
  trig := false
  ddir := .input
  dout := 0xFFFF#16
  run := false
  matcher := .s0
  dctl := .boot bootTasks
  flash := flash
  params := params
  pins := pins
  sampled := false
  latched := []
  failAt := none
  draws := 0
  script := []

/-- DESIGN CHOICE (log 1): the example configuration of spec/95_test_vectors.md section 0, with pins of our own. -/
def exampleParams : Params where
  fifoDepth := 8
  pins := { addrBase := 0, splitPin := 39, dataBase := 20, oe := 36, ce := 37, strap := 38 }
  strapSplitLevel := true
  flashSizeMb := 16
  configSector := 0x07F000
  firmware := [{ base := 0, size := 0x040000 }]
  fwMajor := 1
  fwMinor := 2
  fwPatch := 3

/-- DESIGN CHOICE (log 15): OE and CE deasserted (both high), every other pin low. -/
def restPins : Nat := 2 ^ 36 + 2 ^ 37

/-- R280 for the example configuration and an erased flash chip (log 4). -/
def State.reset : State := State.powerOn exampleParams [] restPins

end Sys2Proof.Machine
end

