-- ==== Sys2Proof/Machine/Ops.lean ====
section
/-! DEFINITION. The named operations over the memories, the FIFO and the flash, and the one way DISP stops
(spec/20_memory.md R53, R66, R67; spec/41_channel.md R142, R143; spec/60_exceptions.md R252). -/

namespace Sys2Proof.Machine

/-! ### Memories -/

/-- What a byte that a memory does not list reads as: in FLASH the erased value (R32); in IMG a DESIGN CHOICE that no
step reads before the boot load (log 3). -/
def erasedByte : Byte := 0xFF#8

/-- The byte at an address. -/
def Memory.read : Memory → Nat → Byte
  | [], _ => erasedByte
  | (k, b) :: m, a => if k = a then b else Memory.read m a

/-- A cell put in before the first cell of a higher address. -/
def Memory.insert : Memory → Nat → Byte → Memory
  | [], a, b => [(a, b)]
  | (k, c) :: m, a, b => if a < k then (a, b) :: (k, c) :: m else (k, c) :: Memory.insert m a b

/-- One byte written; a byte that reads as an unlisted one is not listed. -/
def Memory.write (m : Memory) (a : Nat) (b : Byte) : Memory :=
  let rest := m.filter fun c => c.1 != a
  if b = erasedByte then rest else Memory.insert rest a b

/-- Bytes written one after the other. -/
def Memory.writeCells : Memory → List Host.Cell → Memory
  | m, [] => m
  | m, (a, b) :: cs => Memory.writeCells (Memory.write m a b) cs

/-- R53, R66: the `n` bytes from an address on. -/
def Memory.readList (m : Memory) (a n : Nat) : List Byte := (List.range n).map fun j => Memory.read m (a + j)

/-- R66: each byte from `a` on ANDed with the byte programmed there. -/
def Memory.program : Memory → Nat → List Byte → Memory
  | m, _, [] => m
  | m, a, b :: bs => Memory.program (Memory.write m a (Memory.read m a &&& b)) (a + 1) bs

/-- Bytes written from `a` on, in ascending order. -/
def Memory.overwrite : Memory → Nat → List Byte → Memory
  | m, _, [] => m
  | m, a, b :: bs => Memory.overwrite (Memory.write m a b) (a + 1) bs

/-- R66: the `n` bytes from `a` on erased. -/
def Memory.erase (m : Memory) (a n : Nat) : Memory := m.filter fun c => c.1 < a || a + n ≤ c.1

/-- R181: the `n` bytes of `src` from `a` on, copied into `dst` from `d` on. -/
def Memory.copy (dst : Memory) (d : Nat) (src : Memory) (a n : Nat) : Memory :=
  dst.filter (fun c => c.1 < d) ++
  (src.filter fun c => a ≤ c.1 && c.1 < a + n).map (fun c => (c.1 - a + d, c.2)) ++
  dst.filter (fun c => d + n ≤ c.1)

/-- The canonical form: addresses strictly rising, and no cell that an unlisted address would read the same. -/
def Memory.wf (m : Memory) : Bool :=
  decide (m.Pairwise fun x y => x.1 < y.1) && m.all fun c => c.2 != erasedByte

/-- Every listed address lies below a bound. -/
def Memory.below (m : Memory) (bound : Nat) : Bool := m.all fun c => c.1 < bound

/-! ### The FIFO (only RESP pushes, only DISP pops: R144) -/

/-- R142: a word is appended if there is room and dropped if there is none (outcome E3). -/
def fifoTryPush (v : FifoWord) (s : State) : State :=
  if s.q.length < s.params.fifoDepth then { s with q := s.q ++ [v] } else s

/-- R143: the oldest word, and the state without it; none while Q is empty. -/
def fifoPop (s : State) : Option (FifoWord × State) :=
  match s.q with
  | [] => none
  | v :: q => some (v, { s with q := q })

/-! ### Stopping DISP -/

/-- R251, R252: a fault outcome. It is what this block has in place of taking an exception (R260): DCTL <- FAULTED, and
nothing is saved or undone. The way back is `powerCycle` (R262). -/
def raiseFault (r : FaultReason) (s : State) : State := { s with dctl := .faulted r }

/-- How a part of an operation ends: done, or stopped by a fault outcome after its last completed step (R260). -/
inductive Res where
  | done (s : State)
  | stop (s : State) (r : FaultReason)
  deriving DecidableEq, Repr

/-- The next part runs only if this one was done (R252: "no later step of that operation runs"). -/
def Res.bind (x : Res) (f : State → Res) : Res :=
  match x with
  | .done s => f s
  | .stop s r => .stop s r

/-! ### Flash primitives -/

/-- R6: FLASH_SIZE in bytes. -/
def flashSize (p : Params) : Nat := 2 ^ 20 * p.flashSizeMb.toNat

/-- The `n` bytes from `a` on and a region have a byte in common. -/
def meets (r : Region) (a n : Nat) : Bool := decide (max a r.base < min (a + n) (r.base + r.size))

/-- R67: the `n` bytes from `a` on lie inside the flash and outside the firmware. -/
def flashRangeOk (p : Params) (a n : Nat) : Bool :=
  decide (a + n ≤ flashSize p) && p.firmware.all fun r => !meets r a n

/-- R67: the range check, which pre-empts a failure of the primitive itself (R257). -/
def checkRange (a n : Nat) (s : State) : Res :=
  if flashRangeOk s.params a n then .done s else .stop s (.flashRange a)

/-- R66: whether the next primitive succeeds is the environment's (log 8). -/
def flashAttempt (prim : FlashPrim) (a : Nat) (s : State) : Res :=
  match s.failAt with
  | none => .done s
  | some 0 => .stop s (.flashFail prim a)
  | some (n + 1) => .done { s with failAt := some n }

/-- R66, R67: FlashRead of `n` bytes; the bytes are those of `flash` at the state it is done in. -/
def flashRead (a n : Nat) (s : State) : Res := (checkRange a n s).bind (flashAttempt .read a)

/-- R66, R67: FlashProgram. -/
def flashProgram (a : Nat) (data : List Byte) (s : State) : Res :=
  (checkRange a data.length s).bind fun s =>
    (flashAttempt .program a s).bind fun s => .done { s with flash := Memory.program s.flash a data }

/-- R6: FLASH_SECTOR. -/
def sectorSize : Nat := 4096

/-- R66, R67: FlashErase of the sector at `a`. -/
def flashErase (a : Nat) (s : State) : Res :=
  (checkRange a sectorSize s).bind fun s =>
    (flashAttempt .erase a s).bind fun s => .done { s with flash := Memory.erase s.flash a sectorSize }

/-- R181: `seg.len` FlashReads of one byte each, every byte written to IMG as it is read. A failure of read j leaves
the j bytes before it written (R260). -/
def copySegment (seg : Segment) (s : State) : Res :=
  match s.failAt with
  | none => .done { s with img := Memory.copy s.img seg.dst s.flash seg.src seg.len }
  | some n =>
    if n < seg.len then
      .stop { s with img := Memory.copy s.img seg.dst s.flash seg.src n, failAt := some 0 } (.flashFail .read (seg.src + n))
    else
      .done { s with img := Memory.copy s.img seg.dst s.flash seg.src seg.len, failAt := some (n - seg.len) }

/-- The segments one after the other. -/
def copySegments : List Segment → State → Res
  | [], s => .done s
  | seg :: segs, s => (copySegment seg s).bind (copySegments segs)

end Sys2Proof.Machine
end

