-- ==== Sys2Proof/Machine/Operands.lean ====
section
/-! DEFINITION. Operand forms: words of the image and their byte order (spec/20_memory.md R54, R55), flash addresses of
slots, pages and sectors (R64, R65), 32-bit config words (spec/45_config_store.md R221, R232), and the lines on the pins
(spec/30_encoding.md R80 to R83). -/

namespace Sys2Proof.Machine

/-! ### Words -/

/-- R6: ROM_BYTES, the size of IMG and of a slot. -/
def romBytes : Nat := 2 ^ 19

/-- R8: `swap16`. -/
def swap16 (w : Half) : Half := w.extractLsb' 0 8 ++ w.extractLsb' 8 8

/-- R54: byte 2w of IMG is the low byte of word w. -/
def romWord (img : Memory) (w : Addr) : Half := Memory.read img (2 * w.toNat + 1) ++ Memory.read img (2 * w.toNat)

/-- R55, R113: what a qualifying sample puts on the data lines. -/
def busWord (img : Memory) (a : Addr) : Half := swap16 (romWord img a)

/-- R186: the two bytes of a payload word, at IMG offsets 2i and 2i+1. -/
def payloadCells (i : Nat) (data : Half) : List Host.Cell :=
  let w := swap16 data
  [(2 * i, w.extractLsb' 0 8), (2 * i + 1, w.extractLsb' 8 8)]

/-- R8: `ctz32`, the "lowest still-set bit" lookup of R232; 32 where no bit is set (D32). -/
def ctz32 (x : BitVec 32) : Nat := ((List.range 32).find? fun i => x.getLsbD i).getD 32

/-- R7: `mask_below`. -/
def maskBelow (k : Nat) : BitVec 32 := BitVec.ofNat 32 (2 ^ k - 1)

/-- R232: the "clear all bits below index" update. -/
def clearBelow (x : BitVec 32) (k : Nat) : BitVec 32 := x &&& ~~~ maskBelow k

/-- R225: the 4-byte little-endian form of a 32-bit word. -/
def le32 (x : BitVec 32) : List Byte :=
  [x.extractLsb' 0 8, x.extractLsb' 8 8, x.extractLsb' 16 8, x.extractLsb' 24 8]

/-- R221: the 32-bit little-endian word at an offset of a list of bytes. -/
def wordAt (bytes : List Byte) (off : Nat) : BitVec 32 :=
  bytes.getD (off + 3) erasedByte ++ bytes.getD (off + 2) erasedByte ++
  bytes.getD (off + 1) erasedByte ++ bytes.getD off erasedByte

/-- A list of bytes with the 32-bit little-endian word at an offset replaced. -/
def setWordAt (bytes : List Byte) (off : Nat) (x : BitVec 32) : List Byte :=
  bytes.take off ++ le32 x ++ bytes.drop (off + 4)

/-- R222: `rd32`, the word at a flash address. -/
def flashWord (flash : Memory) (a : Nat) : BitVec 32 := wordAt (Memory.readList flash a 4) 0

/-! ### Flash addresses -/

/-- R6: FLASH_PAGE. -/
def pageSize : Nat := 256

/-- R64: SLOT_BASE(n), for n in 1..7. -/
def slotBase (p : Params) (n : Nat) : Nat := p.slotBases.getD (n - 1) (n * 0x80000)

/-- R65: `page_addr`. -/
def pageAddr (p : Params) (page : Arg) : Nat := p.pageOrigin + pageSize * page.toNat

/-- R65: `sector_addr`. -/
def sectorAddr (p : Params) (sector : Arg) : Nat := p.pageOrigin + sectorSize * sector.toNat

/-- R182: the slot numbers that name a slot. -/
def validSlot (n : Nat) : Bool := 1 ≤ n && n ≤ 7

/-! ### Pins -/

/-- The level of a pin. -/
def pinLevel (pins i : Nat) : Bool := pins.testBit i

/-- The pins with one of them put to a level. -/
def setPin (pins : Nat) (i : Nat) (level : Bool) : Nat := if pins.testBit i = level then pins else pins ^^^ 2 ^ i

/-- R81, R82: the pin that carries bit j of the address. -/
def addrPin (p : Params) (l : Layout) (j : Nat) : Nat :=
  match l with
  | .contiguous => p.pins.addrBase + j
  | .split =>
    if j = p.splitBit then p.pins.splitPin
    else if j < p.splitBit then p.pins.addrBase + j
    else p.pins.addrBase + (j - 1)

/-- The number whose bits below n are given. -/
def gatherBits (f : Nat → Bool) : Nat → Nat
  | 0 => 0
  | n + 1 => gatherBits f n + (if f n then 2 ^ n else 0)

/-- R80: the address on the pins. -/
def pinsAddr (p : Params) (l : Layout) (pins : Nat) : Addr :=
  BitVec.ofNat 18 (gatherBits (fun j => pinLevel pins (addrPin p l j)) 18)

/-- R80: a logical sample of the bus lines. -/
structure Snapshot where
  oe : Bool
  ce : Bool
  addr : Addr
  deriving DecidableEq, Repr

/-- R80 to R83, R111: the lines as they stand on the pins (a line is asserted when its level differs from its resting one). -/
def snapshotOf (p : Params) (l : Layout) (pins : Nat) : Snapshot where
  oe := pinLevel pins p.pins.oe != p.oeActiveLow
  ce := pinLevel pins p.pins.ce != p.ceActiveLow
  addr := pinsAddr p l pins

/-- The pins with address bits below n put to those of `a`. -/
def driveAddr (p : Params) (l : Layout) (a : Addr) (pins : Nat) : Nat → Nat
  | 0 => pins
  | n + 1 => setPin (driveAddr p l a pins n) (addrPin p l n) (a.getLsbD n)

/-- The pins with the lines of a logical sample put on them (the inverse of `snapshotOf`). -/
def driveLines (p : Params) (l : Layout) (b : Snapshot) (pins : Nat) : Nat :=
  setPin (setPin (driveAddr p l b.addr pins 18) p.pins.oe (b.oe != p.oeActiveLow)) p.pins.ce (b.ce != p.ceActiveLow)

/-- The strap, OE, CE and address lines lie on pins of their own under a layout (D2). -/
def linesDistinct (p : Params) (l : Layout) : Bool :=
  decide (([p.pins.strap, p.pins.oe, p.pins.ce] ++ (List.range 18).map (addrPin p l)).Nodup)

/-- R25: LAYOUT as the strap level selects it. -/
def layoutOfStrap (p : Params) (pins : Nat) : Layout :=
  if pinLevel pins p.pins.strap = p.strapSplitLevel then .split else .contiguous

/-- R35: the data lines carry DOUT while DDIR = OUT and are released while DDIR = IN. -/
def dataLines (s : State) : Option Half :=
  match s.ddir with
  | .output => some s.dout
  | .input => none

/-- R83: the level the block puts on a pin, if it drives that pin: data line i is pin dataBase + i. -/
def dataPin (s : State) (pin : Nat) : Option Bool :=
  if s.params.pins.dataBase ≤ pin ∧ pin < s.params.pins.dataBase + 16 then
    (dataLines s).map fun d => d.getLsbD (pin - s.params.pins.dataBase)
  else none

end Sys2Proof.Machine
end

