-- ==== Sys2Proof/Machine/Flags.lean ====
section
/-! DEFINITION. The flag-like elements (spec/10_state.md R36): the matcher (spec/42_command_decoder.md R163), the edge
flag with the data direction (spec/40_bus_responder.md R112 to R115), and the sentinel word (spec/44_commands_flash.md R200). -/

namespace Sys2Proof.Machine

/-- R31, R37: MATCH in bits. -/
def MatchState.bits : MatchState → BitVec 2
  | .s0 => 0
  | .s1 => 1
  | .s2 => 2
  | .armed => 3

/-- R37: LAYOUT in one bit. -/
def Layout.bit : Layout → Bool
  | .contiguous => false
  | .split => true

/-- R37: DDIR in one bit. -/
def Direction.bit : Direction → Bool
  | .input => false
  | .output => true

/-- R163: `next(state, t)`. ARMED has no row there: in ARMED the word is a command word (R166), after which MATCH is S0. -/
def matchNext (m : MatchState) (t : Addr) : MatchState :=
  match m with
  | .s0 => if t = magicToken0 then .s1 else .s0
  | .s1 => if t = magicToken0 then .s1 else if t = magicToken1 then .s2 else .s0
  | .s2 => if t = magicToken0 then .s1 else if t = magicToken2 then .armed else .s0
  | .armed => .s0

/-- R112: is a sample a qualifying one? -/
def qualifying (p : Params) (b : Snapshot) : Bool := b.oe && (b.ce || !p.ceQualifies)

/-- R113: drive the addressed word; HOST's assertion has now been answered (R120). -/
def driveData (a : Addr) (s : State) : State :=
  { s with dout := busWord s.img a, ddir := .output, sampled := true }

/-- R114: forward the first address of an assertion, and set TRIG whether or not Q had room (D11). -/
def forwardAddr (a : Addr) (s : State) : State :=
  if s.trig then s else { fifoTryPush (forwardedWord a) s with trig := true }

/-- R115: release the data lines and clear TRIG; DOUT stays (D44). -/
def releaseData (s : State) : State := { s with ddir := .input, trig := false, sampled := false }

/-- R6: SENTINEL_WORD, at IMG bytes 256 and 257. -/
def sentinelAddr : Addr := 0x00080#18

/-- R200, phase 0: SENTINEL_BUSY. -/
def sentinelBusy : List Host.Cell := [(256, 0xFF#8), (257, 0xFF#8)]

/-- R200, phase 2: SENTINEL_IDLE. -/
def sentinelIdle : List Host.Cell := [(256, 0x00#8), (257, 0x00#8)]

end Sys2Proof.Machine
end

