-- ==== Sys2Proof/Machine/Responder.lean ====
section
/-! DEFINITION. RESP's sample step and HOST's side of a read transaction (spec/40_bus_responder.md R110 to R125). -/

namespace Sys2Proof.Machine

/-- R111: a BusSnapshot of the pins, with the layout in LAYOUT. -/
def snapshot (s : State) : Snapshot := snapshotOf s.params s.layout s.pins

/-- R116: the sample step, one atomic step. -/
def respSample (s : State) : State :=
  let b := snapshot s
  if qualifying s.params b then forwardAddr b.addr (driveData b.addr s) else releaseData s

/-- R29, R110: RESP takes no sample while RUN = 0. -/
def respStep (s : State) : State := if s.run then respSample s else s

/-- R34: HOST puts levels on the pins. The strap's level is the board's, not HOST's. An assertion ends when OE is
deasserted, and with it what its samples have answered (R120). -/
def hostDrive (levels : Nat) (s : State) : State :=
  let pins := setPin levels s.params.pins.strap (pinLevel s.pins s.params.pins.strap)
  { s with pins := pins, sampled := s.sampled && (snapshotOf s.params s.layout pins).oe }

/-- HOST puts logical lines on the pins. -/
def hostLines (b : Snapshot) (s : State) : State := hostDrive (driveLines s.params s.layout b s.pins) s

/-- R120: HOST latches the DOUT of the latest qualifying sample of this assertion; where there is none, or the lines are
released (R28), the value is a FREE VALUE (log 10). -/
def hostLatch (s : State) : State :=
  if s.sampled = true ∧ s.ddir = .output then { s with latched := s.latched ++ [s.dout] }
  else { s with latched := s.latched ++ [Config.freeBus s.draws], draws := s.draws + 1 }

/-- R118: the read transaction under HOST's duties (R119), with one sample in each of its steps 2 and 5 and no step of
DISP in between; other schedules are made of the single events (log 7). -/
def hostRead (a : Addr) (s : State) : State :=
  let s := hostLines { oe := true, ce := true, addr := a } s
  let s := respStep s
  let s := hostLatch s
  let s := hostLines { oe := false, ce := false, addr := a } s
  respStep s

/-- R121: RD. -/
def execRd (addr : Addr) (s : State) : Host.Outcome State Fault Refusal := .next (hostRead addr s)

end Sys2Proof.Machine
end

