-- ==== Sys2Proof/Machine/Store.lean ====
section
/-! DEFINITION. The active-slot config store: its fields, the lookup and the parts of the update
(spec/45_config_store.md R220 to R232). -/

namespace Sys2Proof.Machine

/-- R6: CFG_PAGES. -/
def cfgPages : Nat := 16
/-- R6: CFG_TUPLES. -/
def cfgTuples : Nat := 31
/-- R6: DEFAULT_SLOT. -/
def defaultSlot : Nat := 1

/-- R220: the address of page p. -/
def cfgPageAddr (p : Params) (page : Nat) : Nat := p.configSector + pageSize * page

/-- R222: PB lies in page 0. -/
def pbAddr (p : Params) : Nat := p.configSector + p.cfgLayout.pagesBitmap

/-- R222: TB[page]. -/
def tbAddr (p : Params) (page : Nat) : Nat := cfgPageAddr p page + p.cfgLayout.tuplesBitmap

/-- R221: the offset of a tuple's slot field in its page. -/
def slotOffset (p : Params) (t : Nat) : Nat := p.cfgLayout.slotField + p.cfgLayout.tupleStride * t

/-- R222: SLOTV[page][t]. -/
def slotvAddr (p : Params) (page t : Nat) : Nat := cfgPageAddr p page + slotOffset p t

/-- R39, R222: PB. -/
def storePb (p : Params) (flash : Memory) : BitVec 32 := flashWord flash (pbAddr p)
/-- R39, R222: TB[page]. -/
def storeTb (p : Params) (flash : Memory) (page : Nat) : BitVec 32 := flashWord flash (tbAddr p page)
/-- R39, R222: SLOTV[page][t]. -/
def storeSlotv (p : Params) (flash : Memory) (page t : Nat) : BitVec 32 := flashWord flash (slotvAddr p page t)

/-- R223: the slot a tuple's value stands for; out of 1..7 it is the default slot (outcome E7). -/
def slotOfValue (v : BitVec 32) : Nat := if validSlot v.toNat then v.toNat else defaultSlot

/-- R67, R222: a `rd32` of the lookup; none where the four bytes it would touch may not be read (log 9). -/
def lookupRead (p : Params) (flash : Memory) (a : Nat) : Option (BitVec 32) :=
  if flashRangeOk p a 4 then some (flashWord flash a) else none

/-- R223: the lookup, a read for each field it needs and no other; none where it reaches no tuple: an index is out of
range (R224), or a field it needs may not be read under these parameters (R67; log 9). -/
def lookupSlot (p : Params) (flash : Memory) : Option Nat :=
  match lookupRead p flash (pbAddr p) with
  | none => none
  | some pb =>
    if cfgPages ≤ ctz32 pb then none
    else
      match lookupRead p flash (tbAddr p (ctz32 pb)) with
      | none => none
      | some tb =>
        if cfgTuples ≤ ctz32 tb then none
        else (lookupRead p flash (slotvAddr p (ctz32 pb) (ctz32 tb))).map slotOfValue

/-- R223, R224: `get_active_slot`. It never faults; where the lookup reaches no tuple the slot is a FREE VALUE in 1..7
(log 9). -/
def getActiveSlot (s : State) : Nat × State :=
  match lookupSlot s.params s.flash with
  | some n => (n, s)
  | none => ((Config.freeSlot s.draws).val + 1, { s with draws := s.draws + 1 })

/-- R225: the next tuple; page 16 means that the pages are exhausted. -/
def nextTuple (page t : Nat) : Nat × Nat := if t + 1 = cfgTuples then (page + 1, 0) else (page, t + 1)

/-- R225, R226: the image of the target page `p2`, from that page's own bytes. -/
def storePageImage (p : Params) (img : List Byte) (slot page p2 t2 : Nat) : List Byte :=
  let img := if p2 = page then img
    else setWordAt img p.cfgLayout.pagesBitmap (clearBelow (wordAt img p.cfgLayout.pagesBitmap) p2)
  let img := setWordAt img p.cfgLayout.tuplesBitmap (clearBelow (wordAt img p.cfgLayout.tuplesBitmap) t2)
  setWordAt img (slotOffset p t2) (BitVec.ofNat 32 slot)

end Sys2Proof.Machine
end

