-- ==== Sys2Proof/Machine/Tasks.lean ====
section
/-! DEFINITION. What DISP does within BOOT or a command: one step of a task with the choices the spec leaves open, and
the same task run without interruption (spec/43_commands_image.md R180, R181; spec/20_memory.md R53, R69). -/

namespace Sys2Proof.Machine

/-- What is left of a task after a step of it. -/
inductive Progress where
  | cont (todo : List Task) (s : State)
  | stop (s : State) (r : FaultReason)
  deriving DecidableEq, Repr

/-- A part that leaves nothing to do, or stops. -/
def Res.thenTasks (x : Res) (todo : State → List Task) : Progress :=
  match x with
  | .done s => .cont (todo s) s
  | .stop s r => .stop s r

/-- R181: `load_slot(slot, 0, n)`. -/
def loadSlotTasks (p : Params) (slot n : Nat) : List Task :=
  [.check (slotBase p slot) n, .copy [{ dst := 0, src := slotBase p slot, len := n }]]

/-- R184: the StatusRecord. -/
def statusRecord (p : Params) (slot : Nat) : List Byte :=
  [0x52#8, 0x50#8, 0x52#8, 0x4D#8, 10#8, p.fwMajor, p.fwMinor, p.fwPatch, p.flashSizeMb, BitVec.ofNat 8 slot]

/-- R184: `MemWrite(0, 10, rec)`. -/
def statusCells (p : Params) (slot : Nat) : List Host.Cell :=
  (List.range 10).zip (statusRecord p slot)

/-- R225, R227: `p` is the active page of PB; out of range it is CFG_CORRUPT. -/
def storePagesStep (slot : Nat) (s : State) : Progress :=
  match flashRead (pbAddr s.params) 4 s with
  | .stop s r => .stop s r
  | .done s =>
    let pb := storePb s.params s.flash
    if cfgPages ≤ ctz32 pb then .stop s (.cfgCorrupt (ctz32 pb)) else .cont [.storeTuples slot pb] s

/-- R225, R227: the target tuple; when the pages are exhausted the sector is erased first. -/
def storeTuplesStep (slot : Nat) (pb : BitVec 32) (s : State) : Progress :=
  match flashRead (tbAddr s.params (ctz32 pb)) 4 s with
  | .stop s r => .stop s r
  | .done s =>
    let page := ctz32 pb
    let t := ctz32 (storeTb s.params s.flash page)
    if cfgTuples ≤ t then .stop s (.cfgCorrupt t)
    else
      let (p2, t2) := nextTuple page t
      if p2 = cfgPages then .cont [.erase s.params.configSector, .storePage slot pb page 0 t2] s
      else .cont [.storePage slot pb page p2 t2] s

/-- R225, R226: read the target page, program its new image, and reprogram page 0's pages-bitmap when the active page
has changed to another one than page 0. -/
def storePageStep (slot : Nat) (pb : BitVec 32) (page p2 t2 : Nat) (s : State) : Progress :=
  match flashRead (cfgPageAddr s.params p2) pageSize s with
  | .stop s r => .stop s r
  | .done s =>
    let base := cfgPageAddr s.params p2
    let img := storePageImage s.params (Memory.readList s.flash base pageSize) slot page p2 t2
    .cont (.program base img :: (if p2 ≠ page ∧ p2 ≠ 0 then [.program (pbAddr s.params) (le32 (clearBelow pb p2))] else [])) s

/-- A whole task, or as much of it as is one step whatever the choices are. -/
def Task.whole (t : Task) (s : State) : Progress :=
  match t with
  | .sampleStrap => .cont [] { s with layout := layoutOfStrap s.params s.pins }
  | .loadActive n =>
    let found := getActiveSlot s
    .cont (loadSlotTasks found.2.params found.1 n) found.2
  | .status =>
    let found := getActiveSlot s
    .cont [.bytes (statusCells found.2.params found.1)] found.2
  | .storePages slot => storePagesStep slot s
  | .storeTuples slot pb => storeTuplesStep slot pb s
  | .storePage slot pb page p2 t2 => storePageStep slot pb page p2 t2 s
  | .check a n => (checkRange a n s).thenTasks fun _ => []
  | .copy segs => (copySegments segs s).thenTasks fun _ => []
  | .bytes cells => .cont [] { s with img := Memory.writeCells s.img cells }
  | .program a data => (flashProgram a data s).thenTasks fun _ => []
  | .programPage a => (flashProgram a (Memory.readList s.img 0 pageSize) s).thenTasks fun _ => []
  | .erase a => (flashErase a s).thenTasks fun _ => []
  | .startResponder => .cont [] { s with run := true }

/-- A run of bytes with nothing in it is left out. -/
def segmentList (dst src len : Nat) : List Segment := if len = 0 then [] else [{ dst := dst, src := src, len := len }]

/-- R53, R181: one step of a copy: a choice of the bytes that are due is copied; at the least, one single byte. -/
def copyStep (c : Choice) (segs : List Segment) (s : State) : Progress :=
  let i := c.pick % segs.length
  match segs[i]? with
  | none => .cont [] s
  | some seg =>
    let off := min (c.off % seg.len) seg.len
    let n := min (c.len + 1) (seg.len - off)
    let rest := segs.take i ++ segmentList seg.dst seg.src off ++
      segmentList (seg.dst + off + n) (seg.src + off + n) (seg.len - off - n) ++ segs.drop (i + 1)
    (copySegment { dst := seg.dst + off, src := seg.src + off, len := n } s).thenTasks fun _ =>
      if rest = [] then [] else [.copy rest]

/-- R53: one step of a MemWrite: one of the byte writes that are due takes effect. -/
def bytesStep (c : Choice) (cells : List Host.Cell) (s : State) : Progress :=
  let i := c.pick % cells.length
  match cells[i]? with
  | none => .cont [] s
  | some cell =>
    let rest := cells.eraseIdx i
    .cont (if rest = [] then [] else [.bytes rest]) { s with img := Memory.write s.img cell.1 cell.2 }

/-- One step of a task, with the free choices of R53 (log 7). -/
def Task.step (c : Choice) (t : Task) (s : State) : Progress :=
  match t with
  | .copy segs => copyStep c segs s
  | .bytes cells => bytesStep c cells s
  | _ => t.whole s

/-- Tasks in program order (R69 item 1), each run to its end, until one stops (R252). -/
def runWith (f : Task → State → Res) : List Task → State → Res
  | [], s => .done s
  | t :: ts, s => (f t s).bind (runWith f ts)

/-- A task and the tasks it leaves, run to the end; they are nested at most `depth` deep. -/
def Task.run : Nat → Task → State → Res
  | 0, _, s => .done s
  | depth + 1, t, s =>
    match t.whole s with
    | .stop s r => .stop s r
    | .cont todo s => runWith (Task.run depth) todo s

/-- Tasks run to the end without interruption; a store update nests four deep. -/
def runTasks (todo : List Task) (s : State) : Res := runWith (Task.run 4) todo s

/-- How an operation ends (R180, R252): DCTL <- RECV, or FAULTED. -/
def Res.finish : Res → State
  | .done s => { s with dctl := .recv }
  | .stop s r => raiseFault r s

/-- What DISP is doing, run to its end without interruption: boot and commands up to RECV or FAULTED, payload bytes
that are due up to the wait for the next word. -/
def settle (s : State) : State :=
  match s.dctl with
  | .boot todo => (runTasks todo s).finish
  | .exec _ _ todo => (runTasks todo s).finish
  | .hostCopy i due => { s with img := Memory.writeCells s.img due, dctl := .hostCopy i [] }
  | .recv => s
  | .faulted _ => s

end Sys2Proof.Machine
end

