-- ==== Sys2Proof/Machine/ImageCommands.lean ====
section
/-! DEFINITION. The image commands and the payload word (spec/43_commands_image.md R180 to R187). For each instruction
`start…` is the DISP step that consumes its word (R161, R166) and `exec…` is the whole instruction: that step and the
command's steps to their end, uninterrupted (log 7). -/

namespace Sys2Proof.Machine

/-- R166: dispatch puts MATCH back to S0 and DISP into EXEC, with the command's steps to do. -/
def startCommand (op : Op) (arg : Arg) (todo : List Task) (s : State) : State :=
  { s with matcher := .s0, dctl := .exec op arg todo }

/-- R182: a slot out of 1..7 is silently ignored (E1); else the store is updated, then the whole image reloaded. -/
def startUpdateActiveSlot (slot : Arg) (s : State) : State :=
  startCommand .updateActiveSlot slot
    (if validSlot slot.toNat then .storePages slot.toNat :: loadSlotTasks s.params slot.toNat romBytes else []) s

/-- R182: UPDATE_ACTIVE_SLOT. -/
def execUpdateActiveSlot (slot : Arg) (s : State) : Host.Outcome State Fault Refusal :=
  .next (settle (startUpdateActiveSlot slot s))

/-- R184: look the slot up, then write the record. -/
def startWriteStatusToSram (arg : Arg) (s : State) : State := startCommand .writeStatusToSram arg [.status] s

/-- R184: WRITE_STATUS_TO_SRAM. -/
def execWriteStatusToSram (arg : Arg) (s : State) : Host.Outcome State Fault Refusal :=
  .next (settle (startWriteStatusToSram arg s))

/-- R185: the page buffer and the sentinel word. -/
def responseBytes : Nat := 258

/-- R185: look the slot up, then load its first 258 bytes. -/
def startRestorePageToSram (arg : Arg) (s : State) : State :=
  startCommand .restorePageToSram arg [.loadActive responseBytes] s

/-- R185: RESTORE_PAGE_TO_SRAM. -/
def execRestorePageToSram (arg : Arg) (s : State) : Host.Outcome State Fault Refusal :=
  .next (settle (startRestorePageToSram arg s))

/-- R166, R186: DISP waits for payload word 0; the command's effect is that of its payload words. -/
def startCopyPageHostToSram (_arg : Arg) (s : State) : State := { s with matcher := .s0, dctl := .hostCopy 0 [] }

/-- R186: COPY_PAGE_HOST_TO_SRAM. -/
def execCopyPageHostToSram (arg : Arg) (s : State) : Host.Outcome State Fault Refusal :=
  .next (settle (startCopyPageHostToSram arg s))

/-- R6: HOST_COPY_WORDS. -/
def hostCopyWords : Nat := 128

/-- R186: payload word i. Its two byte writes are due from now on and take effect before the command ends (D45). -/
def takePayload (data : Half) (i : Nat) (due : List Host.Cell) (s : State) : State :=
  let due := due ++ payloadCells i data
  if i + 1 < hostCopyWords then { s with dctl := .hostCopy (i + 1) due }
  else { s with dctl := .exec .copyPageHostToSram 0 [.bytes due] }

/-- R186: the DISP step that consumes a payload word; nothing outside HOSTCOPY. -/
def startPayload (_ignored : BitVec 2) (data : Half) (s : State) : State :=
  match s.dctl with
  | .hostCopy i due => takePayload data i due s
  | _ => s

/-- R186, R89: PAYLOAD; its bytes, and those due from earlier words, take effect at once (log 11). -/
def execPayload (_ignored : BitVec 2) (data : Half) (s : State) : Host.Outcome State Fault Refusal :=
  match s.dctl with
  | .hostCopy i due => .next (settle (takePayload data i due s))
  | _ => .fault .payloadOutsideHostCopy

end Sys2Proof.Machine
end

