-- ==== Sys2Proof/Machine/FlashCommands.lean ====
section
/-! DEFINITION. The three commands bracketed by the sentinel (spec/44_commands_flash.md R200 to R207). -/

namespace Sys2Proof.Machine

/-- R200: `bracket(op_body)`: phase 0 sets the sentinel, phase 2 clears it, in program order. -/
def bracket (body : List Task) : List Task := .bytes sentinelBusy :: (body ++ [.bytes sentinelIdle])

/-- R202: check the page, then copy it into IMG bytes 0..255. -/
def startCopyPageFlashToSram (page : Arg) (s : State) : State :=
  let a := pageAddr s.params page
  startCommand .copyPageFlashToSram page
    (bracket [.check a pageSize, .copy [{ dst := 0, src := a, len := pageSize }]]) s

/-- R202: COPY_PAGE_FLASH_TO_SRAM. -/
def execCopyPageFlashToSram (page : Arg) (s : State) : Host.Outcome State Fault Refusal :=
  .next (settle (startCopyPageFlashToSram page s))

/-- R203: program the page from IMG bytes 0..255; the primitive checks the range. -/
def startCopyPageSramToFlash (page : Arg) (s : State) : State :=
  startCommand .copyPageSramToFlash page (bracket [.programPage (pageAddr s.params page)]) s

/-- R203: COPY_PAGE_SRAM_TO_FLASH. -/
def execCopyPageSramToFlash (page : Arg) (s : State) : Host.Outcome State Fault Refusal :=
  .next (settle (startCopyPageSramToFlash page s))

/-- R204: erase the sector; the primitive checks the range. -/
def startEraseFlashSector (sector : Arg) (s : State) : State :=
  startCommand .eraseFlashSector sector (bracket [.erase (sectorAddr s.params sector)]) s

/-- R204: ERASE_FLASH_SECTOR. -/
def execEraseFlashSector (sector : Arg) (s : State) : Host.Outcome State Fault Refusal :=
  .next (settle (startEraseFlashSector sector s))

end Sys2Proof.Machine
end

