-- ==== Sys2Proof/Machine/Tokens.lean ====
section
/-! DEFINITION. Reserved command words, dispatch and the matcher tokens (spec/42_command_decoder.md R161 to R176). -/

namespace Sys2Proof.Machine

/-- R167: a reserved opcode is consumed and has no effect (E2); MATCH is S0 again. -/
def startReserved (s : State) : State := { s with matcher := .s0, dctl := .recv }

/-- R167: RESERVED_OP7. -/
def execReservedOp7 (_arg : Arg) (s : State) : Host.Outcome State Fault Refusal := .next (startReserved s)

/-- R167: RESERVED_OP8_15. -/
def execReservedOp8to15 (_opcode : BitVec 4) (_arg : Arg) (s : State) : Host.Outcome State Fault Refusal :=
  .next (startReserved s)

/-- R166: `dispatch(v)`. -/
def dispatch (v : Addr) (s : State) : State :=
  let arg := argOf v
  match (opcodeOf v).toNat with
  | 0 => startUpdateActiveSlot arg s
  | 1 => startWriteStatusToSram arg s
  | 2 => startRestorePageToSram arg s
  | 3 => startCopyPageHostToSram arg s
  | 4 => startCopyPageFlashToSram arg s
  | 5 => startCopyPageSramToFlash arg s
  | 6 => startEraseFlashSector arg s
  | _ => startReserved s

/-- R161: what is done with a word popped while DCTL = RECV. -/
def receiveWord (v : Addr) (s : State) : State :=
  if s.matcher = .armed then dispatch v s else { s with matcher := matchNext s.matcher v }

/-- A received word with, if it was a command word, the whole of its command. -/
def receiveWhole (v : Addr) (s : State) : State :=
  if s.matcher = .armed then settle (dispatch v s) else { s with matcher := matchNext s.matcher v }

/-- R173: MAGIC0; in ARMED the word is the command word UPDATE_ACTIVE_SLOT(130), which is ignored. -/
def execMagic0 (s : State) : Host.Outcome State Fault Refusal := .next (receiveWhole magicToken0 s)

/-- R174: MAGIC1; in ARMED the word is the command word UPDATE_ACTIVE_SLOT(1098), which is ignored. -/
def execMagic1 (s : State) : Host.Outcome State Fault Refusal := .next (receiveWhole magicToken1 s)

/-- R175: MAGIC2; in ARMED the word is a reserved command word. -/
def execMagic2 (s : State) : Host.Outcome State Fault Refusal := .next (receiveWhole magicToken2 s)

/-- R176: any other token; in ARMED every word is a command word (R166). -/
def execOtherToken (value : Addr) (s : State) : Host.Outcome State Fault Refusal := .next (receiveWhole value s)

end Sys2Proof.Machine
end

