-- ==== Sys2Proof/Machine/Dispatch.lean ====
section
/-! DEFINITION. One arm per instruction: a direct call of its meaning. -/

namespace Sys2Proof.Machine

def exec (i : Instr) (s : State) : Host.Outcome State Fault Refusal :=
  match i with
  -- spec/40_bus_responder.md
  | .rd addr => Sys2Proof.Machine.execRd addr s
  -- spec/42_command_decoder.md
  | .magic0 => Sys2Proof.Machine.execMagic0 s
  | .magic1 => Sys2Proof.Machine.execMagic1 s
  | .magic2 => Sys2Proof.Machine.execMagic2 s
  | .otherToken value => Sys2Proof.Machine.execOtherToken value s
  -- spec/43_commands_image.md
  | .updateActiveSlot slot => Sys2Proof.Machine.execUpdateActiveSlot slot s
  | .writeStatusToSram arg => Sys2Proof.Machine.execWriteStatusToSram arg s
  | .restorePageToSram arg => Sys2Proof.Machine.execRestorePageToSram arg s
  | .copyPageHostToSram arg => Sys2Proof.Machine.execCopyPageHostToSram arg s
  -- spec/44_commands_flash.md
  | .copyPageFlashToSram page => Sys2Proof.Machine.execCopyPageFlashToSram page s
  | .copyPageSramToFlash page => Sys2Proof.Machine.execCopyPageSramToFlash page s
  | .eraseFlashSector sector => Sys2Proof.Machine.execEraseFlashSector sector s
  -- spec/42_command_decoder.md R167
  | .reservedOp7 arg => Sys2Proof.Machine.execReservedOp7 arg s
  | .reservedOp8to15 opcode arg => Sys2Proof.Machine.execReservedOp8to15 opcode arg s
  -- spec/43_commands_image.md R186
  | .payload ignored data => Sys2Proof.Machine.execPayload ignored data s

end Sys2Proof.Machine
end

