-- ==== Sys2Proof/Machine/Agents.lean ====
section
/-! DEFINITION. The moves of the agents (spec/00_scope.md R10): DISP's single step and its uninterrupted run, the power
cycle, and the environment's events. -/

namespace Sys2Proof.Machine

/-- R92: the role of the word DISP would pop next; none where it pops none. -/
def State.context (s : State) : Option Context :=
  match s.dctl with
  | .recv => some (if s.matcher = .armed then .command else .token)
  | .hostCopy _ _ => some .payload
  | .boot _ => none
  | .exec _ _ _ => none
  | .faulted _ => none

/-- R161, R186: the one step of DISP that consumes a word, by what the word decodes to (R93). -/
def startInstr (i : Instr) (s : State) : State :=
  match i with
  | .rd _ => s
  | .magic0 => receiveWord magicToken0 s
  | .magic1 => receiveWord magicToken1 s
  | .magic2 => receiveWord magicToken2 s
  | .otherToken v => receiveWord v s
  | .updateActiveSlot slot => startUpdateActiveSlot slot s
  | .writeStatusToSram arg => startWriteStatusToSram arg s
  | .restorePageToSram arg => startRestorePageToSram arg s
  | .copyPageHostToSram arg => startCopyPageHostToSram arg s
  | .copyPageFlashToSram page => startCopyPageFlashToSram page s
  | .copyPageSramToFlash page => startCopyPageSramToFlash page s
  | .eraseFlashSector sector => startEraseFlashSector sector s
  | .reservedOp7 _ => startReserved s
  | .reservedOp8to15 _ _ => startReserved s
  | .payload ign d => startPayload ign d s

/-- R161, R168: pop a word if one is there, and consume it; with Q empty DISP waits (R143). -/
def dispPop (c : Context) (s : State) : State :=
  match fifoPop s with
  | none => s
  | some (v, s) => startInstr (decode c (tokenOf v)) s

/-- R180: one step of the first task to do; with none left, DCTL <- RECV. `back` puts the tasks that remain into DCTL. -/
def taskStep (c : Choice) (todo : List Task) (back : List Task → Dctl) (s : State) : State :=
  match todo with
  | [] => { s with dctl := .recv }
  | t :: ts =>
    match t.step c s with
    | .cont more s => { s with dctl := back (more ++ ts) }
    | .stop s r => raiseFault r s

/-- One step of DISP (R161, R180, R281), with the choices the spec leaves open. FAULTED has no step (R252). -/
def dispStep (c : Choice) (s : State) : State :=
  match s.dctl with
  | .boot todo => taskStep c todo .boot s
  | .recv => dispPop (if s.matcher = .armed then .command else .token) s
  | .exec op arg todo => taskStep c todo (.exec op arg) s
  | .hostCopy i due =>
    match due[c.pick % due.length]? with
    | some cell =>
      if c.land then
        { s with img := Memory.write s.img cell.1 cell.2, dctl := .hostCopy i (due.eraseIdx (c.pick % due.length)) }
      else dispPop .payload s
    | none => dispPop .payload s
  | .faulted _ => s

/-- DISP runs without interruption until it waits for a word: it ends what it is doing, or runs the next word's
instruction whole (log 7). -/
def dispRun (s : State) : Host.Outcome State Fault Refusal :=
  match s.context with
  | none => .next (settle s)
  | some c =>
    match fifoPop s with
    | none => .next (settle s)
    | some (v, s) => exec (decode c (tokenOf v)) s

/-- R231: the flash range that the primitive DISP is about to run would write, if it runs one. -/
def writingRange (s : State) : Option (Nat × Nat) :=
  let ofTodo : List Task → Option (Nat × Nat)
    | .program a data :: _ => some (a, data.length)
    | .programPage a :: _ => some (a, pageSize)
    | .erase a :: _ => some (a, sectorSize)
    | _ => none
  match s.dctl with
  | .boot todo => ofTodo todo
  | .exec _ _ todo => ofTodo todo
  | .recv => none
  | .hostCopy _ _ => none
  | .faulted _ => none

/-- R231, D42: FLASH when power is lost: the bytes that an interrupted primitive was writing hold any values. -/
def tornFlash (torn : List Byte) (s : State) : Memory :=
  match writingRange s with
  | none => s.flash
  | some (a, n) => if flashRangeOk s.params a n then Memory.overwrite s.flash a (torn.take n) else s.flash

/-- R262, R280: a power cycle. FLASH is kept (R285); what the spec calls unspecified right after it (IMG, DOUT, LAYOUT)
holds FREE VALUES (log 14); what is not the block's (parameters, pins, HOST's record, the environment's choices) is
kept. -/
def powerCycle (torn : List Byte) (s : State) : State :=
  { State.powerOn s.params (tornFlash torn s) s.pins with
    img := Memory.writeCells [] ((Config.freeImg s.draws).filter fun c => c.1 < romBytes)
    dout := Config.freeBus s.draws
    layout := if Config.freeLayout s.draws then .split else .contiguous
    latched := s.latched, failAt := s.failAt, draws := s.draws + 1, script := s.script }

/-- One move of the environment. -/
def applyEvent (e : Event) (s : State) : Host.Outcome State Fault Refusal :=
  match e with
  | .read a => exec (.rd a) s
  | .drive levels => .next (hostDrive levels s)
  | .sample => .next (respStep s)
  | .latch => .next (hostLatch s)
  | .disp c => .next (dispStep c s)
  | .run => dispRun s
  | .fate n => .next { s with failAt := n }
  | .powerCycle torn => .next (powerCycle torn s)

/-- R10: the environment's next move: the first listed one; once they are used up, a FREE VALUE (log 2). -/
def nextEvent (s : State) : Event × State :=
  match s.script with
  | e :: rest => (e, { s with script := rest })
  | [] => (Config.freeEvent s.draws, { s with draws := s.draws + 1 })

/-- Where the next instruction is fetched, by the role of its word (log 12): a bus word is HOST's next read, every
other word is the only one in Q, with DISP in the state that gives the word its role. -/
def placeInstr (i : Instr) (s : State) : State :=
  match i.context with
  | .bus => { s with run := true, script := .read (encode i) :: s.script }
  | .token =>
    { s with run := true, dctl := .recv, matcher := .s0, q := [forwardedWord (encode i)], script := .run :: s.script }
  | .command =>
    { s with run := true, dctl := .recv, matcher := .armed, q := [forwardedWord (encode i)], script := .run :: s.script }
  | .payload =>
    { s with run := true, dctl := .hostCopy 0 [], matcher := .s0, q := [forwardedWord (encode i)],
             script := .run :: s.script }

end Sys2Proof.Machine
end

