-- ==== Sys2Proof/Machine/Step.lean ====
section
/-! DEFINITION. The step, and where the host places an instruction for it. -/

namespace Sys2Proof.Machine

/-- R10: one step: the environment's next move is made. -/
def step (s : State) : Host.Outcome State Fault Refusal :=
  let (e, s) := nextEvent s
  applyEvent e s

/-- The state with an instruction of the opcode table placed so that the very next step runs it (log 12). -/
def State.withFetchWord (s : State) (nbits w : Nat) : State :=
  match decodeTableWord nbits w with
  | some i => placeInstr i s
  | none => s

end Sys2Proof.Machine
end

