-- ==== Sys2Proof/Machine/HostScript.lean ====
section
/-! DEFINITION. The host-script notation (spec/30_encoding.md R94, R95): macros that expand only to read transactions. -/

namespace Sys2Proof.Machine

/-- R94: a line of a host program. -/
inductive HostLine where
  | rd (a : Addr)
  | magic
  | cmd (op : BitVec 4) (arg : Nat)
  | pushw (d : Half)
  | pagew (ds : List Half)
  /-- WAITIDLE, of as many polls as it takes (R95). -/
  | waitIdle (polls : Nat)
  | rdw (a : Addr) (n : Nat)
  deriving DecidableEq, Repr

/-- R94: the prefix. -/
def magicAddrs : List Addr := [magicToken0, magicToken1, magicToken2]

/-- R94: the addresses a line stands for, in order. DESIGN CHOICE (log 26): where the last address of RDW would pass
0x3FFFF, they go on from 0; the spec does not say. -/
def HostLine.addrs : HostLine → List Addr
  | .rd a => [a]
  | .magic => magicAddrs
  | .cmd op arg => magicAddrs ++ [encodeCommand op arg]
  | .pushw d => [d.setWidth 18]
  | .pagew ds => ds.map fun d => d.setWidth 18
  | .waitIdle polls => List.replicate polls sentinelAddr
  | .rdw a n => (List.range n).map fun i => a + BitVec.ofNat 18 i

/-- R95: the encoding of a host program. -/
def hostProgram (lines : List HostLine) : List Addr := lines.flatMap HostLine.addrs

/-- R307: a read that a host program lists, with what the launch premises ask of it. -/
structure ListedRead where
  addr : Addr
  /-- It is a sentinel poll (HP-PACE leaves it out). -/
  poll : Bool := false
  /-- It depends on the result of the command before it (HP-SETTLE). -/
  dependent : Bool := false
  deriving DecidableEq, Repr

/-- R307: the reads of a line. The polls are WAITIDLE's; RD and RDW are taken to depend on the command before them (a
claim may mark fewer), the words of a command or a payload do not. -/
def HostLine.listed (l : HostLine) : List ListedRead :=
  match l with
  | .rd _ => l.addrs.map fun a => { addr := a, dependent := true }
  | .rdw _ _ => l.addrs.map fun a => { addr := a, dependent := true }
  | .waitIdle _ => l.addrs.map fun a => { addr := a, poll := true }
  | .magic => l.addrs.map fun a => { addr := a }
  | .cmd _ _ => l.addrs.map fun a => { addr := a }
  | .pushw _ => l.addrs.map fun a => { addr := a }
  | .pagew _ => l.addrs.map fun a => { addr := a }

/-- One schedule that meets HP-PACE, HP-QUIET and HP-SETTLE of R307 (Safety.lean) while DISP waits for words: every word
is consumed before HOST's next read. -/
def pacedScript (addrs : List Addr) : List Event := addrs.flatMap fun a => [.read a, .run]

end Sys2Proof.Machine
end

