-- ==== Sys2Proof/Safety.lean ====
section
/-! DEFINITION. The terms claims are stated in: legal parameters (spec/20_memory.md R64), launch premises and the end of a
run (spec/70_reset_and_hazards.md R306, R307), the invariants, the frame of DISP, and what the config store holds
(spec/45_config_store.md R224, R229). -/

namespace Sys2Proof.Machine

/-! ### Legal parameters -/

/-- R221: the offsets of the fields of a config page. -/
def cfgOffsets (l : CfgLayout) : List Nat :=
  [l.pagesBitmap, l.tuplesBitmap] ++ (List.range cfgTuples).map fun t => l.slotField + l.tupleStride * t

/-- R221: the fields of a config page lie apart from each other inside the page. -/
def cfgLayoutLegal (l : CfgLayout) : Bool :=
  (cfgOffsets l).all (fun x => x + 4 ≤ pageSize) &&
  decide ((cfgOffsets l).Pairwise fun x y => x + 4 ≤ y ∨ y + 4 ≤ x)

/-- R64: the seven slots and the config sector. -/
def imageRegions (p : Params) : List Region :=
  { base := p.configSector, size := sectorSize } ::
  (List.range 7).map fun k => { base := slotBase p (k + 1), size := romBytes }

/-- R64, R6: a legal configuration. -/
def paramsLegal (p : Params) : Bool :=
  decide (1 ≤ p.fifoDepth) && p.flashSizeMb != 0 && p.slotBases.length = 7 && p.configSector % sectorSize = 0 &&
  decide (p.splitBit < 18) && linesDistinct p .contiguous && linesDistinct p .split && cfgLayoutLegal p.cfgLayout &&
  (imageRegions p ++ p.firmware).all (fun r => r.base + r.size ≤ flashSize p) &&
  decide ((imageRegions p).Pairwise fun x y => Region.disjoint x y = true) &&
  (imageRegions p).all fun x => p.firmware.all fun y => Region.disjoint x y

/-! ### Runs -/

/-- R66: no flash primitive fails in the operation at hand, that is, until the environment changes its choice. -/
abbrev noFlashFailure (s : State) : Prop := s.failAt = none

/-- R10: the state after a step. -/
def State.after (s : State) : State :=
  match step s with
  | .next t => t
  | .fault _ => s
  | .refused _ => s

/-- The state that `n` steps reach. -/
def stateAt : Nat → State → State
  | 0, s => s
  | n + 1, s => stateAt n s.after

/-- The states from which the `n` steps of a run are taken. -/
def stepsFrom : Nat → State → List State
  | 0, _ => []
  | n + 1, s => s :: stepsFrom n s.after

/-- R118, R111: the reads of the block that HOST begins in the next step: a whole transaction, or lines put on the pins
with which a sample begins to qualify. -/
def State.readsBegun (s : State) : List Addr :=
  let (e, t) := nextEvent s
  match e with
  | .read a => [a]
  | .drive levels =>
    let b := snapshot (hostDrive levels t)
    if qualifying s.params (snapshot s) = false ∧ qualifying s.params b = true then [b.addr] else []
  | .sample => []
  | .latch => []
  | .disp _ => []
  | .run => []
  | .fate _ => []
  | .powerCycle _ => []

/-- R114: the addresses that the next step puts into Q (one at most: R141). -/
def State.wordsForwarded (s : State) : List Addr := (s.after.q.drop s.q.length).map tokenOf

/-- The reads HOST begins in `n` steps. -/
def readsMade (n : Nat) (s : State) : List Addr := (stepsFrom n s).flatMap State.readsBegun

/-- The addresses that reach Q in `n` steps. -/
def wordsSent (n : Nat) (s : State) : List Addr := (stepsFrom n s).flatMap State.wordsForwarded

/-! ### Launch premises (R307): restrictions on the schedule and the environment of a run of `n` steps -/

/-- R223, R224: a slot that the lookup can answer. -/
def mayAnswer (p : Params) (flash : Memory) (n : Nat) : Prop :=
  match lookupSlot p flash with
  | some m => n = m
  | none => 1 ≤ n ∧ n ≤ 7

/-- R307: IMG is the image the premise lists, or else that of a slot get_active_slot answers. -/
def LaunchImage (listed : Option Memory) (s : State) : Prop :=
  match listed with
  | some img => ∀ b < romBytes, Memory.read s.img b = Memory.read img b
  | none => ∃ n, mayAnswer s.params s.flash n ∧
      ∀ b < romBytes, Memory.read s.img b = Memory.read s.flash (slotBase s.params n + b)

/-- R307, CLEAN-LAUNCH: boot has completed with no fault; `listed` is the IMG that the premise lists, if it lists one. -/
structure CleanLaunch (listed : Option Memory) (s : State) : Prop where
  run : s.run = true
  dctl : s.dctl = .recv
  q : s.q = []
  matcher : s.matcher = .s0
  trig : s.trig = false
  ddir : s.ddir = .input
  img : LaunchImage listed s

/-- R307, HP-QUIET: HOST makes the listed reads, in order, and no other read of the block. -/
def HpQuiet (listed : List ListedRead) (n : Nat) (s : State) : Prop :=
  readsMade n s <+: listed.map ListedRead.addr

/-- Every listed read reached Q, but for sentinel polls, which may be dropped. -/
inductive Forwarded : List ListedRead → List Addr → Prop where
  | nil : Forwarded [] []
  | kept {r : ListedRead} {rs : List ListedRead} {ws : List Addr} : Forwarded rs ws → Forwarded (r :: rs) (r.addr :: ws)
  | dropped {r : ListedRead} {rs : List ListedRead} {ws : List Addr} : r.poll = true → Forwarded rs ws → Forwarded (r :: rs) ws

/-- R307, HP-PACE: of the listed reads that HOST has made, each that is no sentinel poll was forwarded into a Q with room. -/
def HpPace (listed : List ListedRead) (n : Nat) (s : State) : Prop :=
  Forwarded (listed.take (readsMade n s).length) (wordsSent n s)

/-- R163, R166: from a state of the matcher on, do these words hold a command word? -/
def holdsCommand : MatchState → List FifoWord → Bool
  | _, [] => false
  | .armed, _ :: _ => true
  | m, v :: q => holdsCommand (matchNext m (tokenOf v)) q

/-- R186: how many of the next words in Q are payload words. -/
def payloadDue (d : Dctl) : Nat :=
  match d with
  | .hostCopy i _ => hostCopyWords - i
  | .boot _ => 0
  | .recv => 0
  | .exec _ _ _ => 0
  | .faulted _ => 0

/-- A command word waits in Q. -/
def State.commandQueued (s : State) : Bool := holdsCommand s.matcher (s.q.drop (payloadDue s.dctl))

/-- R200: the three commands that the sentinel brackets. -/
def Op.bracketed : Op → Bool
  | .copyPageFlashToSram => true
  | .copyPageSramToFlash => true
  | .eraseFlashSector => true
  | .updateActiveSlot => false
  | .writeStatusToSram => false
  | .restorePageToSram => false
  | .copyPageHostToSram => false

/-- R87: the instruction of a command. -/
def Op.instr (op : Op) (arg : Arg) : Instr :=
  match op with
  | .updateActiveSlot => .updateActiveSlot arg
  | .writeStatusToSram => .writeStatusToSram arg
  | .restorePageToSram => .restorePageToSram arg
  | .copyPageHostToSram => .copyPageHostToSram arg
  | .copyPageFlashToSram => .copyPageFlashToSram arg
  | .copyPageSramToFlash => .copyPageSramToFlash arg
  | .eraseFlashSector => .eraseFlashSector arg

/-- R30: the tasks DISP still has to do. -/
def State.todo (s : State) : List Task :=
  match s.dctl with
  | .boot todo => todo
  | .exec _ _ todo => todo
  | .recv => []
  | .hostCopy _ _ => []
  | .faulted _ => []

/-- R200: bytes of phase 0 are still due; the last task of a bracketed command is phase 2. -/
def phase0Due (todo : List Task) : Bool :=
  match todo with
  | .bytes _ :: _ :: _ => true
  | _ => false

/-- R307: DISP has a command that has not taken its first step: phase 0 of a bracketed one is not over, or another has
all its tasks still to do. COPY_PAGE_HOST_TO_SRAM is under way from its dispatch on (R186). -/
def State.commandUnstarted (s : State) : Bool :=
  match s.dctl with
  | .exec op arg todo =>
    if op.bracketed then phase0Due todo
    else op != .copyPageHostToSram && todo == (startInstr (op.instr arg) s).todo
  | .boot _ => false
  | .recv => false
  | .hostCopy _ _ => false
  | .faulted _ => false

/-- R307: an unbracketed command has not completed. -/
def State.unbracketedBusy (s : State) : Bool :=
  match s.dctl with
  | .exec op _ _ => !op.bracketed
  | .hostCopy _ _ => true
  | .boot _ => false
  | .recv => false
  | .faulted _ => false

/-- R307: HOST may begin a listed read as far as HP-SETTLE goes. -/
def settledFor (r : ListedRead) (s : State) : Bool :=
  !s.commandQueued && !s.commandUnstarted && !(r.dependent && s.unbracketedBusy)

/-- R307, HP-SETTLE: HOST begins each listed read once the command before it has taken its first step, and a read that
depends on an unbracketed command's result once that command has completed. -/
def HpSettle : List ListedRead → Nat → State → Prop
  | _, 0, _ => True
  | listed, n + 1, s =>
    (s.readsBegun ≠ [] → ∀ r ∈ listed.head?, settledFor r s = true) ∧
    HpSettle (listed.drop s.readsBegun.length) n s.after

/-- R307, NO-FAULT: no flash primitive fails during the run (a failure leaves DISP in FAULTED: R252). -/
def NoFault (n : Nat) (s : State) : Prop :=
  ∀ t ∈ stepsFrom (n + 1) s, ∀ prim a, t.dctl ≠ .faulted (.flashFail prim a)

/-- R307: all the launch premises, for a run of `n` steps of a host program. -/
structure LaunchPremises (img : Option Memory) (listed : List ListedRead) (n : Nat) (s : State) : Prop where
  clean : CleanLaunch img s
  pace : HpPace listed n s
  quiet : HpQuiet listed n s
  settle : HpSettle listed n s
  noFault : NoFault n s

/-! ### The end of a run -/

/-- The program's own reads among those HOST makes in `n` steps: `own i` says that the i-th read it makes (from 0) is one
of the program's. The others are HOST's own fetches, which R306 does not exclude; under HP-QUIET there are none. -/
def ownReads (own : Nat → Bool) (n : Nat) (s : State) : List Addr :=
  ((readsMade n s).zipIdx.filter fun r => own r.2).map Prod.fst

/-- R306 item 1, R118: in `n` steps HOST has made every listed read, has latched a value for each read it has made, and
holds OE deasserted. -/
structure HostDone (own : Nat → Bool) (listed : List ListedRead) (n : Nat) (s : State) : Prop where
  made : ownReads own n s = listed.map ListedRead.addr
  latched : s.latched.length + (readsMade n s).length ≤ (stateAt n s).latched.length
  oe : (snapshot (stateAt n s)).oe = false

/-- R306 item 2, R118 step 5: the next step has RESP sample with OE deasserted; a whole transaction ends with that. -/
def State.samplesReleased (s : State) : Bool :=
  match (nextEvent s).1 with
  | .read _ => s.run && !(snapshot s.after).oe
  | .sample => s.run && !(snapshot s.after).oe
  | .drive _ => false
  | .latch => false
  | .disp _ => false
  | .run => false
  | .fate _ => false
  | .powerCycle _ => false

/-- R306, items 1 to 5: the state that `n` steps from `s` reach may end a run of the listed reads. Which moves are still
to come, HOST's apart, does not matter. A run that has reached FAULTED has no end, whatever a power cycle does after it
(R252: the fault is recorded and never cleared). -/
structure AtRest (own : Nat → Bool) (listed : List ListedRead) (n : Nat) (s : State) : Prop where
  host : HostDone own listed n s
  sampled : ∃ k < n, (stateAt k s).samplesReleased = true ∧ ∀ j, k < j → j ≤ n → HostDone own listed j s
  trig : (stateAt n s).trig = false
  ddir : (stateAt n s).ddir = .input
  q : (stateAt n s).q = []
  dctl : (stateAt n s).dctl = .recv
  noFault : ∀ k ≤ n, ∀ r, (stateAt k s).dctl ≠ .faulted r

/-- R306: the end of a run is the first such state. -/
structure EndOfRun (own : Nat → Bool) (listed : List ListedRead) (n : Nat) (s : State) : Prop where
  atRest : AtRest own listed n s
  first : ∀ k < n, ¬ AtRest own listed k s

/-- R306: what is observed at the end of a run. -/
structure Observed where
  img : Memory
  flash : Memory
  matcher : MatchState
  /-- The values HOST latched during the run, oldest first. -/
  latched : List Half
  deriving DecidableEq, Repr

/-- R306: the observed result of `n` steps from `s`. -/
def observed (n : Nat) (s : State) : Observed where
  img := (stateAt n s).img
  flash := (stateAt n s).flash
  matcher := (stateAt n s).matcher
  latched := (stateAt n s).latched.drop s.latched.length

/-- What an instruction of DISP leaves alone (R266): all of RESP's registers, Q (its word is popped before), the
parameters, and HOST's side. -/
structure DispFrame (s t : State) : Prop where
  q : t.q = s.q
  layout : t.layout = s.layout
  trig : t.trig = s.trig
  ddir : t.ddir = s.ddir
  dout : t.dout = s.dout
  run : t.run = s.run
  params : t.params = s.params
  pins : t.pins = s.pins
  sampled : t.sampled = s.sampled
  latched : t.latched = s.latched
  script : t.script = s.script

/-! ### Invariants -/

/-- Two copies write no byte twice. -/
abbrev segmentsApart (x y : Segment) : Prop := x.dst + x.len ≤ y.dst ∨ y.dst + y.len ≤ x.dst

/-- R53: a task writes IMG at offsets below 2^19 only, and each byte once. -/
def taskOk : Task → Bool
  | .loadActive n => n ≤ romBytes
  | .copy segs => segs.all (fun g => g.dst + g.len ≤ romBytes) && decide (segs.Pairwise segmentsApart)
  | .bytes cells => cells.all (fun c => c.1 < romBytes) && decide ((cells.map Prod.fst).Nodup)
  | _ => true

/-- D45: the payload bytes that are due are bytes of the words taken so far, each once. -/
def dueOk (s : State) : Prop :=
  match s.dctl with
  | .hostCopy i due => i < hostCopyWords ∧ (∀ c ∈ due, c.1 < 2 * i) ∧ (due.map Prod.fst).Nodup
  | _ => True

/-- The memories are canonical and inside their address spaces (R50), and so is everything still to be written. -/
structure MemoryInv (s : State) : Prop where
  imgWf : Memory.wf s.img = true
  imgBelow : Memory.below s.img romBytes = true
  flashWf : Memory.wf s.flash = true
  flashBelow : Memory.below s.flash (flashSize s.params) = true
  todo : ∀ t ∈ s.todo, taskOk t = true
  due : dueOk s

/-- R140, R84: Q holds at most FIFO_DEPTH words, each a zero-extended address. -/
structure FifoInv (s : State) : Prop where
  bound : s.q.length ≤ s.params.fifoDepth
  words : ∀ v ∈ s.q, ∃ a : Addr, v = forwardedWord a

/-- R29, R113 to R115, R120: the data lines are driven exactly while TRIG is set, and RESP has done nothing before RUN. -/
structure LinesInv (s : State) : Prop where
  trig : s.trig = true ↔ s.ddir = .output
  sampled : s.sampled = true → s.ddir = .output
  idle : s.run = false → s.q = [] ∧ s.ddir = .input

/-- R281: the tasks that only boot has: sampling the strap and starting RESP. -/
def bootOnly : Task → Bool
  | .sampleStrap => true
  | .startResponder => true
  | _ => false

/-- R281, R166: RUN is set by the last boot step and DISP leaves BOOT after it; the strap is sampled and RESP started in
BOOT only; MATCH is S0 except while DISP receives. -/
def ControlInv (s : State) : Prop :=
  match s.dctl with
  | .boot todo =>
    s.matcher = .s0 ∧ (if todo = [] then s.run = true else s.run = false ∧ todo.getLast? = some .startResponder) ∧
      .startResponder ∉ todo.dropLast
  | .recv => s.run = true
  | .exec _ _ todo => s.run = true ∧ s.matcher = .s0 ∧ ∀ t ∈ todo, bootOnly t = false
  | .hostCopy i _ => s.run = true ∧ s.matcher = .s0 ∧ i < hostCopyWords
  | .faulted _ => s.matcher = .s0

/-! ### The sentinel -/

/-- R202 to R204: a task of phase 1 writes the page buffer at most. -/
def inPageBuffer : Task → Bool
  | .check _ _ => true
  | .copy segs => segs.all fun g => g.dst + g.len ≤ pageSize
  | .programPage _ => true
  | .erase _ => true
  | _ => false

/-- R200, phase 0 under way: the sentinel bytes not due any more are busy. -/
def phase0 (todo : List Task) (img : Memory) : Prop :=
  ∃ cells body, todo = .bytes cells :: (body ++ [.bytes sentinelIdle]) ∧ (∀ c ∈ cells, c ∈ sentinelBusy) ∧
    (cells.map Prod.fst).Nodup ∧ (∀ t ∈ body, inPageBuffer t = true) ∧
    ∀ c ∈ sentinelBusy, c ∉ cells → Memory.read img c.1 = 0xFF#8

/-- R200, phase 1 under way: the sentinel is SENTINEL_BUSY. -/
def phase1 (todo : List Task) (img : Memory) : Prop :=
  ∃ body, todo = body ++ [.bytes sentinelIdle] ∧ (∀ t ∈ body, inPageBuffer t = true) ∧
    Memory.read img 256 = 0xFF#8 ∧ Memory.read img 257 = 0xFF#8

/-- R200, phase 2 under way: the sentinel bytes still due are busy, the others idle. -/
def phase2 (todo : List Task) (img : Memory) : Prop :=
  ∃ cells, todo = [.bytes cells] ∧ (∀ c ∈ cells, c ∈ sentinelIdle) ∧ (cells.map Prod.fst).Nodup ∧
    ∀ c ∈ sentinelIdle, Memory.read img c.1 = if c ∈ cells then 0xFF#8 else 0x00#8

/-- R200: all phases done. -/
def phase3 (todo : List Task) (img : Memory) : Prop :=
  todo = [] ∧ Memory.read img 256 = 0x00#8 ∧ Memory.read img 257 = 0x00#8

/-- R200, R201: a bracketed command is in one of its phases, and the sentinel reads as the phase says. -/
def SentinelInv (s : State) : Prop :=
  match s.dctl with
  | .exec op _ todo =>
    op.bracketed = true → phase0 todo s.img ∨ phase1 todo s.img ∨ phase2 todo s.img ∨ phase3 todo s.img
  | _ => True

/-! ### The config store -/

/-- An erased 32-bit word. -/
def erasedWord : BitVec 32 := 0xFFFFFFFF#32

/-- R224, R229: a sector that only set_active_slot has written since it was erased, with the active tuple `t` of page
`page`: the bitmaps have their low bits cleared and nothing else, and what comes after the active tuple is erased. -/
structure StoreAt (p : Params) (flash : Memory) (page t : Nat) : Prop where
  pageLt : page < cfgPages
  tupleLt : t < cfgTuples
  pb : storePb p flash = clearBelow erasedWord page
  tb : storeTb p flash page = clearBelow erasedWord t
  tuples : ∀ t', t < t' → t' < cfgTuples → storeSlotv p flash page t' = erasedWord
  pages : ∀ page', page < page' → page' < cfgPages →
    ∀ j < pageSize, Memory.read flash (cfgPageAddr p page' + j) = erasedByte

/-- R225: where the next update writes; the last tuple of the last page is followed by tuple 0 of page 0. -/
def storeNext (page t : Nat) : Nat × Nat :=
  let (p2, t2) := nextTuple page t
  if p2 = cfgPages then (0, t2) else (p2, t2)

/-- R225, R229: the flash at which the update erases the sector. -/
def storeErases (page t : Nat) : Bool := page + 1 = cfgPages && t + 1 = cfgTuples

/-! ### Sequences of instructions -/

/-- Instructions one after the other, up to the first that stops the model. -/
def execSeq : List Instr → State → Host.Outcome State Fault Refusal
  | [], s => .next s
  | i :: is, s =>
    match exec i s with
    | .next s => execSeq is s
    | .fault r => .fault r
    | .refused r => .refused r

/-- Steps of DISP one after the other. -/
def dispSteps (cs : List Choice) (s : State) : State := cs.foldl (fun s c => dispStep c s) s

end Sys2Proof.Machine
end

