-- ==== Sys2Proof/Certificates/Slice0/Obligations.lean ====
section
/-! DEFINITION. The statements about the machine. Reads of a memory go through `Memory.read`; addresses that are no
byte of a memory read the same before and after, so a statement need not leave them out. -/

open Sys2Proof Sys2Proof.Machine

/-! ### Encoding -/

/-- R85 to R90: no bit of an encoding is dropped, for every row of the table. -/
def Obligations.DecodeOfEncode : Prop :=
  ∀ i : Instr, i.wellFormed = true → decode i.context (encode i) = i

/-- R91, R93: in each context every 18-bit value is exactly one well-formed instruction, and its word is that value. -/
def Obligations.EncodeOfDecode : Prop :=
  ∀ (c : Context) (v : Addr),
    encode (decode c v) = v ∧ (decode c v).context = c ∧ (decode c v).wellFormed = true

/-- R86. -/
def Obligations.CommandWordCodec : Prop :=
  (∀ v : Addr, encodeCommand (opcodeOf v) (argOf v).toNat = v) ∧
  ∀ (op : BitVec 4) (arg : Nat),
    (encodeCommand op arg).toNat = (op.toNat <<< 14) ||| (arg &&& 0x3FFF) ∧
    encodeCommand op arg = encodeCommand op (arg % 2 ^ 14) ∧
    opcodeOf (encodeCommand op arg) = op ∧ (argOf (encodeCommand op arg)).toNat = arg &&& 0x3FFF

/-- R87, R167: the opcode map, by the match and mask of each row. -/
def Obligations.OpcodeMap : Prop :=
  ∀ v : Addr, let arg := v.extractLsb' 0 14
    (v &&& 0x3C000#18 = 0x00000#18 → decode .command v = .updateActiveSlot arg) ∧
    (v &&& 0x3C000#18 = 0x04000#18 → decode .command v = .writeStatusToSram arg) ∧
    (v &&& 0x3C000#18 = 0x08000#18 → decode .command v = .restorePageToSram arg) ∧
    (v &&& 0x3C000#18 = 0x0C000#18 → decode .command v = .copyPageHostToSram arg) ∧
    (v &&& 0x3C000#18 = 0x10000#18 → decode .command v = .copyPageFlashToSram arg) ∧
    (v &&& 0x3C000#18 = 0x14000#18 → decode .command v = .copyPageSramToFlash arg) ∧
    (v &&& 0x3C000#18 = 0x18000#18 → decode .command v = .eraseFlashSector arg) ∧
    (v &&& 0x3C000#18 = 0x1C000#18 → decode .command v = .reservedOp7 arg) ∧
    (v &&& 0x20000#18 = 0x20000#18 → decode .command v = .reservedOp8to15 (v.extractLsb' 14 4) arg)

/-- R84: the forwarded word carries the address in its low 18 bits and zeros above. -/
def Obligations.ForwardedWordCarriesAddress : Prop :=
  ∀ a : Addr, tokenOf (forwardedWord a) = a ∧ (forwardedWord a).toNat = a.toNat

/-- Words written out from the spec's encodings, one or more of each context. -/
def Obligations.WrittenOutWordsDecode : Prop :=
  decode .token 0b000000000010000010#18 = .magic0 ∧
  decode .token 0b000000010001001010#18 = .magic1 ∧
  decode .token 0b111111101001111111#18 = .magic2 ∧
  decode .token 0b000000000010000000#18 = .otherToken 0x00080 ∧
  decode .command 0b000000000000000011#18 = .updateActiveSlot 3 ∧
  decode .command 0b011000001010000101#18 = .eraseFlashSector 0x285 ∧
  decode .command 0b000000000010000010#18 = .updateActiveSlot 130 ∧
  decode .payload 0b111010101111001101#18 = .payload 3 0xABCD ∧
  decode .bus 0b111010101111001101#18 = .rd 0x3ABCD

/-! ### The step -/

/-- R161, R10: when DISP runs and a word is due, the step is exec of the instruction the word decodes to, on the state
without the word and without the environment's move; when HOST reads, it is exec of RD. -/
def Obligations.StepRunsDecodedInstruction : Prop :=
  (∀ (s : State) (c : Context) (v : FifoWord) (rest : List FifoWord) (moves : List Event),
    s.script = .run :: moves → s.context = some c → s.q = v :: rest →
    step s = exec (decode c (tokenOf v)) { s with script := moves, q := rest }) ∧
  ∀ (s : State) (a : Addr) (moves : List Event), s.script = .read a :: moves →
    step s = exec (.rd a) { s with script := moves }

/-- R91, R250, R253: nothing HOST, the words in Q or the flash hold stops the machine: every step, from every state, is
to a next state, a fault outcome of DISP included. -/
def Obligations.StepNeverStops : Prop :=
  ∀ s : State, ∃ t, step s = .next t

/-- R161, R168: run whole, an instruction of DISP is the DISP step that consumes its word, and then the steps of the
command to their end. -/
def Obligations.WholeInstrIsStartThenSettle : Prop :=
  ∀ (i : Instr) (s : State), s.context = some i.context → exec i s = .next (settle (startInstr i s))

/-- R180, R168: a command, or boot, run whole is made of single steps of DISP, whatever fails in it. -/
def Obligations.SettleIsMadeOfDispSteps : Prop :=
  ∀ s : State, ∃ choices : List Choice, dispSteps choices s = settle s

/-- R53, R181 (the byte order of a copy is not fixed): with no flash failure, every single step of DISP within boot or a
command leads to the same end of it. -/
def Obligations.ByteOrderDoesNotMatter : Prop :=
  ∀ (s : State) (c : Choice), MemoryInv s → noFlashFailure s →
    (∀ i due, s.dctl ≠ .hostCopy i due) → s.dctl ≠ .recv → settle (dispStep c s) = settle s

/-! ### The matcher and the tokens -/

/-- R173, R174, R175: which words are the three magic tokens, and what they do in every state of the matcher. -/
def Obligations.MagicTokensMoveMatcher : Prop :=
  (∀ v : Addr, (decode .token v = .magic0 ↔ v = 0x00082) ∧ (decode .token v = .magic1 ↔ v = 0x0044A) ∧
    (decode .token v = .magic2 ↔ v = 0x3FA7F)) ∧
  ∀ s : State,
    (s.matcher ≠ .armed →
      exec .magic0 s = .next { s with matcher := .s1 } ∧
      exec .magic1 s = .next { s with matcher := if s.matcher = .s1 then .s2 else .s0 } ∧
      exec .magic2 s = .next { s with matcher := if s.matcher = .s2 then .armed else .s0 }) ∧
    (s.matcher = .armed →
      exec .magic0 s = .next { s with matcher := .s0, dctl := .recv } ∧
      exec .magic1 s = .next { s with matcher := .s0, dctl := .recv } ∧
      exec .magic2 s = .next { s with matcher := .s0, dctl := .recv })

/-- R176, R166: any other token puts the matcher back to S0; in ARMED it is a command word. -/
def Obligations.OtherTokenResetsMatcher : Prop :=
  ∀ (s : State) (v : Addr), v ≠ 0x00082 → v ≠ 0x0044A → v ≠ 0x3FA7F →
    decode .token v = .otherToken v ∧
    (s.matcher ≠ .armed → exec (.otherToken v) s = .next { s with matcher := .s0 }) ∧
    (s.matcher = .armed → exec (.otherToken v) s = exec (decode .command v) s)

/-- R164, R166: whatever the matcher has seen, three magic words arm it and the next word is run as a command. -/
def Obligations.MagicSequenceDispatches : Prop :=
  ∀ (s : State) (x : Addr) (rest : List FifoWord) (moves : List Event),
    s.dctl = .recv → s.matcher ≠ .armed →
    s.q = [forwardedWord magicToken0, forwardedWord magicToken1, forwardedWord magicToken2, forwardedWord x] ++ rest →
    s.script = [.run, .run, .run, .run] ++ moves →
    Host.Core.run core 4 s = exec (decode .command x) { s with matcher := .armed, q := rest, script := moves }

/-- R163, R165 ("any other address sequence never triggers dispatch"): the matcher becomes ARMED only by the third
magic word, popped in S2. -/
def Obligations.OnlyMagic2InS2Arms : Prop :=
  ∀ s t : State, step s = .next t → t.matcher = .armed →
    s.matcher = .armed ∨
    (s.matcher = .s2 ∧ s.dctl = .recv ∧ ∃ v rest, s.q = v :: rest ∧ tokenOf v = magicToken2)

/-! ### Silent commands -/

/-- R253, R167, R182, R91: a reserved opcode, and UPDATE_ACTIVE_SLOT of a slot outside 1..7, are consumed without effect. -/
def Obligations.SilentCommandsHaveNoEffect : Prop :=
  ∀ (s : State) (op : BitVec 4) (arg : Arg),
    exec (.reservedOp7 arg) s = .next { s with matcher := .s0, dctl := .recv } ∧
    exec (.reservedOp8to15 op arg) s = .next { s with matcher := .s0, dctl := .recv } ∧
    (arg.toNat = 0 ∨ 8 ≤ arg.toNat → exec (.updateActiveSlot arg) s = .next { s with matcher := .s0, dctl := .recv })

/-! ### The config store -/

/-- R8, R232: the two bit operations of the store. -/
def Obligations.StoreBitOperations : Prop :=
  (∀ x : BitVec 32, (x = 0 → ctz32 x = 32) ∧
    (x ≠ 0 → x.getLsbD (ctz32 x) = true ∧ ∀ i < ctz32 x, x.getLsbD i = false)) ∧
  ∀ (x : BitVec 32) (k i : Nat), i < 32 → (clearBelow x k).getLsbD i = (decide (k ≤ i) && x.getLsbD i)

/-- R222, R223, R224, R64: which flash bytes the store's fields are and where the slots lie, in the spec's default layout;
and what the lookup answers: only the fields it reads must be readable, and where it reaches no tuple the slot is a free
value in 1..7. That it is free where a field it reads may not be read is the model's choice (log 9). -/
def Obligations.LookupAnswer : Prop :=
  (∀ (p : Params) (flash : Memory),
    let word := fun a => Memory.read flash (a + 3) ++ Memory.read flash (a + 2) ++ Memory.read flash (a + 1) ++ Memory.read flash a
    (p.cfgLayout = { pagesBitmap := 0, tuplesBitmap := 4, slotField := 8, tupleStride := 8 } →
      storePb p flash = word p.configSector ∧
      ∀ page, storeTb p flash page = word (p.configSector + 256 * page + 4) ∧
        ∀ t, storeSlotv p flash page t = word (p.configSector + 256 * page + 8 + 8 * t)) ∧
    (p.slotBases = [0x080000, 0x100000, 0x180000, 0x200000, 0x280000, 0x300000, 0x380000] →
      ∀ n, 1 ≤ n → n ≤ 7 → slotBase p n = n * 0x80000)) ∧
  ∀ s : State, let page := ctz32 (storePb s.params s.flash)
    let t := ctz32 (storeTb s.params s.flash page)
    let v := (storeSlotv s.params s.flash page t).toNat
    let readable := fun a => flashRangeOk s.params a 4
    1 ≤ (getActiveSlot s).1 ∧ (getActiveSlot s).1 ≤ 7 ∧
    (readable (pbAddr s.params) = true → page < 16 → readable (tbAddr s.params page) = true → t < 31 →
      readable (slotvAddr s.params page t) = true → getActiveSlot s = (if 1 ≤ v ∧ v ≤ 7 then v else 1, s)) ∧
    (readable (pbAddr s.params) = false ∨ 16 ≤ page ∨ readable (tbAddr s.params page) = false ∨ 31 ≤ t ∨
        readable (slotvAddr s.params page t) = false →
      getActiveSlot s = ((Config.freeSlot s.draws).val + 1, { s with draws := s.draws + 1 }))

/-- R223: on a freshly erased sector the lookup answers slot 1, whatever may not be read besides the three fields it reads;
and an erased sector is at its first tuple (R229). -/
def Obligations.ErasedSectorIsSlotOne : Prop :=
  ∀ (p : Params) (flash : Memory), cfgLayoutLegal p.cfgLayout = true →
    (∀ j < sectorSize, Memory.read flash (p.configSector + j) = erasedByte) →
    StoreAt p flash 0 0 ∧
    (flashRangeOk p (pbAddr p) 4 = true → flashRangeOk p (tbAddr p 0) 4 = true → flashRangeOk p (slotvAddr p 0 0) 4 = true →
      lookupSlot p flash = some 1)

/-- R225, R226, R229: the store update goes on to the next tuple, erasing the sector exactly when the last tuple of the last
page was the active one, leaves the rest of the flash alone, and the lookup then answers the slot. -/
def Obligations.StoreUpdateAdvances : Prop :=
  ∀ (s : State) (page t slot : Nat), cfgLayoutLegal s.params.cfgLayout = true →
    flashRangeOk s.params s.params.configSector sectorSize = true → noFlashFailure s →
    StoreAt s.params s.flash page t → validSlot slot = true →
    ∃ flash, runTasks [.storePages slot] s = .done { s with flash := flash } ∧
      StoreAt s.params flash (storeNext page t).1 (storeNext page t).2 ∧
      lookupSlot s.params flash = some slot ∧
      (∀ a, (a < s.params.configSector ∨ s.params.configSector + sectorSize ≤ a) →
        Memory.read flash a = Memory.read s.flash a) ∧
      (storeErases page t = false → ∀ page' t', page' < page ∨ (page' = page ∧ t' ≤ t) → t' < 31 →
        storeSlotv s.params flash page' t' = storeSlotv s.params s.flash page' t')

/-- R227, R257: an index out of range stops the update before any write of flash or image. -/
def Obligations.CorruptStoreFaults : Prop :=
  ∀ (s : State) (slot : Arg), validSlot slot.toNat = true →
    flashRangeOk s.params (pbAddr s.params) 4 = true → noFlashFailure s →
    let page := ctz32 (storePb s.params s.flash)
    let t := ctz32 (storeTb s.params s.flash page)
    (16 ≤ page → exec (.updateActiveSlot slot) s =
      .next { s with matcher := .s0, dctl := .faulted (.cfgCorrupt page) }) ∧
    (page < 16 → flashRangeOk s.params (tbAddr s.params page) 4 = true → 31 ≤ t → exec (.updateActiveSlot slot) s =
      .next { s with matcher := .s0, dctl := .faulted (.cfgCorrupt t) })

/-! ### The image commands -/

/-- R182, R181, R257: UPDATE_ACTIVE_SLOT with a slot of 1..7. It completes, whatever in-range tuple the store is at: the store is
updated, then the whole image is the slot's. A fault of the store update leaves the image as it was, and no reload takes
place; a slot region out of range (vector IC11), or a read of the reload that fails, leaves what the store update wrote.
That read n is of byte n is the whole run's order (log 7); a failure ahead stays ahead (log 8). -/
def Obligations.UpdateActiveSlotReloads : Prop :=
  ∀ (s : State) (slot : Arg), validSlot slot.toNat = true →
    let base := slotBase s.params slot.toNat
    let store := runTasks [.storePages slot.toNat] s
    (cfgLayoutLegal s.params.cfgLayout = true → flashRangeOk s.params s.params.configSector sectorSize = true →
      flashRangeOk s.params base romBytes = true → noFlashFailure s →
      ctz32 (storePb s.params s.flash) < 16 →
      ctz32 (storeTb s.params s.flash (ctz32 (storePb s.params s.flash))) < 31 →
      ∃ img flash, exec (.updateActiveSlot slot) s =
          .next { s with img := img, flash := flash, matcher := .s0, dctl := .recv } ∧
        store = .done { s with flash := flash } ∧
        ∀ b, Memory.read img b = if b < romBytes then Memory.read flash (base + b) else Memory.read s.img b) ∧
    (∀ u r, store = .stop u r → u.img = s.img ∧
      exec (.updateActiveSlot slot) s = .next { u with matcher := .s0, dctl := .faulted r }) ∧
    (flashRangeOk s.params (pbAddr s.params) 4 = false → exec (.updateActiveSlot slot) s =
      .next { s with matcher := .s0, dctl := .faulted (.flashRange (pbAddr s.params)) }) ∧
    (flashRangeOk s.params (pbAddr s.params) 4 = true → s.failAt = some 0 → exec (.updateActiveSlot slot) s =
      .next { s with matcher := .s0, dctl := .faulted (.flashFail .read (pbAddr s.params)) }) ∧
    ∀ u, store = .done u → u.img = s.img ∧
      (flashRangeOk s.params base romBytes = false →
        exec (.updateActiveSlot slot) s = .next { u with matcher := .s0, dctl := .faulted (.flashRange base) }) ∧
      ∀ n < romBytes, flashRangeOk s.params base romBytes = true → u.failAt = some n →
        ∃ img, exec (.updateActiveSlot slot) s = .next { u with
            img := img, failAt := some 0, matcher := .s0, dctl := .faulted (.flashFail .read (base + n)) } ∧
          ∀ b, Memory.read img b = if b < n then Memory.read u.flash (base + b) else Memory.read s.img b

/-- R183: after UPDATE_ACTIVE_SLOT(slot) the active slot is that slot and IMG is its flash image, for a store that only
set_active_slot has written. -/
def Obligations.SlotSwitchIsRemembered : Prop :=
  ∀ (s : State) (slot : Arg) (page t : Nat), validSlot slot.toNat = true → cfgLayoutLegal s.params.cfgLayout = true →
    flashRangeOk s.params s.params.configSector sectorSize = true →
    flashRangeOk s.params (slotBase s.params slot.toNat) romBytes = true → noFlashFailure s →
    StoreAt s.params s.flash page t →
    ∃ u, exec (.updateActiveSlot slot) s = .next u ∧ u.dctl = .recv ∧ getActiveSlot u = (slot.toNat, u) ∧
      StoreAt u.params u.flash (storeNext page t).1 (storeNext page t).2 ∧
      ∀ b < romBytes, Memory.read u.img b = Memory.read u.flash (slotBase u.params slot.toNat + b)

/-- R285: a slot switch persists: after it and a power cycle, boot serves the slot. -/
def Obligations.SlotSwitchSurvivesPowerCycle : Prop :=
  ∀ (s : State) (slot : Arg) (page t : Nat), validSlot slot.toNat = true → cfgLayoutLegal s.params.cfgLayout = true →
    flashRangeOk s.params s.params.configSector sectorSize = true →
    flashRangeOk s.params (slotBase s.params slot.toNat) romBytes = true → noFlashFailure s →
    StoreAt s.params s.flash page t →
    ∃ u, exec (.updateActiveSlot slot) s = .next u ∧
      let w := settle (powerCycle [] u)
      w.dctl = .recv ∧ w.run = true ∧ w.flash = u.flash ∧
      ∀ b < romBytes, Memory.read w.img b = Memory.read u.flash (slotBase s.params slot.toNat + b)

/-- R184, R56: WRITE_STATUS_TO_SRAM writes the ten bytes of the record and nothing else, and HOST reads it as five words. -/
def Obligations.WriteStatusPublishesRecord : Prop :=
  ∀ (s : State) (arg : Arg), let slot := (getActiveSlot s).1
    ∃ img, exec (.writeStatusToSram arg) s =
        .next { (getActiveSlot s).2 with img := img, matcher := .s0, dctl := .recv } ∧
      Memory.readList img 0 10 = [0x52, 0x50, 0x52, 0x4D, 10, s.params.fwMajor, s.params.fwMinor, s.params.fwPatch,
        s.params.flashSizeMb, BitVec.ofNat 8 slot] ∧
      (∀ b, 10 ≤ b → Memory.read img b = Memory.read s.img b) ∧
      busWord img 0 = 0x5250 ∧ busWord img 1 = 0x524D ∧ busWord img 2 = 0x0A#8 ++ s.params.fwMajor ∧
      busWord img 3 = s.params.fwMinor ++ s.params.fwPatch ∧
      busWord img 4 = s.params.flashSizeMb ++ BitVec.ofNat 8 slot

/-- R185, R67, R252: RESTORE_PAGE_TO_SRAM loads bytes 0..257 of the active slot and nothing else; of a slot that leaves the flash or
meets the firmware it faults and writes nothing; where read n of the load fails, bytes 0..n-1 are loaded and it faults.
That read n is of byte n is the whole run's order (log 7); a failure ahead stays ahead (log 8). -/
def Obligations.RestorePageReloads : Prop :=
  ∀ (s : State) (arg : Arg), let slot := (getActiveSlot s).1
    (noFlashFailure s → flashRangeOk s.params (slotBase s.params slot) 258 = true →
      ∃ img, exec (.restorePageToSram arg) s =
          .next { (getActiveSlot s).2 with img := img, matcher := .s0, dctl := .recv } ∧
        ∀ b, Memory.read img b =
          if b < 258 then Memory.read s.flash (slotBase s.params slot + b) else Memory.read s.img b) ∧
    (flashRangeOk s.params (slotBase s.params slot) 258 = false →
      exec (.restorePageToSram arg) s = .next { (getActiveSlot s).2 with
        matcher := .s0, dctl := .faulted (.flashRange (slotBase s.params slot)) }) ∧
    ∀ n < 258, flashRangeOk s.params (slotBase s.params slot) 258 = true → s.failAt = some n →
      ∃ img, exec (.restorePageToSram arg) s = .next { (getActiveSlot s).2 with
          img := img, failAt := some 0, matcher := .s0, dctl := .faulted (.flashFail .read (slotBase s.params slot + n)) } ∧
        ∀ b, Memory.read img b =
          if b < n then Memory.read s.flash (slotBase s.params slot + b) else Memory.read s.img b

/-- R166, R186: COPY_PAGE_HOST_TO_SRAM waits for payload word 0. -/
def Obligations.CopyPageHostWaitsForPayload : Prop :=
  ∀ (s : State) (arg : Arg),
    exec (.copyPageHostToSram arg) s = .next { s with matcher := .s0, dctl := .hostCopy 0 [] }

/-- R186, R89: PAYLOAD word i writes its two bytes (after those still due, log 11), the high one first, and DISP waits for the next
word, or for a command after word 127; MATCH is not touched. -/
def Obligations.PayloadWritesItsBytes : Prop :=
  ∀ (s : State) (i : Nat) (due : List Host.Cell) (ign : BitVec 2) (d : Half), s.dctl = .hostCopy i due →
    ∃ img, exec (.payload ign d) s =
        .next { s with img := img, dctl := if i + 1 < 128 then .hostCopy (i + 1) [] else .recv } ∧
      (∀ b, Memory.read img b =
        if b = 2 * i then d.extractLsb' 8 8 else if b = 2 * i + 1 then d.extractLsb' 0 8
        else Memory.read (Memory.writeCells s.img due) b) ∧
      (i < 2 ^ 18 → busWord img (BitVec.ofNat 18 i) = d)

/-- R92, R93: outside HOSTCOPY no word is a payload word, and PAYLOAD stops the model (log 16). -/
def Obligations.PayloadStopsOutsideHostCopy : Prop :=
  ∀ (s : State) (ign : BitVec 2) (d : Half), (∀ i due, s.dctl ≠ .hostCopy i due) →
    exec (.payload ign d) s = .fault .payloadOutsideHostCopy

/-- R186, R58: a whole page: 128 payload words become words 0..127 of the image, and the command ends. -/
def Obligations.HostPageArrives : Prop :=
  ∀ (s : State) (words : List (BitVec 2 × Half)), s.dctl = .hostCopy 0 [] → words.length = 128 →
    ∃ img, execSeq (words.map fun w => .payload w.1 w.2) s = .next { s with img := img, dctl := .recv } ∧
      (∀ i (h : i < words.length), busWord img (BitVec.ofNat 18 i) = words[i].2) ∧
      ∀ b, 256 ≤ b → Memory.read img b = Memory.read s.img b

/-! ### The flash commands -/

/-- R202, R200: COPY_PAGE_FLASH_TO_SRAM copies the page into bytes 0..255 and leaves the sentinel idle. -/
def Obligations.CopyPageFlashToSramCopies : Prop :=
  ∀ (s : State) (page : Arg), let a := s.params.pageOrigin + 256 * page.toNat
    noFlashFailure s → flashRangeOk s.params a 256 = true →
    ∃ img, exec (.copyPageFlashToSram page) s = .next { s with img := img, matcher := .s0, dctl := .recv } ∧
      ∀ b, Memory.read img b =
        if b < 256 then Memory.read s.flash (a + b) else if b < 258 then 0x00 else Memory.read s.img b

/-- R203, R66: COPY_PAGE_SRAM_TO_FLASH ANDs bytes 0..255 of the image into the page; of the image only the sentinel changes. -/
def Obligations.CopyPageSramToFlashPrograms : Prop :=
  ∀ (s : State) (page : Arg), let a := s.params.pageOrigin + 256 * page.toNat
    noFlashFailure s → flashRangeOk s.params a 256 = true →
    ∃ img flash, exec (.copyPageSramToFlash page) s =
        .next { s with img := img, flash := flash, matcher := .s0, dctl := .recv } ∧
      (∀ b, Memory.read img b = if b = 256 ∨ b = 257 then 0x00 else Memory.read s.img b) ∧
      ∀ x, Memory.read flash x =
        if a ≤ x ∧ x < a + 256 then Memory.read s.flash x &&& Memory.read s.img (x - a) else Memory.read s.flash x

/-- R204: ERASE_FLASH_SECTOR sets the sector's bytes to 0xFF; of the image only the sentinel changes. -/
def Obligations.EraseFlashSectorErases : Prop :=
  ∀ (s : State) (sector : Arg), let a := s.params.pageOrigin + 4096 * sector.toNat
    noFlashFailure s → flashRangeOk s.params a 4096 = true →
    ∃ img flash, exec (.eraseFlashSector sector) s =
        .next { s with img := img, flash := flash, matcher := .s0, dctl := .recv } ∧
      (∀ b, Memory.read img b = if b = 256 ∨ b = 257 then 0x00 else Memory.read s.img b) ∧
      ∀ x, Memory.read flash x = if a ≤ x ∧ x < a + 4096 then 0xFF else Memory.read s.flash x

/-- R205, R67, R257: a bracketed command whose range is no good faults after phase 0: the sentinel stays busy, nothing else is
written. -/
def Obligations.BracketedRangeFaultStaysBusy : Prop :=
  ∀ (s : State) (arg : Arg), let page := s.params.pageOrigin + 256 * arg.toNat
    let sector := s.params.pageOrigin + 4096 * arg.toNat
    let busy := Memory.writeCells s.img [(256, 0xFF), (257, 0xFF)]
    (flashRangeOk s.params page 256 = false →
      exec (.copyPageFlashToSram arg) s =
        .next { s with img := busy, matcher := .s0, dctl := .faulted (.flashRange page) } ∧
      exec (.copyPageSramToFlash arg) s =
        .next { s with img := busy, matcher := .s0, dctl := .faulted (.flashRange page) }) ∧
    (flashRangeOk s.params sector 4096 = false →
      exec (.eraseFlashSector arg) s =
        .next { s with img := busy, matcher := .s0, dctl := .faulted (.flashRange sector) })

/-- R205, R66, R252: a flash primitive that fails stops the command where it stands: sentinel busy, flash as it was. That a
failing program or erase changes no flash byte, and that a failure ahead stays ahead, is the model's reading (log 8); that
read n is of byte n is the whole run's order (log 7). -/
def Obligations.FlashFailureStaysBusy : Prop :=
  ∀ (s : State) (arg : Arg), let page := s.params.pageOrigin + 256 * arg.toNat
    let sector := s.params.pageOrigin + 4096 * arg.toNat
    let busy := Memory.writeCells s.img [(256, 0xFF), (257, 0xFF)]
    (flashRangeOk s.params page 256 = true → s.failAt = some 0 →
      exec (.copyPageSramToFlash arg) s =
        .next { s with img := busy, matcher := .s0, dctl := .faulted (.flashFail .program page) }) ∧
    (flashRangeOk s.params sector 4096 = true → s.failAt = some 0 →
      exec (.eraseFlashSector arg) s =
        .next { s with img := busy, matcher := .s0, dctl := .faulted (.flashFail .erase sector) }) ∧
    ∀ n < 256, flashRangeOk s.params page 256 = true → s.failAt = some n →
      ∃ img, exec (.copyPageFlashToSram arg) s = .next { s with
          img := img, failAt := some 0, matcher := .s0, dctl := .faulted (.flashFail .read (page + n)) } ∧
        ∀ b, Memory.read img b = if b < n then Memory.read s.flash (page + b) else Memory.read busy b

/-! ### Frames -/

/-- R266: no instruction of DISP touches RESP's registers, Q (beyond its own word, popped before), the parameters or
HOST's side. -/
def Obligations.DispInstrFrame : Prop :=
  ∀ (i : Instr) (s t : State), i.context ≠ .bus → exec i s = .next t → DispFrame s t

/-- R206, R62, R184 to R186: which image bytes each instruction of DISP may change, also where it faults. -/
def Obligations.ImageFrame : Prop :=
  ∀ s t : State,
    (∀ arg, exec (.writeStatusToSram arg) s = .next t → ∀ b, 10 ≤ b → Memory.read t.img b = Memory.read s.img b) ∧
    (∀ arg, exec (.restorePageToSram arg) s = .next t → ∀ b, 258 ≤ b → Memory.read t.img b = Memory.read s.img b) ∧
    (∀ page, exec (.copyPageFlashToSram page) s = .next t → ∀ b, 258 ≤ b → Memory.read t.img b = Memory.read s.img b) ∧
    (∀ page, exec (.copyPageSramToFlash page) s = .next t →
      ∀ b, b ≠ 256 → b ≠ 257 → Memory.read t.img b = Memory.read s.img b) ∧
    (∀ sector, exec (.eraseFlashSector sector) s = .next t →
      ∀ b, b ≠ 256 → b ≠ 257 → Memory.read t.img b = Memory.read s.img b) ∧
    (∀ slot, exec (.updateActiveSlot slot) s = .next t → ∀ b, romBytes ≤ b → Memory.read t.img b = Memory.read s.img b) ∧
    (∀ arg, exec (.copyPageHostToSram arg) s = .next t → t.img = s.img) ∧
    (∀ i due ign d, s.dctl = .hostCopy i due → exec (.payload ign d) s = .next t →
      ∀ b, (∀ c ∈ due, c.1 ≠ b) → b ≠ 2 * i → b ≠ 2 * i + 1 → Memory.read t.img b = Memory.read s.img b)

/-- R66, R68, R203, R204, R225: which flash bytes each instruction of DISP may change, also where it faults. -/
def Obligations.FlashFrame : Prop :=
  ∀ s t : State,
    (∀ page, exec (.copyPageSramToFlash page) s = .next t →
      ∀ x, (x < pageAddr s.params page ∨ pageAddr s.params page + 256 ≤ x) →
        Memory.read t.flash x = Memory.read s.flash x) ∧
    (∀ sector, exec (.eraseFlashSector sector) s = .next t →
      ∀ x, (x < sectorAddr s.params sector ∨ sectorAddr s.params sector + 4096 ≤ x) →
        Memory.read t.flash x = Memory.read s.flash x) ∧
    (∀ slot, cfgLayoutLegal s.params.cfgLayout = true → exec (.updateActiveSlot slot) s = .next t →
      ∀ x, (x < s.params.configSector ∨ s.params.configSector + 4096 ≤ x) →
        Memory.read t.flash x = Memory.read s.flash x) ∧
    (∀ arg, exec (.writeStatusToSram arg) s = .next t → t.flash = s.flash) ∧
    (∀ arg, exec (.restorePageToSram arg) s = .next t → t.flash = s.flash) ∧
    (∀ arg, exec (.copyPageHostToSram arg) s = .next t → t.flash = s.flash) ∧
    (∀ page, exec (.copyPageFlashToSram page) s = .next t → t.flash = s.flash) ∧
    (∀ ign d, exec (.payload ign d) s = .next t → t.flash = s.flash)

/-! ### RESP and HOST -/

/-- R116, R113 to R115, R29: the sample step. A qualifying sample drives the addressed word and forwards the first address of an
assertion, if Q has room; any other releases the data lines and keeps DOUT; before RUN there is no sample. The block's
output (R35, R83): pin data_base + i carries bit i of DOUT while DDIR = OUT, and no pin is driven otherwise. -/
def Obligations.SampleStep : Prop :=
  ∀ s : State, let b := snapshot s
    dataLines s = (if s.ddir = .output then some s.dout else none) ∧
    (∀ i < 16, dataPin s (s.params.pins.dataBase + i) = if s.ddir = .output then some (s.dout.getLsbD i) else none) ∧
    (∀ pin, pin < s.params.pins.dataBase ∨ s.params.pins.dataBase + 16 ≤ pin → dataPin s pin = none) ∧
    (s.run = true → (b.oe && (b.ce || !s.params.ceQualifies)) = true →
      respStep s = { s with
        dout := Memory.read s.img (2 * b.addr.toNat) ++ Memory.read s.img (2 * b.addr.toNat + 1)
        ddir := .output, trig := true, sampled := true
        q := if s.trig = false ∧ s.q.length < s.params.fifoDepth then s.q ++ [b.addr.setWidth 32] else s.q }) ∧
    (s.run = true → (b.oe && (b.ce || !s.params.ceQualifies)) = false →
      respStep s = { s with ddir := .input, trig := false, sampled := false }) ∧
    (s.run = false → respStep s = s)

/-- R121, R118: RD under HOST's duties. HOST reads the addressed word; the address is forwarded if the edge flag is clear and Q
has room; then the lines are released, and the pins carry the same address with OE and CE deasserted. -/
def Obligations.ReadTransaction : Prop :=
  ∀ (s : State) (a : Addr), s.run = true → linesDistinct s.params s.layout = true →
    ∃ pins, snapshotOf s.params s.layout pins = { oe := false, ce := false, addr := a } ∧
      pinLevel pins s.params.pins.strap = pinLevel s.pins s.params.pins.strap ∧
      exec (.rd a) s = .next { s with
        pins := pins
        dout := busWord s.img a, ddir := .input, trig := false, sampled := false
        latched := s.latched ++ [busWord s.img a]
        q := if s.trig = false ∧ s.q.length < s.params.fifoDepth then s.q ++ [forwardedWord a] else s.q }

/-- R284, R120: RD before RUN reads a free value and forwards nothing. -/
def Obligations.ReadBeforeRun : Prop :=
  ∀ (s : State) (a : Addr), s.run = false → s.ddir = .input → linesDistinct s.params s.layout = true →
    ∃ pins, snapshotOf s.params s.layout pins = { oe := false, ce := false, addr := a } ∧
      exec (.rd a) s = .next { s with
        pins := pins, sampled := false
        latched := s.latched ++ [Config.freeBus s.draws], draws := s.draws + 1 }

/-- R114, R122, R297: within one assertion only the first sample forwards, whatever HOST does with the address. -/
def Obligations.OneForwardPerAssertion : Prop :=
  ∀ (s : State) (levels : Nat), s.run = true → qualifying s.params (snapshot s) = true →
    qualifying s.params (snapshot (hostDrive levels (respStep s))) = true →
    (respStep (hostDrive levels (respStep s))).q = (respStep s).q

/-- R120, R123: a latch with no qualifying sample in the same assertion never reads the stale DOUT: the value is free. -/
def Obligations.LatchAfterReassertionIsFree : Prop :=
  ∀ (s : State) (low high : Nat), (snapshot (hostDrive low s)).oe = false →
    let t := hostDrive high (hostDrive low s)
    hostLatch t = { t with latched := s.latched ++ [Config.freeBus s.draws], draws := s.draws + 1 }

/-- R81, R82: the pin of each address bit, in both layouts. -/
def Obligations.AddressPins : Prop :=
  ∀ (p : Params) (pins j : Nat), j < 18 →
    (pinsAddr p .contiguous pins).getLsbD j = pins.testBit (p.pins.addrBase + j) ∧
    (p.splitBit = 17 → (pinsAddr p .split pins).getLsbD j =
      pins.testBit (if j = 17 then p.pins.splitPin else p.pins.addrBase + j)) ∧
    (pinsAddr p .split pins).getLsbD j = pins.testBit
      (if j = p.splitBit then p.pins.splitPin
       else if j < p.splitBit then p.pins.addrBase + j else p.pins.addrBase + (j - 1))

/-- R80 to R83: the lines HOST drives are the lines RESP samples. -/
def Obligations.DrivenLinesAreSampled : Prop :=
  ∀ (p : Params) (l : Layout) (b : Snapshot) (pins : Nat), linesDistinct p l = true →
    snapshotOf p l (driveLines p l b pins) = b

/-! ### Torn updates -/

/-- R53, R60, R70: within a copy each image byte is, after any step of DISP, its old value or the flash byte that goes there;
and any single byte of the copy can be the next one to take effect. -/
def Obligations.CopyIsTornByteByByte : Prop :=
  ∀ (s : State) (op : Op) (arg : Arg) (segs : List Segment) (rest : List Task),
    s.dctl = .exec op arg (.copy segs :: rest) →
    (∀ (c : Choice) (b : Nat), Memory.read (dispStep c s).img b = Memory.read s.img b ∨
      ∃ g ∈ segs, g.dst ≤ b ∧ b < g.dst + g.len ∧
        Memory.read (dispStep c s).img b = Memory.read s.flash (g.src + (b - g.dst))) ∧
    (noFlashFailure s → ∀ g ∈ segs, ∀ b, g.dst ≤ b → b < g.dst + g.len →
      ∃ c : Choice, ∀ x, Memory.read (dispStep c s).img x =
        if x = b then Memory.read s.flash (g.src + (b - g.dst)) else Memory.read s.img x)

/-! ### Boot, reset and faults -/

/-- R280, R285, R231: a power cycle from any state gives the values the spec gives for reset and keeps FLASH, but for the bytes
that an interrupted flash primitive was writing. -/
def Obligations.PowerCycleResets : Prop :=
  ∀ (s : State) (torn : List Byte), let t := powerCycle torn s
    t.q = [] ∧ t.trig = false ∧ t.ddir = .input ∧ t.run = false ∧ t.matcher = .s0 ∧ t.dctl = .boot bootTasks ∧
    t.params = s.params ∧ (writingRange s = none → t.flash = s.flash) ∧
    ∀ x, (∀ a n, writingRange s = some (a, n) → x < a ∨ a + n ≤ x) → Memory.read t.flash x = Memory.read s.flash x

/-- R281, R25, R283: boot, from whatever IMG and DOUT power-on left, samples the strap, loads the active slot whole, starts RESP
and waits for words; a load of a slot that leaves the flash or meets the firmware, or a read of the load that fails, faults
and RUN stays 0. That read n is of byte n is the whole run's order (log 7); a failure ahead stays ahead (log 8). -/
def Obligations.BootLoadsActiveSlot : Prop :=
  ∀ s : State, let slot := (getActiveSlot s).1
    let base := slotBase s.params slot
    let layout : Layout := if pinLevel s.pins s.params.pins.strap = s.params.strapSplitLevel then .split else .contiguous
    s.dctl = .boot bootTasks →
    (noFlashFailure s → flashRangeOk s.params base romBytes = true →
      ∃ img, settle s = { (getActiveSlot s).2 with img := img, run := true, dctl := .recv, layout := layout } ∧
        ∀ b < romBytes, Memory.read img b = Memory.read s.flash (base + b)) ∧
    (s.run = false →
      (flashRangeOk s.params base romBytes = false →
        settle s = { (getActiveSlot s).2 with run := false, layout := layout, dctl := .faulted (.flashRange base) }) ∧
      ∀ n < romBytes, flashRangeOk s.params base romBytes = true → s.failAt = some n →
        ∃ img, settle s = { (getActiveSlot s).2 with
            img := img, failAt := some 0, run := false, layout := layout, dctl := .faulted (.flashFail .read (base + n)) } ∧
          ∀ b, Memory.read img b = if b < n then Memory.read s.flash (base + b) else Memory.read s.img b)

/-- R252, R262: only a power cycle leaves FAULTED, and until then DISP writes nothing and pops nothing. -/
def Obligations.OnlyPowerCycleLeavesFaulted : Prop :=
  ∀ (s t : State) (r : FaultReason), s.dctl = .faulted r → step s = .next t →
    (∀ torn, (nextEvent s).1 ≠ .powerCycle torn) →
    t.dctl = .faulted r ∧ t.img = s.img ∧ t.flash = s.flash ∧ t.matcher = s.matcher ∧ s.q <+: t.q

/-! ### Whole-machine rules -/

/-- R23, R32, R69 item 6, R75: only a move of DISP (or a power cycle) changes IMG or FLASH. -/
def Obligations.OnlyDispWritesMemories : Prop :=
  ∀ s t : State, step s = .next t → (∀ c, (nextEvent s).1 ≠ .disp c) → (nextEvent s).1 ≠ .run →
    (∀ torn, (nextEvent s).1 ≠ .powerCycle torn) →
    t.img = s.img ∧ t.flash = s.flash ∧ t.matcher = s.matcher ∧ t.dctl = s.dctl

/-- R25, R29, R41: the parameters never change; LAYOUT and RUN change only in BOOT or by a power cycle. -/
def Obligations.BootAloneSetsLayoutAndRun : Prop :=
  ∀ s t : State, step s = .next t →
    t.params = s.params ∧
    (ControlInv s → (∀ todo, s.dctl ≠ .boot todo) → (∀ torn, (nextEvent s).1 ≠ .powerCycle torn) →
      t.run = s.run ∧ t.layout = s.layout) ∧
    (ControlInv s → s.run = true → (∀ torn, (nextEvent s).1 ≠ .powerCycle torn) → t.run = true)

/-- R144, R141, R142: a step pops the oldest word, or appends one address where there is room, or leaves Q alone; only a power
cycle empties it. -/
def Obligations.QueueChangesByOneWord : Prop :=
  ∀ s t : State, step s = .next t → (∀ torn, (nextEvent s).1 ≠ .powerCycle torn) →
    t.q = s.q ∨ (∃ v, s.q = v :: t.q) ∨
    ∃ a : Addr, s.q.length < s.params.fifoDepth ∧ t.q = s.q ++ [forwardedWord a]

/-- R140, R84: every step keeps the bound of Q and the form of its words. -/
def Obligations.FifoInvKept : Prop :=
  ∀ s t : State, FifoInv s → step s = .next t → FifoInv t

/-- R50, R53, R67: every step keeps the memories canonical and inside their address spaces. -/
def Obligations.MemoryInvKept : Prop :=
  ∀ s t : State, MemoryInv s → step s = .next t → MemoryInv t

/-- R27, R29, R113 to R115: every step keeps the data lines driven exactly while TRIG is set, and RESP idle before RUN. -/
def Obligations.LinesInvKept : Prop :=
  ∀ s t : State, LinesInv s → step s = .next t → LinesInv t

/-- R281, R166, R186: every step keeps RUN, MATCH and DCTL in step with each other. -/
def Obligations.ControlInvKept : Prop :=
  ∀ s t : State, ControlInv s → step s = .next t → ControlInv t

/-- R200, R69 item 1: every step keeps the sentinel as the phase of the bracketed command says. -/
def Obligations.SentinelInvKept : Prop :=
  ∀ s t : State, SentinelInv s → step s = .next t → SentinelInv t

/-- R201: within the phases a poll of the sentinel reads nonzero once a byte of phase 0 has landed and until the last byte of phase
2 has; all phases done, it reads zero. -/
def Obligations.SentinelPolls : Prop :=
  ∀ (todo : List Task) (img : Memory),
    (∀ cells rest, todo = .bytes cells :: rest → cells.length < 2 → phase0 todo img → busWord img sentinelAddr ≠ 0) ∧
    (phase1 todo img → busWord img sentinelAddr = 0xFFFF) ∧
    (phase2 todo img → todo ≠ [.bytes []] → busWord img sentinelAddr ≠ 0) ∧
    (phase3 todo img → busWord img sentinelAddr = 0)

/-- The invariants hold after power-on with a canonical flash inside its size, for every configuration; State.reset is
one such state. -/
def Obligations.ResetMeetsInvariants : Prop :=
  (∀ (p : Params) (flash : Memory) (pins : Nat), Memory.wf flash = true → Memory.below flash (flashSize p) = true →
    let s := State.powerOn p flash pins
    MemoryInv s ∧ FifoInv s ∧ LinesInv s ∧ ControlInv s ∧ SentinelInv s) ∧
  State.reset = State.powerOn exampleParams [] restPins

/-- R305, R88, R118: four read transactions, each consumed before the next, send a command: the fourth step of DISP is
exec of it, with both memories as they were. The schedule meets the premises HP-QUIET, HP-PACE and HP-SETTLE of R307. -/
def Obligations.FourReadsSendACommand : Prop :=
  ∀ (s : State) (op : BitVec 4) (arg : Nat) (moves : List Event),
    s.run = true → s.dctl = .recv → s.matcher = .s0 → s.q = [] → s.trig = false →
    1 ≤ s.params.fifoDepth → linesDistinct s.params s.layout = true →
    s.script = pacedScript (hostProgram [.cmd op arg]) ++ moves →
    ∃ t, Host.Core.run core 7 s = .next t ∧ t.img = s.img ∧ t.flash = s.flash ∧ t.matcher = .armed ∧
      t.q = [forwardedWord (encodeCommand op arg)] ∧ t.script = .run :: moves ∧
      Host.Core.run core 8 s = exec (decode .command (encodeCommand op arg)) { t with q := [], script := moves } ∧
      HpQuiet (HostLine.cmd op arg).listed 7 s ∧ HpPace (HostLine.cmd op arg).listed 7 s ∧
      HpSettle (HostLine.cmd op arg).listed 7 s
end

