-- ==== Sys2Proof/Laws/Memory.lean ====
section
/-! SUPPORT. What the memory operations do: one read law per operation, with no hypothesis on the memory, and the canonical
form that every operation keeps. -/

namespace Sys2Proof.Machine

/-! ### Read laws -/

@[simp] theorem Memory.read_nil (a : Nat) : Memory.read [] a = erasedByte := rfl

theorem Memory.read_cons (k : Nat) (b : Byte) (m : Memory) (a : Nat) :
    Memory.read ((k, b) :: m) a = if k = a then b else Memory.read m a := rfl

/-- A byte no cell lists reads as the erased byte. -/
theorem Memory.read_of_not_listed {m : Memory} {a : Nat} (h : ∀ c ∈ m, c.1 ≠ a) : Memory.read m a = erasedByte := by
  induction m with
  | nil => rfl
  | cons c m ih =>
    obtain ⟨k, b⟩ := c
    rw [Memory.read_cons, if_neg (h (k, b) (by simp)), ih fun c hc => h c (by simp [hc])]

/-- Two memories one after the other: the first that lists the address answers. -/
theorem Memory.read_append (m n : Memory) (a : Nat) :
    Memory.read (m ++ n) a = if m.any (fun c => c.1 = a) then Memory.read m a else Memory.read n a := by
  induction m with
  | nil => simp
  | cons c m ih =>
    obtain ⟨k, b⟩ := c
    by_cases h : k = a <;> simp [Memory.read_cons, ih, h]

/-- Leaving out cells by their address keeps the others' bytes. -/
theorem Memory.read_filter (m : Memory) (f : Nat → Bool) (a : Nat) :
    Memory.read (m.filter fun c => f c.1) a = if f a then Memory.read m a else erasedByte := by
  induction m with
  | nil => simp
  | cons c m ih =>
    obtain ⟨k, b⟩ := c
    by_cases hk : f k <;> by_cases ha : k = a <;> simp_all [Memory.read_cons]

/-- An inserted cell answers for its address, if no cell did before. -/
theorem Memory.read_insert {m : Memory} {a : Nat} (h : ∀ c ∈ m, c.1 ≠ a) (b : Byte) (x : Nat) :
    Memory.read (Memory.insert m a b) x = if x = a then b else Memory.read m x := by
  induction m with
  | nil =>
    rw [Memory.insert, Memory.read_cons]
    by_cases hx : x = a
    · rw [if_pos hx.symm, if_pos hx]
    · rw [if_neg (Ne.symm hx), if_neg hx]
  | cons c m ih =>
    obtain ⟨k, v⟩ := c
    have hk : k ≠ a := h (k, v) (by simp)
    have ih := ih fun c hc => h c (by simp [hc])
    simp only [Memory.insert]
    split
    · rw [Memory.read_cons]
      by_cases hx : x = a
      · rw [if_pos hx.symm, if_pos hx]
      · rw [if_neg (Ne.symm hx), if_neg hx]
    · rw [Memory.read_cons, Memory.read_cons, ih]
      by_cases hx : x = a
      · rw [if_neg (hx ▸ hk), if_pos hx, if_pos hx]
      · rw [if_neg hx, if_neg hx]

/-- A read after a write of one byte. -/
theorem Memory.read_write (m : Memory) (a : Nat) (b : Byte) (x : Nat) :
    Memory.read (Memory.write m a b) x = if x = a then b else Memory.read m x := by
  have hf := Memory.read_filter m (fun k => k != a) x
  have hne : ∀ c ∈ m.filter (fun c => c.1 != a), c.1 ≠ a := by simp
  unfold Memory.write
  by_cases hb : b = erasedByte
  · by_cases hx : x = a <;> simp_all
  · by_cases hx : x = a <;> simp_all [Memory.read_insert hne]

/-- A read after bytes written one after the other, elsewhere. -/
theorem Memory.read_writeCells_of_not_mem (cs : List Host.Cell) (m : Memory) (x : Nat) (h : ∀ c ∈ cs, c.1 ≠ x) :
    Memory.read (Memory.writeCells m cs) x = Memory.read m x := by
  induction cs generalizing m with
  | nil => rfl
  | cons c cs ih =>
    obtain ⟨a, b⟩ := c
    rw [Memory.writeCells, ih _ fun c hc => h c (by simp [hc]), Memory.read_write,
      if_neg fun e => h (a, b) (by simp) e.symm]

/-- A read after bytes written at addresses that all differ. -/
theorem Memory.read_writeCells_of_mem {cs : List Host.Cell} (m : Memory) {x : Nat} {b : Byte}
    (hn : (cs.map Prod.fst).Nodup) (h : (x, b) ∈ cs) : Memory.read (Memory.writeCells m cs) x = b := by
  induction cs generalizing m with
  | nil => cases h
  | cons c cs ih =>
    obtain ⟨a, v⟩ := c
    simp only [List.map_cons, List.nodup_cons] at hn
    rcases List.mem_cons.1 h with h | h
    · cases h
      rw [Memory.writeCells, Memory.read_writeCells_of_not_mem, Memory.read_write, if_pos rfl]
      intro c hc e
      exact hn.1 (List.mem_map.2 ⟨c, hc, e⟩)
    · exact ih _ hn.2 h

@[simp] theorem Memory.length_readList (m : Memory) (a n : Nat) : (Memory.readList m a n).length = n := by
  simp [Memory.readList]

/-- A byte of a list of bytes read. -/
theorem Memory.getD_readList (m : Memory) (a n j : Nat) (h : j < n) (d : Byte) :
    (Memory.readList m a n).getD j d = Memory.read m (a + j) := by
  simp [Memory.readList, List.getD_eq_getElem?_getD, h]

/-- A read after a program: the AND inside, unchanged outside. -/
theorem Memory.read_program (bs : List Byte) (m : Memory) (a x : Nat) :
    Memory.read (Memory.program m a bs) x =
      if a ≤ x ∧ x < a + bs.length then Memory.read m x &&& bs.getD (x - a) erasedByte else Memory.read m x := by
  induction bs generalizing m a with
  | nil =>
    rw [if_neg (by simp), Memory.program]
  | cons b bs ih =>
    rw [Memory.program, ih, Memory.read_write]
    by_cases hx : x = a
    · subst hx; simp
    · by_cases h : a + 1 ≤ x ∧ x < a + 1 + bs.length
      · have h' : a ≤ x ∧ x < a + (b :: bs).length := by simp; omega
        have e : x - a = (x - (a + 1)) + 1 := by omega
        rw [if_pos h, if_pos h', if_neg hx, e]
        simp
      · have h' : ¬(a ≤ x ∧ x < a + (b :: bs).length) := by simp; omega
        rw [if_neg h, if_neg h', if_neg hx]

/-- A read after bytes written from an address on. -/
theorem Memory.read_overwrite (bs : List Byte) (m : Memory) (a x : Nat) :
    Memory.read (Memory.overwrite m a bs) x =
      if a ≤ x ∧ x < a + bs.length then bs.getD (x - a) erasedByte else Memory.read m x := by
  induction bs generalizing m a with
  | nil =>
    rw [if_neg (by simp), Memory.overwrite]
  | cons b bs ih =>
    rw [Memory.overwrite, ih, Memory.read_write]
    by_cases hx : x = a
    · subst hx; simp
    · by_cases h : a + 1 ≤ x ∧ x < a + 1 + bs.length
      · have h' : a ≤ x ∧ x < a + (b :: bs).length := by simp; omega
        have e : x - a = (x - (a + 1)) + 1 := by omega
        rw [if_pos h, if_pos h', e]
        simp
      · have h' : ¬(a ≤ x ∧ x < a + (b :: bs).length) := by simp; omega
        rw [if_neg h, if_neg h', if_neg hx]

/-- A read after an erase. -/
theorem Memory.read_erase (m : Memory) (a n x : Nat) :
    Memory.read (Memory.erase m a n) x = if a ≤ x ∧ x < a + n then erasedByte else Memory.read m x := by
  have h := Memory.read_filter m (fun k => decide (k < a) || decide (a + n ≤ k)) x
  unfold Memory.erase
  rw [h]
  by_cases hx : a ≤ x ∧ x < a + n
  · rw [if_pos hx, if_neg]; simp; omega
  · rw [if_neg hx, if_pos]; simp; omega

/-- The copied cells alone. -/
theorem Memory.read_shift (src : Memory) (d a n x : Nat) :
    Memory.read ((src.filter fun c => a ≤ c.1 && c.1 < a + n).map fun c => (c.1 - a + d, c.2)) x =
      if d ≤ x ∧ x < d + n then Memory.read src (a + (x - d)) else erasedByte := by
  induction src with
  | nil => simp
  | cons c src ih =>
    obtain ⟨k, b⟩ := c
    simp only [List.filter_cons]
    split
    · rename_i hk
      simp at hk
      simp only [List.map_cons, Memory.read_cons, ih]
      by_cases hx : d ≤ x ∧ x < d + n
      · by_cases e : k - a + d = x
        · have : k = a + (x - d) := by omega
          rw [if_pos e, if_pos hx, if_pos this]
        · have : ¬k = a + (x - d) := by omega
          rw [if_neg e, if_pos hx, if_pos hx, if_neg this]
      · have e : ¬(k - a + d = x) := by omega
        rw [if_neg e, if_neg hx, if_neg hx]
    · rename_i hk
      simp at hk
      rw [ih, Memory.read_cons]
      by_cases hx : d ≤ x ∧ x < d + n
      · have : ¬k = a + (x - d) := by omega
        rw [if_pos hx, if_pos hx, if_neg this]
      · rw [if_neg hx, if_neg hx]

/-- A read after a copy: the source's bytes inside, unchanged outside. -/
theorem Memory.read_copy (dst : Memory) (d : Nat) (src : Memory) (a n x : Nat) :
    Memory.read (Memory.copy dst d src a n) x =
      if d ≤ x ∧ x < d + n then Memory.read src (a + (x - d)) else Memory.read dst x := by
  have lo := Memory.read_filter dst (fun k => decide (k < d)) x
  have hi := Memory.read_filter dst (fun k => decide (d + n ≤ k)) x
  have mid := Memory.read_shift src d a n x
  unfold Memory.copy
  rw [List.append_assoc, Memory.read_append]
  by_cases hlo : x < d
  · have hx : ¬(d ≤ x ∧ x < d + n) := by omega
    rw [if_neg hx]
    split
    · rw [lo]; simp [hlo]
    · rename_i hnot
      have : ∀ c ∈ dst, c.1 ≠ x := by
        intro c hc e
        apply hnot
        simp only [List.any_filter, List.any_eq_true]
        exact ⟨c, hc, by simp [e, hlo]⟩
      rw [Memory.read_of_not_listed this, Memory.read_append]
      split
      · rw [mid, if_neg hx]
      · rw [hi]; simp; intro h; omega
  · have hfalse : (dst.filter fun c => decide (c.1 < d)).any (fun c => decide (c.1 = x)) = false := by
      rw [List.any_eq_false]
      intro c hc
      simp only [List.mem_filter, decide_eq_true_eq] at hc
      simp only [decide_eq_true_eq]
      omega
    rw [hfalse, if_neg (by simp), Memory.read_append]
    by_cases hx : d ≤ x ∧ x < d + n
    · rw [if_pos hx]
      split
      · rw [mid, if_pos hx]
      · rename_i hnot
        rw [hi]
        have h2 : decide (d + n ≤ x) = false := by simp; omega
        rw [h2, if_neg (by simp), Memory.read_of_not_listed]
        intro c hc e
        apply hnot
        simp only [List.any_map, List.any_filter, List.any_eq_true]
        exact ⟨c, hc, by simp; omega⟩
    · rw [if_neg hx]
      have hmid : ((src.filter fun c => a ≤ c.1 && c.1 < a + n).map fun c => (c.1 - a + d, c.2)).any
          (fun c => decide (c.1 = x)) = false := by
        rw [List.any_eq_false]
        intro c hc
        simp only [List.mem_map, List.mem_filter, Bool.and_eq_true, decide_eq_true_eq] at hc
        obtain ⟨c', ⟨_, h1, h2⟩, rfl⟩ := hc
        simp only [decide_eq_true_eq]
        omega
      have h3 : decide (d + n ≤ x) = true := by simp; omega
      rw [hmid, if_neg (by simp), hi, if_pos h3]

/-! ### The canonical form -/

theorem Memory.wf_iff (m : Memory) :
    Memory.wf m = true ↔ m.Pairwise (fun x y => x.1 < y.1) ∧ ∀ c ∈ m, c.2 ≠ erasedByte := by
  simp [Memory.wf]

theorem Memory.wf_nil : Memory.wf [] = true := by decide

theorem Memory.below_iff (m : Memory) (n : Nat) : Memory.below m n = true ↔ ∀ c ∈ m, c.1 < n := by
  simp [Memory.below]

/-- In a canonical memory a cell is listed exactly where the read differs from the erased byte. -/
theorem Memory.mem_iff_read {m : Memory} (h : Memory.wf m = true) (a : Nat) (b : Byte) :
    (a, b) ∈ m ↔ Memory.read m a = b ∧ b ≠ erasedByte := by
  rw [Memory.wf_iff] at h
  obtain ⟨hp, hn⟩ := h
  induction m with
  | nil =>
    simp only [List.not_mem_nil, Memory.read_nil, false_iff, not_and, not_not]
    exact fun e => e.symm
  | cons c m ih =>
    obtain ⟨k, v⟩ := c
    rw [List.pairwise_cons] at hp
    have ih := ih hp.2 fun c hc => hn c (by simp [hc])
    rw [Memory.read_cons, List.mem_cons, ih]
    have hv : v ≠ erasedByte := hn (k, v) (by simp)
    by_cases hk : k = a
    · subst hk
      have : Memory.read m k = erasedByte := Memory.read_of_not_listed fun c hc e => by
        have := hp.1 c hc; simp at this; omega
      rw [this, if_pos rfl]
      constructor
      · rintro (h | ⟨h, h'⟩)
        · simp at h; exact ⟨h.symm, h ▸ hv⟩
        · exact absurd h.symm h'
      · rintro ⟨h, _⟩; left; simp [h]
    · rw [if_neg hk]
      constructor
      · rintro (h | h)
        · simp at h; exact absurd h.1.symm hk
        · exact h
      · exact Or.inr

/-- Canonical memories that read the same are the same. -/
theorem Memory.ext_of_wf {m n : Memory} (hm : Memory.wf m = true) (hn : Memory.wf n = true)
    (h : ∀ a, Memory.read m a = Memory.read n a) : m = n := by
  have hmem : ∀ c, c ∈ m ↔ c ∈ n := by
    rintro ⟨a, b⟩
    rw [Memory.mem_iff_read hm, Memory.mem_iff_read hn, h]
  rw [Memory.wf_iff] at hm hn
  exact List.Perm.eq_of_pairwise (le := fun x y => x.1 < y.1)
    (fun a b _ _ h1 h2 => absurd h1 (by omega)) hm.1 hn.1
    ((List.perm_ext_iff_of_nodup (hm.1.imp fun h e => by rw [e] at h; omega)
      (hn.1.imp fun h e => by rw [e] at h; omega)).2 hmem)

theorem Memory.mem_insert {m : Memory} {a : Nat} {b : Byte} {c : Host.Cell} (h : c ∈ Memory.insert m a b) :
    c = (a, b) ∨ c ∈ m := by
  induction m with
  | nil => simpa [Memory.insert] using h
  | cons d m ih =>
    obtain ⟨k, v⟩ := d
    simp only [Memory.insert] at h
    split at h
    · simpa using h
    · rcases List.mem_cons.1 h with h | h
      · right; simp [h]
      · rcases ih h with h | h
        · exact .inl h
        · right; simp [h]

theorem Memory.pairwise_insert {m : Memory} {a : Nat} (b : Byte) (hp : m.Pairwise fun x y => x.1 < y.1)
    (hne : ∀ c ∈ m, c.1 ≠ a) : (Memory.insert m a b).Pairwise fun x y => x.1 < y.1 := by
  induction m with
  | nil => simp [Memory.insert]
  | cons d m ih =>
    obtain ⟨k, v⟩ := d
    rw [List.pairwise_cons] at hp
    have hk : k ≠ a := hne (k, v) (by simp)
    simp only [Memory.insert]
    split
    · rename_i hlt
      refine List.pairwise_cons.2 ⟨?_, List.pairwise_cons.2 hp⟩
      intro c hc
      rcases List.mem_cons.1 hc with h | h
      · subst h; exact hlt
      · have := hp.1 c h; simp at this; simp; omega
    · refine List.pairwise_cons.2 ⟨?_, ih hp.2 fun c hc => hne c (by simp [hc])⟩
      intro c hc
      rcases Memory.mem_insert hc with h | h
      · subst h; simp; omega
      · exact hp.1 c h

theorem Memory.wf_filter {m : Memory} (h : Memory.wf m = true) (f : Host.Cell → Bool) :
    Memory.wf (m.filter f) = true := by
  rw [Memory.wf_iff] at h ⊢
  exact ⟨h.1.filter _, fun c hc => h.2 c (List.mem_of_mem_filter hc)⟩

theorem Memory.wf_write {m : Memory} (h : Memory.wf m = true) (a : Nat) (b : Byte) :
    Memory.wf (Memory.write m a b) = true := by
  unfold Memory.write
  have hf := Memory.wf_filter h fun c => c.1 != a
  by_cases hb : b = erasedByte
  · simpa [hb] using hf
  · rw [Memory.wf_iff] at hf
    simp only [hb, if_false]
    rw [Memory.wf_iff]
    refine ⟨Memory.pairwise_insert b hf.1 (by simp), fun c hc => ?_⟩
    rcases Memory.mem_insert hc with h | h
    · subst h; exact hb
    · exact hf.2 c h

theorem Memory.wf_writeCells (cs : List Host.Cell) {m : Memory} (h : Memory.wf m = true) :
    Memory.wf (Memory.writeCells m cs) = true := by
  induction cs generalizing m with
  | nil => exact h
  | cons c cs ih => exact ih (Memory.wf_write h _ _)

theorem Memory.wf_program (bs : List Byte) {m : Memory} (h : Memory.wf m = true) (a : Nat) :
    Memory.wf (Memory.program m a bs) = true := by
  induction bs generalizing m a with
  | nil => exact h
  | cons b bs ih => exact ih (Memory.wf_write h _ _) _

theorem Memory.wf_overwrite (bs : List Byte) {m : Memory} (h : Memory.wf m = true) (a : Nat) :
    Memory.wf (Memory.overwrite m a bs) = true := by
  induction bs generalizing m a with
  | nil => exact h
  | cons b bs ih => exact ih (Memory.wf_write h _ _) _

theorem Memory.wf_erase {m : Memory} (h : Memory.wf m = true) (a n : Nat) : Memory.wf (Memory.erase m a n) = true :=
  Memory.wf_filter h _

theorem Memory.wf_copy {dst src : Memory} (hd : Memory.wf dst = true) (hs : Memory.wf src = true) (d a n : Nat) :
    Memory.wf (Memory.copy dst d src a n) = true := by
  rw [Memory.wf_iff] at hd hs ⊢
  unfold Memory.copy
  constructor
  · rw [List.append_assoc, List.pairwise_append, List.pairwise_append]
    refine ⟨hd.1.filter _, ⟨?_, hd.1.filter _, ?_⟩, ?_⟩
    · rw [List.pairwise_map]
      refine (hs.1.filter _).imp_of_mem ?_
      intro x y hx hy h
      simp only [List.mem_filter, Bool.and_eq_true, decide_eq_true_eq] at hx hy
      show x.1 - a + d < y.1 - a + d
      omega
    · intro x hx y hy
      simp only [List.mem_map, List.mem_filter, Bool.and_eq_true, decide_eq_true_eq] at hx hy
      obtain ⟨c, ⟨_, h1, h2⟩, rfl⟩ := hx
      show c.1 - a + d < y.1
      omega
    · intro x hx y hy
      simp only [List.mem_append, List.mem_map, List.mem_filter, Bool.and_eq_true, decide_eq_true_eq] at hx hy
      rcases hy with ⟨c, ⟨_, h1, h2⟩, rfl⟩ | hy
      · show x.1 < c.1 - a + d
        omega
      · omega
  · intro c hc
    simp only [List.mem_append, List.mem_map, List.mem_filter] at hc
    rcases hc with (⟨h, _⟩ | ⟨c', ⟨h, _⟩, rfl⟩) | ⟨h, _⟩
    · exact hd.2 c h
    · exact hs.2 c' h
    · exact hd.2 c h

/-! ### Bounds of the listed addresses -/

theorem Memory.below_write {m : Memory} {n : Nat} (h : Memory.below m n = true) {a : Nat} (ha : a < n) (b : Byte) :
    Memory.below (Memory.write m a b) n = true := by
  rw [Memory.below_iff] at h ⊢
  unfold Memory.write
  intro c hc
  by_cases hb : b = erasedByte
  · simp only [hb, if_true] at hc
    exact h c (List.mem_of_mem_filter hc)
  · simp only [hb, if_false] at hc
    rcases Memory.mem_insert hc with e | e
    · subst e; exact ha
    · exact h c (List.mem_of_mem_filter e)

theorem Memory.below_writeCells (cs : List Host.Cell) {m : Memory} {n : Nat} (h : Memory.below m n = true)
    (hc : ∀ c ∈ cs, c.1 < n) : Memory.below (Memory.writeCells m cs) n = true := by
  induction cs generalizing m with
  | nil => exact h
  | cons c cs ih => exact ih (Memory.below_write h (hc c (by simp)) _) fun d hd => hc d (by simp [hd])

theorem Memory.below_program (bs : List Byte) {m : Memory} {n : Nat} (h : Memory.below m n = true) {a : Nat}
    (ha : a + bs.length ≤ n) : Memory.below (Memory.program m a bs) n = true := by
  induction bs generalizing m a with
  | nil => exact h
  | cons b bs ih =>
    simp only [List.length_cons] at ha
    exact ih (Memory.below_write h (by omega) _) (by omega)

theorem Memory.below_overwrite (bs : List Byte) {m : Memory} {n : Nat} (h : Memory.below m n = true) {a : Nat}
    (ha : a + bs.length ≤ n) : Memory.below (Memory.overwrite m a bs) n = true := by
  induction bs generalizing m a with
  | nil => exact h
  | cons b bs ih =>
    simp only [List.length_cons] at ha
    exact ih (Memory.below_write h (by omega) _) (by omega)

theorem Memory.below_erase {m : Memory} {n : Nat} (h : Memory.below m n = true) (a k : Nat) :
    Memory.below (Memory.erase m a k) n = true := by
  rw [Memory.below_iff] at h ⊢
  exact fun c hc => h c (List.mem_of_mem_filter hc)

theorem Memory.below_copy {dst : Memory} {n : Nat} (h : Memory.below dst n = true) {d : Nat} (src : Memory) (a : Nat)
    {k : Nat} (hk : d + k ≤ n) : Memory.below (Memory.copy dst d src a k) n = true := by
  rw [Memory.below_iff] at h ⊢
  intro c hc
  simp only [Memory.copy, List.mem_append, List.mem_map, List.mem_filter, Bool.and_eq_true, decide_eq_true_eq] at hc
  rcases hc with (⟨h', _⟩ | ⟨c', ⟨_, h1, h2⟩, rfl⟩) | ⟨h', _⟩
  · exact h c h'
  · show c'.1 - a + d < n
    omega
  · exact h c h'

end Sys2Proof.Machine
end

