-- ==== Sys2Proof/Laws/State.lean ====
section
/-! SUPPORT. One lemma per field for each operation that updates the state, so that no proof unfolds a record update. -/

namespace Sys2Proof.Machine

@[simp] theorem raiseFault_img (r : FaultReason) (s : State) : (raiseFault r s).img = s.img := rfl
@[simp] theorem raiseFault_q (r : FaultReason) (s : State) : (raiseFault r s).q = s.q := rfl
@[simp] theorem raiseFault_layout (r : FaultReason) (s : State) : (raiseFault r s).layout = s.layout := rfl
@[simp] theorem raiseFault_trig (r : FaultReason) (s : State) : (raiseFault r s).trig = s.trig := rfl
@[simp] theorem raiseFault_ddir (r : FaultReason) (s : State) : (raiseFault r s).ddir = s.ddir := rfl
@[simp] theorem raiseFault_dout (r : FaultReason) (s : State) : (raiseFault r s).dout = s.dout := rfl
@[simp] theorem raiseFault_run (r : FaultReason) (s : State) : (raiseFault r s).run = s.run := rfl
@[simp] theorem raiseFault_matcher (r : FaultReason) (s : State) : (raiseFault r s).matcher = s.matcher := rfl
@[simp] theorem raiseFault_dctl (r : FaultReason) (s : State) : (raiseFault r s).dctl = .faulted r := rfl
@[simp] theorem raiseFault_flash (r : FaultReason) (s : State) : (raiseFault r s).flash = s.flash := rfl
@[simp] theorem raiseFault_params (r : FaultReason) (s : State) : (raiseFault r s).params = s.params := rfl
@[simp] theorem raiseFault_pins (r : FaultReason) (s : State) : (raiseFault r s).pins = s.pins := rfl
@[simp] theorem raiseFault_sampled (r : FaultReason) (s : State) : (raiseFault r s).sampled = s.sampled := rfl
@[simp] theorem raiseFault_latched (r : FaultReason) (s : State) : (raiseFault r s).latched = s.latched := rfl
@[simp] theorem raiseFault_failAt (r : FaultReason) (s : State) : (raiseFault r s).failAt = s.failAt := rfl
@[simp] theorem raiseFault_draws (r : FaultReason) (s : State) : (raiseFault r s).draws = s.draws := rfl
@[simp] theorem raiseFault_script (r : FaultReason) (s : State) : (raiseFault r s).script = s.script := rfl

@[simp] theorem startCommand_img (op : Op) (arg : Arg) (todo : List Task) (s : State) : (startCommand op arg todo s).img = s.img := rfl
@[simp] theorem startCommand_q (op : Op) (arg : Arg) (todo : List Task) (s : State) : (startCommand op arg todo s).q = s.q := rfl
@[simp] theorem startCommand_layout (op : Op) (arg : Arg) (todo : List Task) (s : State) : (startCommand op arg todo s).layout = s.layout := rfl
@[simp] theorem startCommand_trig (op : Op) (arg : Arg) (todo : List Task) (s : State) : (startCommand op arg todo s).trig = s.trig := rfl
@[simp] theorem startCommand_ddir (op : Op) (arg : Arg) (todo : List Task) (s : State) : (startCommand op arg todo s).ddir = s.ddir := rfl
@[simp] theorem startCommand_dout (op : Op) (arg : Arg) (todo : List Task) (s : State) : (startCommand op arg todo s).dout = s.dout := rfl
@[simp] theorem startCommand_run (op : Op) (arg : Arg) (todo : List Task) (s : State) : (startCommand op arg todo s).run = s.run := rfl
@[simp] theorem startCommand_matcher (op : Op) (arg : Arg) (todo : List Task) (s : State) : (startCommand op arg todo s).matcher = .s0 := rfl
@[simp] theorem startCommand_dctl (op : Op) (arg : Arg) (todo : List Task) (s : State) : (startCommand op arg todo s).dctl = .exec op arg todo := rfl
@[simp] theorem startCommand_flash (op : Op) (arg : Arg) (todo : List Task) (s : State) : (startCommand op arg todo s).flash = s.flash := rfl
@[simp] theorem startCommand_params (op : Op) (arg : Arg) (todo : List Task) (s : State) : (startCommand op arg todo s).params = s.params := rfl
@[simp] theorem startCommand_pins (op : Op) (arg : Arg) (todo : List Task) (s : State) : (startCommand op arg todo s).pins = s.pins := rfl
@[simp] theorem startCommand_sampled (op : Op) (arg : Arg) (todo : List Task) (s : State) : (startCommand op arg todo s).sampled = s.sampled := rfl
@[simp] theorem startCommand_latched (op : Op) (arg : Arg) (todo : List Task) (s : State) : (startCommand op arg todo s).latched = s.latched := rfl
@[simp] theorem startCommand_failAt (op : Op) (arg : Arg) (todo : List Task) (s : State) : (startCommand op arg todo s).failAt = s.failAt := rfl
@[simp] theorem startCommand_draws (op : Op) (arg : Arg) (todo : List Task) (s : State) : (startCommand op arg todo s).draws = s.draws := rfl
@[simp] theorem startCommand_script (op : Op) (arg : Arg) (todo : List Task) (s : State) : (startCommand op arg todo s).script = s.script := rfl

@[simp] theorem startReserved_img (s : State) : (startReserved s).img = s.img := rfl
@[simp] theorem startReserved_q (s : State) : (startReserved s).q = s.q := rfl
@[simp] theorem startReserved_layout (s : State) : (startReserved s).layout = s.layout := rfl
@[simp] theorem startReserved_trig (s : State) : (startReserved s).trig = s.trig := rfl
@[simp] theorem startReserved_ddir (s : State) : (startReserved s).ddir = s.ddir := rfl
@[simp] theorem startReserved_dout (s : State) : (startReserved s).dout = s.dout := rfl
@[simp] theorem startReserved_run (s : State) : (startReserved s).run = s.run := rfl
@[simp] theorem startReserved_matcher (s : State) : (startReserved s).matcher = .s0 := rfl
@[simp] theorem startReserved_dctl (s : State) : (startReserved s).dctl = .recv := rfl
@[simp] theorem startReserved_flash (s : State) : (startReserved s).flash = s.flash := rfl
@[simp] theorem startReserved_params (s : State) : (startReserved s).params = s.params := rfl
@[simp] theorem startReserved_pins (s : State) : (startReserved s).pins = s.pins := rfl
@[simp] theorem startReserved_sampled (s : State) : (startReserved s).sampled = s.sampled := rfl
@[simp] theorem startReserved_latched (s : State) : (startReserved s).latched = s.latched := rfl
@[simp] theorem startReserved_failAt (s : State) : (startReserved s).failAt = s.failAt := rfl
@[simp] theorem startReserved_draws (s : State) : (startReserved s).draws = s.draws := rfl
@[simp] theorem startReserved_script (s : State) : (startReserved s).script = s.script := rfl

@[simp] theorem driveData_img (a : Addr) (s : State) : (driveData a s).img = s.img := rfl
@[simp] theorem driveData_q (a : Addr) (s : State) : (driveData a s).q = s.q := rfl
@[simp] theorem driveData_layout (a : Addr) (s : State) : (driveData a s).layout = s.layout := rfl
@[simp] theorem driveData_trig (a : Addr) (s : State) : (driveData a s).trig = s.trig := rfl
@[simp] theorem driveData_ddir (a : Addr) (s : State) : (driveData a s).ddir = .output := rfl
@[simp] theorem driveData_dout (a : Addr) (s : State) : (driveData a s).dout = busWord s.img a := rfl
@[simp] theorem driveData_run (a : Addr) (s : State) : (driveData a s).run = s.run := rfl
@[simp] theorem driveData_matcher (a : Addr) (s : State) : (driveData a s).matcher = s.matcher := rfl
@[simp] theorem driveData_dctl (a : Addr) (s : State) : (driveData a s).dctl = s.dctl := rfl
@[simp] theorem driveData_flash (a : Addr) (s : State) : (driveData a s).flash = s.flash := rfl
@[simp] theorem driveData_params (a : Addr) (s : State) : (driveData a s).params = s.params := rfl
@[simp] theorem driveData_pins (a : Addr) (s : State) : (driveData a s).pins = s.pins := rfl
@[simp] theorem driveData_sampled (a : Addr) (s : State) : (driveData a s).sampled = true := rfl
@[simp] theorem driveData_latched (a : Addr) (s : State) : (driveData a s).latched = s.latched := rfl
@[simp] theorem driveData_failAt (a : Addr) (s : State) : (driveData a s).failAt = s.failAt := rfl
@[simp] theorem driveData_draws (a : Addr) (s : State) : (driveData a s).draws = s.draws := rfl
@[simp] theorem driveData_script (a : Addr) (s : State) : (driveData a s).script = s.script := rfl

@[simp] theorem releaseData_img (s : State) : (releaseData s).img = s.img := rfl
@[simp] theorem releaseData_q (s : State) : (releaseData s).q = s.q := rfl
@[simp] theorem releaseData_layout (s : State) : (releaseData s).layout = s.layout := rfl
@[simp] theorem releaseData_trig (s : State) : (releaseData s).trig = false := rfl
@[simp] theorem releaseData_ddir (s : State) : (releaseData s).ddir = .input := rfl
@[simp] theorem releaseData_dout (s : State) : (releaseData s).dout = s.dout := rfl
@[simp] theorem releaseData_run (s : State) : (releaseData s).run = s.run := rfl
@[simp] theorem releaseData_matcher (s : State) : (releaseData s).matcher = s.matcher := rfl
@[simp] theorem releaseData_dctl (s : State) : (releaseData s).dctl = s.dctl := rfl
@[simp] theorem releaseData_flash (s : State) : (releaseData s).flash = s.flash := rfl
@[simp] theorem releaseData_params (s : State) : (releaseData s).params = s.params := rfl
@[simp] theorem releaseData_pins (s : State) : (releaseData s).pins = s.pins := rfl
@[simp] theorem releaseData_sampled (s : State) : (releaseData s).sampled = false := rfl
@[simp] theorem releaseData_latched (s : State) : (releaseData s).latched = s.latched := rfl
@[simp] theorem releaseData_failAt (s : State) : (releaseData s).failAt = s.failAt := rfl
@[simp] theorem releaseData_draws (s : State) : (releaseData s).draws = s.draws := rfl
@[simp] theorem releaseData_script (s : State) : (releaseData s).script = s.script := rfl

end Sys2Proof.Machine
end

