-- ==== Sys2Proof/Laws/Ops.lean ====
section
/-! SUPPORT. Everything the shared operations can do, said once per operation. -/

namespace Sys2Proof.Machine

/-! ### FIFO, RESP -/

theorem fifoTryPush_eq (v : FifoWord) (s : State) :
    fifoTryPush v s = { s with q := if s.q.length < s.params.fifoDepth then s.q ++ [v] else s.q } := by
  unfold fifoTryPush
  split <;> rfl

theorem forwardAddr_eq (a : Addr) (s : State) :
    forwardAddr a s = { s with
      trig := true
      q := if s.trig = false ∧ s.q.length < s.params.fifoDepth then s.q ++ [forwardedWord a] else s.q } := by
  unfold forwardAddr
  rw [fifoTryPush_eq]
  cases s with
  | mk _ _ _ trig => cases trig <;> simp

theorem swap16_append (x y : Byte) : swap16 (x ++ y) = y ++ x := by
  unfold swap16
  ext i hi
  simp only [BitVec.getElem_append, BitVec.getElem_extractLsb', BitVec.getLsbD_append]
  split
  · rename_i h
    have : 8 + i - 8 = i := by omega
    simp [this, BitVec.getLsbD_eq_getElem, h]
  · rename_i h
    have : i - 8 < 8 := by omega
    simp [this, BitVec.getLsbD_eq_getElem]

/-- R55: the data lines carry {IMG[2a], IMG[2a+1]}. -/
theorem busWord_eq (img : Memory) (a : Addr) :
    busWord img a = Memory.read img (2 * a.toNat) ++ Memory.read img (2 * a.toNat + 1) :=
  swap16_append _ _

theorem respStep_of_qualifying {s : State} (hr : s.run = true) (hq : qualifying s.params (snapshot s) = true) :
    respStep s = { s with
      dout := busWord s.img (snapshot s).addr, ddir := .output, trig := true, sampled := true
      q := if s.trig = false ∧ s.q.length < s.params.fifoDepth then s.q ++ [forwardedWord (snapshot s).addr] else s.q } := by
  rw [respStep, if_pos hr]
  show (if qualifying s.params (snapshot s) = true then _ else _) = _
  rw [if_pos hq, forwardAddr_eq]
  rfl

theorem respStep_of_not_qualifying {s : State} (hr : s.run = true) (hq : qualifying s.params (snapshot s) = false) :
    respStep s = releaseData s := by
  simp [respStep, hr, respSample, hq]

theorem respStep_of_idle {s : State} (hr : s.run = false) : respStep s = s := by simp [respStep, hr]

/-! ### Flash primitives -/

@[simp] theorem Res.bind_done (s : State) (f : State → Res) : (Res.done s).bind f = f s := rfl
@[simp] theorem Res.bind_stop (s : State) (r : FaultReason) (f : State → Res) : (Res.stop s r).bind f = .stop s r := rfl

theorem Res.bind_assoc (x : Res) (f g : State → Res) : (x.bind f).bind g = x.bind fun s => (f s).bind g := by
  cases x <;> rfl

theorem checkRange_of_ok {a n : Nat} {s : State} (h : flashRangeOk s.params a n = true) : checkRange a n s = .done s := by
  simp [checkRange, h]

theorem checkRange_of_not_ok {a n : Nat} {s : State} (h : flashRangeOk s.params a n = false) :
    checkRange a n s = .stop s (.flashRange a) := by
  simp [checkRange, h]

theorem flashAttempt_of_none (prim : FlashPrim) (a : Nat) {s : State} (h : s.failAt = none) :
    flashAttempt prim a s = .done s := by
  simp [flashAttempt, h]

theorem flashAttempt_of_zero (prim : FlashPrim) (a : Nat) {s : State} (h : s.failAt = some 0) :
    flashAttempt prim a s = .stop s (.flashFail prim a) := by
  simp [flashAttempt, h]

theorem flashRead_of_ok {a n : Nat} {s : State} (h : flashRangeOk s.params a n = true) (hf : s.failAt = none) :
    flashRead a n s = .done s := by
  simp [flashRead, checkRange_of_ok h, flashAttempt_of_none _ _ hf]

theorem flashProgram_of_ok {a : Nat} {data : List Byte} {s : State} (h : flashRangeOk s.params a data.length = true)
    (hf : s.failAt = none) : flashProgram a data s = .done { s with flash := Memory.program s.flash a data } := by
  simp [flashProgram, checkRange_of_ok h, flashAttempt_of_none _ _ hf]

theorem flashErase_of_ok {a : Nat} {s : State} (h : flashRangeOk s.params a sectorSize = true) (hf : s.failAt = none) :
    flashErase a s = .done { s with flash := Memory.erase s.flash a sectorSize } := by
  simp [flashErase, checkRange_of_ok h, flashAttempt_of_none _ _ hf]

theorem copySegment_of_none {seg : Segment} {s : State} (hf : s.failAt = none) :
    copySegment seg s = .done { s with img := Memory.copy s.img seg.dst s.flash seg.src seg.len } := by
  simp [copySegment, hf]

/-- A part of a range that may be used may be used. -/
theorem flashRangeOk_sub {p : Params} {a n b k : Nat} (h : flashRangeOk p a n = true) (h1 : a ≤ b) (h2 : b + k ≤ a + n) :
    flashRangeOk p b k = true := by
  simp only [flashRangeOk, meets, Bool.and_eq_true, decide_eq_true_eq, List.all_eq_true, Bool.not_eq_true',
    decide_eq_false_iff_not] at h ⊢
  refine ⟨by omega, fun r hr => ?_⟩
  have := h.2 r hr
  omega

theorem checkRange_cases (a n : Nat) (s : State) :
    (flashRangeOk s.params a n = true ∧ checkRange a n s = .done s) ∨
    (flashRangeOk s.params a n = false ∧ checkRange a n s = .stop s (.flashRange a)) := by
  cases h : flashRangeOk s.params a n
  · exact .inr ⟨rfl, checkRange_of_not_ok h⟩
  · exact .inl ⟨rfl, checkRange_of_ok h⟩

theorem flashAttempt_cases (prim : FlashPrim) (a : Nat) (s : State) :
    (∃ f, flashAttempt prim a s = .done { s with failAt := f }) ∨ ∃ r, flashAttempt prim a s = .stop s r := by
  unfold flashAttempt
  split
  · exact .inl ⟨s.failAt, rfl⟩
  · exact .inr ⟨_, rfl⟩
  · exact .inl ⟨_, rfl⟩

/-- A FlashRead leaves all but the environment's choice of failures as it was, done or not. -/
theorem flashRead_cases (a n : Nat) (s : State) :
    (flashRangeOk s.params a n = true ∧ ∃ f, flashRead a n s = .done { s with failAt := f }) ∨
    ∃ r, flashRead a n s = .stop s r := by
  rcases checkRange_cases a n s with ⟨h, e⟩ | ⟨_, e⟩
  · rcases flashAttempt_cases .read a s with ⟨f, e'⟩ | ⟨r, e'⟩
    · exact .inl ⟨h, f, by simp [flashRead, e, e']⟩
    · exact .inr ⟨r, by simp [flashRead, e, e']⟩
  · exact .inr ⟨_, by simp [flashRead, e]; rfl⟩

/-- A FlashProgram is done inside a range that may be used, or changes nothing. -/
theorem flashProgram_cases (a : Nat) (data : List Byte) (s : State) :
    (flashRangeOk s.params a data.length = true ∧ ∃ f, flashProgram a data s =
      .done { s with failAt := f, flash := Memory.program s.flash a data }) ∨
    ∃ r, flashProgram a data s = .stop s r := by
  rcases checkRange_cases a data.length s with ⟨h, e⟩ | ⟨_, e⟩
  · rcases flashAttempt_cases .program a s with ⟨f, e'⟩ | ⟨r, e'⟩
    · exact .inl ⟨h, f, by simp [flashProgram, e, e']⟩
    · exact .inr ⟨r, by simp [flashProgram, e, e']⟩
  · exact .inr ⟨_, by simp [flashProgram, e]; rfl⟩

/-- A FlashErase is done inside a range that may be used, or changes nothing. -/
theorem flashErase_cases (a : Nat) (s : State) :
    (flashRangeOk s.params a sectorSize = true ∧ ∃ f, flashErase a s =
      .done { s with failAt := f, flash := Memory.erase s.flash a sectorSize }) ∨
    ∃ r, flashErase a s = .stop s r := by
  rcases checkRange_cases a sectorSize s with ⟨h, e⟩ | ⟨_, e⟩
  · rcases flashAttempt_cases .erase a s with ⟨f, e'⟩ | ⟨r, e'⟩
    · exact .inl ⟨h, f, by simp [flashErase, e, e']⟩
    · exact .inr ⟨r, by simp [flashErase, e, e']⟩
  · exact .inr ⟨_, by simp [flashErase, e]; rfl⟩

/-- A copy is done whole, or stops after some of its bytes. -/
theorem copySegment_cases (seg : Segment) (s : State) :
    (∃ f, copySegment seg s = .done { s with failAt := f, img := Memory.copy s.img seg.dst s.flash seg.src seg.len }) ∨
    ∃ n < seg.len, copySegment seg s = .stop { s with
      img := Memory.copy s.img seg.dst s.flash seg.src n, failAt := some 0 } (.flashFail .read (seg.src + n)) := by
  unfold copySegment
  split
  · exact .inl ⟨s.failAt, rfl⟩
  · split
    · exact .inr ⟨_, ‹_›, rfl⟩
    · exact .inl ⟨_, rfl⟩

end Sys2Proof.Machine
end

