-- ==== Sys2Proof/Laws/PerInstr.lean ====
section
/-! SUPPORT. One statement per instruction: its word matches its row of the opcode table. -/

namespace Sys2Proof.Laws.TableRow

/-- The word of a well-formed instruction has the bits that its row of spec/opcode_table.json fixes. -/
def Statement (i : Instr) : Prop := i.wellFormed = true → encode i &&& rowMask i = rowMatch i

/-- Masking the opcode field of a command word, and nothing below it. -/
theorem command_mask (op m : BitVec 4) (arg : Arg) : (op ++ arg) &&& (m ++ (0#14)) = (op &&& m) ++ (0#14) := by
  apply BitVec.eq_of_getElem_eq
  intro i hi
  rw [BitVec.getElem_and, BitVec.getElem_append, BitVec.getElem_append, BitVec.getElem_append]
  split <;> simp

/-- The opcode field of a command word, under the mask of the command rows. -/
theorem command_row (op : BitVec 4) (arg : Arg) : encodeCommand op arg.toNat &&& 0x3C000#18 = encodeCommand op 0 := by
  have h : op &&& 0xF#4 = op := by revert op; decide
  have e := command_mask op 0xF#4 arg
  rw [h] at e
  simpa [encodeCommand] using e

theorem rd (addr : Addr) : Statement (.rd addr) := fun _ => by simp [encode, rowMask, rowMatch]
theorem magic0 : Statement .magic0 := fun _ => by decide
theorem magic1 : Statement .magic1 := fun _ => by decide
theorem magic2 : Statement .magic2 := fun _ => by decide
theorem otherToken (value : Addr) : Statement (.otherToken value) := fun _ => by simp [encode, rowMask, rowMatch]
theorem updateActiveSlot (slot : Arg) : Statement (.updateActiveSlot slot) := fun _ => command_row 0 slot
theorem writeStatusToSram (arg : Arg) : Statement (.writeStatusToSram arg) := fun _ => command_row 1 arg
theorem restorePageToSram (arg : Arg) : Statement (.restorePageToSram arg) := fun _ => command_row 2 arg
theorem copyPageHostToSram (arg : Arg) : Statement (.copyPageHostToSram arg) := fun _ => command_row 3 arg
theorem copyPageFlashToSram (page : Arg) : Statement (.copyPageFlashToSram page) := fun _ => command_row 4 page
theorem copyPageSramToFlash (page : Arg) : Statement (.copyPageSramToFlash page) := fun _ => command_row 5 page
theorem eraseFlashSector (sector : Arg) : Statement (.eraseFlashSector sector) := fun _ => command_row 6 sector
theorem reservedOp7 (arg : Arg) : Statement (.reservedOp7 arg) := fun _ => command_row 7 arg
theorem reservedOp8to15 (opcode : BitVec 4) (arg : Arg) : Statement (.reservedOp8to15 opcode arg) := fun h => by
  have h8 : ∀ op : BitVec 4, op.getLsbD 3 = true → op &&& 0x8#4 = 0x8#4 := by decide
  have e := command_mask opcode 0x8#4 arg
  rw [h8 opcode h] at e
  simpa [encode, encodeCommand, rowMask, rowMatch] using e

theorem payload (ignored : BitVec 2) (data : Half) : Statement (.payload ignored data) := fun _ => by
  simp [encode, rowMask, rowMatch]

end Sys2Proof.Laws.TableRow
end

