-- ==== Sys2Proof/Laws/Pins.lean ====
section
/-! SUPPORT. The lines on the pins: what is driven is what is sampled. -/

namespace Sys2Proof.Machine

theorem setPin_level (pins i : Nat) (b : Bool) (j : Nat) :
    pinLevel (setPin pins i b) j = if j = i then b else pinLevel pins j := by
  unfold setPin pinLevel
  split
  · rename_i h
    by_cases hj : j = i
    · simp [hj, h]
    · simp [hj]
  · rename_i h
    rw [Nat.testBit_xor, Nat.testBit_two_pow]
    by_cases hj : j = i
    · subst hj
      rw [if_pos rfl]
      cases hb : b <;> cases hp : pins.testBit j <;> simp_all
    · have : ¬i = j := fun e => hj e.symm
      simp [hj, this]

theorem gatherBits_lt (f : Nat → Bool) (n : Nat) : gatherBits f n < 2 ^ n := by
  induction n with
  | zero => simp [gatherBits]
  | succ n ih =>
    rw [gatherBits, Nat.pow_succ]
    split <;> omega

theorem testBit_gatherBits (f : Nat → Bool) (n j : Nat) : (gatherBits f n).testBit j = (decide (j < n) && f j) := by
  induction n with
  | zero => simp [gatherBits]
  | succ n ih =>
    have hlt := gatherBits_lt f n
    rw [gatherBits]
    split
    · rename_i hf
      rw [Nat.add_comm]
      by_cases hj : j = n
      · subst hj
        rw [Nat.testBit_two_pow_add_eq, Nat.testBit_lt_two_pow hlt]
        simp [hf]
      · rcases Nat.lt_or_gt_of_ne hj with h | h
        · rw [Nat.testBit_two_pow_add_gt h, ih]
          have : j < n + 1 := by omega
          simp [h, this]
        · rw [Nat.testBit_lt_two_pow (Nat.lt_of_lt_of_le (by omega : 2 ^ n + gatherBits f n < 2 ^ (n + 1))
            (Nat.pow_le_pow_right (by omega) h))]
          have : ¬j < n + 1 := by omega
          simp [this]
    · rename_i hf
      rw [Nat.add_zero, ih]
      by_cases hj : j = n
      · subst hj; simp [hf]
      · have : j < n ↔ j < n + 1 := by omega
        simp [this]

/-- R81, R82: bit j of the sampled address is the level of its pin. -/
theorem pinsAddr_getLsbD (p : Params) (l : Layout) (pins : Nat) {j : Nat} (hj : j < 18) :
    (pinsAddr p l pins).getLsbD j = pinLevel pins (addrPin p l j) := by
  rw [pinsAddr, BitVec.getLsbD_ofNat, testBit_gatherBits]
  simp [hj]

theorem driveAddr_level_of_ne (p : Params) (l : Layout) (a : Addr) (pins n i : Nat) (h : ∀ j < n, i ≠ addrPin p l j) :
    pinLevel (driveAddr p l a pins n) i = pinLevel pins i := by
  induction n with
  | zero => rfl
  | succ n ih =>
    rw [driveAddr, setPin_level, if_neg (h n (by omega)), ih fun j hj => h j (by omega)]

theorem driveAddr_level (p : Params) (l : Layout) (a : Addr) (pins n : Nat)
    (hd : ∀ i < n, ∀ j < n, addrPin p l i = addrPin p l j → i = j) {j : Nat} (hj : j < n) :
    pinLevel (driveAddr p l a pins n) (addrPin p l j) = a.getLsbD j := by
  induction n with
  | zero => omega
  | succ n ih =>
    rw [driveAddr, setPin_level]
    by_cases e : j = n
    · subst e; simp
    · have hj' : j < n := by omega
      rw [if_neg fun h => e (hd _ (by omega) _ (by omega) h),
        ih (fun i hi k hk => hd i (by omega) k (by omega)) hj']

/-- What `linesDistinct` says, line by line. -/
theorem linesDistinct_iff (p : Params) (l : Layout) : linesDistinct p l = true ↔
    (p.pins.strap ≠ p.pins.oe ∧ p.pins.strap ≠ p.pins.ce ∧ ∀ j < 18, p.pins.strap ≠ addrPin p l j) ∧
    (p.pins.oe ≠ p.pins.ce ∧ ∀ j < 18, p.pins.oe ≠ addrPin p l j) ∧ (∀ j < 18, p.pins.ce ≠ addrPin p l j) ∧
    ∀ i < 18, ∀ j < 18, addrPin p l i = addrPin p l j → i = j := by
  have hmap : ((List.range 18).map (addrPin p l)).Nodup ↔
      ∀ i < 18, ∀ j < 18, addrPin p l i = addrPin p l j → i = j := by
    rw [List.nodup_map_iff_inj_on List.nodup_range]
    simp only [List.mem_range]
  simp only [linesDistinct, List.cons_append, List.nil_append, List.nodup_cons, List.mem_cons, List.mem_map,
    List.mem_range, decide_eq_true_eq, not_or, not_exists, not_and, hmap]
  constructor
  · rintro ⟨⟨h1, h2, h3⟩, ⟨h4, h5⟩, h6, h7⟩
    exact ⟨⟨h1, h2, fun j hj e => h3 j hj e.symm⟩, ⟨h4, fun j hj e => h5 j hj e.symm⟩,
      fun j hj e => h6 j hj e.symm, h7⟩
  · rintro ⟨⟨h1, h2, h3⟩, ⟨h4, h5⟩, h6, h7⟩
    exact ⟨⟨h1, h2, fun j hj e => h3 j hj e.symm⟩, ⟨h4, fun j hj e => h5 j hj e.symm⟩,
      fun j hj e => h6 j hj e.symm, h7⟩

end Sys2Proof.Machine
end

