-- ==== Sys2Proof/Laws/Runs.lean ====
section
/-! SUPPORT. The small lemmas of runs and launch premises, so that no proof unfolds them. -/

namespace Sys2Proof.Machine

theorem State.after_of_step {s t : State} (h : step s = .next t) : s.after = t := by unfold State.after; rw [h]

@[simp] theorem stepsFrom_zero (s : State) : stepsFrom 0 s = [] := rfl
@[simp] theorem stepsFrom_succ (n : Nat) (s : State) : stepsFrom (n + 1) s = s :: stepsFrom n s.after := rfl

/-- One step more of a run, when that step is to a next state. -/
theorem run_succ_of_step (M : Host.Core) {s t : M.State} (h : M.step s = .next t) (n : Nat) : M.run (n + 1) s = M.run n t := by
  simp only [Host.Core.run, h]

@[simp] theorem stateAt_zero (s : State) : stateAt 0 s = s := rfl
@[simp] theorem stateAt_succ (n : Nat) (s : State) : stateAt (n + 1) s = stateAt n s.after := rfl

/-- The state at `n` is the one that the core's run reaches. -/
theorem stateAt_of_run {n : Nat} {s t : State} (h : Host.Core.run core n s = .next t) : stateAt n s = t := by
  induction n generalizing s with
  | zero => exact Host.Outcome.next.inj h
  | succ n ih =>
    cases e : step s with
    | next u =>
      rw [run_succ_of_step core e] at h
      rw [stateAt_succ, State.after_of_step e]
      exact ih h
    | fault r =>
      have e' : core.step s = .fault r := e
      simp only [Host.Core.run, e'] at h
      cases h
    | refused r =>
      have e' : core.step s = .refused r := e
      simp only [Host.Core.run, e'] at h
      cases h

/-- While HOST has not made every listed read, no run is at its end. -/
theorem not_atRest_of_reads {own : Nat → Bool} {listed : List ListedRead} {n : Nat} {s : State}
    (h : ownReads own n s ≠ listed.map ListedRead.addr) : ¬ AtRest own listed n s := fun r => h r.host.made

/-- R306: a run that reaches FAULTED has no end. -/
theorem not_endOfRun_of_faulted {own : Nat → Bool} {listed : List ListedRead} {k n : Nat} {s : State} {r : FaultReason}
    (hk : k ≤ n) (h : (stateAt k s).dctl = .faulted r) : ¬ EndOfRun own listed n s := fun e => e.atRest.noFault k hk r h

@[simp] theorem readsMade_zero (s : State) : readsMade 0 s = [] := rfl
@[simp] theorem readsMade_succ (n : Nat) (s : State) : readsMade (n + 1) s = s.readsBegun ++ readsMade n s.after := rfl

@[simp] theorem wordsSent_zero (s : State) : wordsSent 0 s = [] := rfl
@[simp] theorem wordsSent_succ (n : Nat) (s : State) : wordsSent (n + 1) s = s.wordsForwarded ++ wordsSent n s.after := rfl

@[simp] theorem HpSettle_zero (listed : List ListedRead) (s : State) : HpSettle listed 0 s := trivial
@[simp] theorem HpSettle_succ (listed : List ListedRead) (n : Nat) (s : State) : HpSettle listed (n + 1) s ↔
    (s.readsBegun ≠ [] → ∀ r ∈ listed.head?, settledFor r s = true) ∧
    HpSettle (listed.drop s.readsBegun.length) n s.after := Iff.rfl

/-- Where HOST makes no read but the program's (HP-QUIET), they are all the program's own. -/
@[simp] theorem ownReads_all (n : Nat) (s : State) : ownReads (fun _ => true) n s = readsMade n s := by
  simp [ownReads, List.zipIdx_map_fst]

/-- Without polls, HP-PACE asks for every word. -/
theorem forwarded_map (rs : List ListedRead) : Forwarded rs (rs.map ListedRead.addr) := by
  induction rs with
  | nil => exact .nil
  | cons r rs ih => exact .kept ih

/-- A state in which DISP waits with an empty Q is settled for every read. -/
theorem settledFor_of_waiting (r : ListedRead) {s : State} (hd : s.dctl = .recv) (hq : s.q = []) : settledFor r s = true := by
  cases r
  simp [settledFor, State.commandQueued, State.commandUnstarted, State.unbracketedBusy, hd, hq, holdsCommand]

end Sys2Proof.Machine
end

