-- ==== Sys2Proof/Laws/Tasks.lean ====
section
/-! SUPPORT. What DISP's tasks do: each one run whole, what none of them touches, and how single steps make up a run. -/

namespace Sys2Proof.Machine

/-! ### Runs -/

@[simp] theorem runWith_nil (f : Task → State → Res) (s : State) : runWith f [] s = .done s := rfl

@[simp] theorem runWith_cons (f : Task → State → Res) (t : Task) (ts : List Task) (s : State) :
    runWith f (t :: ts) s = (f t s).bind (runWith f ts) := rfl

theorem runWith_append (f : Task → State → Res) (ts us : List Task) (s : State) :
    runWith f (ts ++ us) s = (runWith f ts s).bind (runWith f us) := by
  induction ts generalizing s with
  | nil => rfl
  | cons t ts ih =>
    rw [List.cons_append, runWith_cons, runWith_cons, Res.bind_assoc]
    congr 1
    funext s
    exact ih s

@[simp] theorem runTasks_nil (s : State) : runTasks [] s = .done s := rfl

@[simp] theorem runTasks_cons (t : Task) (ts : List Task) (s : State) :
    runTasks (t :: ts) s = (Task.run 4 t s).bind (runTasks ts) := rfl

theorem runTasks_append (ts us : List Task) (s : State) : runTasks (ts ++ us) s = (runTasks ts s).bind (runTasks us) :=
  runWith_append _ _ _ _

theorem Task.run_succ (d : Nat) (t : Task) (s : State) : Task.run (d + 1) t s =
    match t.whole s with
    | .stop s r => .stop s r
    | .cont todo s => runWith (Task.run d) todo s := rfl

/-- A task that leaves no task is run in one go. -/
theorem Task.run_of_leaves_none {t : Task} {s : State} {x : Res} (h : t.whole s = x.thenTasks fun _ => []) (d : Nat) :
    Task.run (d + 1) t s = x := by
  rw [Task.run_succ, h]
  cases x <;> rfl

@[simp] theorem Task.run_sampleStrap (d : Nat) (s : State) :
    Task.run (d + 1) .sampleStrap s = .done { s with layout := layoutOfStrap s.params s.pins } := rfl

@[simp] theorem Task.run_startResponder (d : Nat) (s : State) :
    Task.run (d + 1) .startResponder s = .done { s with run := true } := rfl

@[simp] theorem Task.run_bytes (d : Nat) (cells : List Host.Cell) (s : State) :
    Task.run (d + 1) (.bytes cells) s = .done { s with img := Memory.writeCells s.img cells } := rfl

@[simp] theorem Task.run_check (d a n : Nat) (s : State) : Task.run (d + 1) (.check a n) s = checkRange a n s :=
  Task.run_of_leaves_none (by simp only [Task.whole]) d

@[simp] theorem Task.run_copy (d : Nat) (segs : List Segment) (s : State) :
    Task.run (d + 1) (.copy segs) s = copySegments segs s :=
  Task.run_of_leaves_none (by simp only [Task.whole]) d

@[simp] theorem Task.run_program (d a : Nat) (data : List Byte) (s : State) :
    Task.run (d + 1) (.program a data) s = flashProgram a data s :=
  Task.run_of_leaves_none (by simp only [Task.whole]) d

@[simp] theorem Task.run_programPage (d a : Nat) (s : State) :
    Task.run (d + 1) (.programPage a) s = flashProgram a (Memory.readList s.img 0 pageSize) s :=
  Task.run_of_leaves_none (by simp only [Task.whole]) d

@[simp] theorem Task.run_erase (d a : Nat) (s : State) : Task.run (d + 1) (.erase a) s = flashErase a s :=
  Task.run_of_leaves_none (by simp only [Task.whole]) d

@[simp] theorem Task.run_status (d : Nat) (s : State) : Task.run (d + 2) .status s =
    .done { (getActiveSlot s).2 with
      img := Memory.writeCells (getActiveSlot s).2.img (statusCells (getActiveSlot s).2.params (getActiveSlot s).1) } := by
  rw [Task.run_succ]; simp only [Task.whole, runWith_cons, runWith_nil, Task.run_bytes, Res.bind]

@[simp] theorem Task.run_loadActive (d n : Nat) (s : State) : Task.run (d + 2) (.loadActive n) s =
    runWith (Task.run (d + 1)) (loadSlotTasks (getActiveSlot s).2.params (getActiveSlot s).1 n) (getActiveSlot s).2 := by
  rw [Task.run_succ]; simp only [Task.whole]

@[simp] theorem copySegments_nil (s : State) : copySegments [] s = .done s := rfl

@[simp] theorem copySegments_cons (g : Segment) (gs : List Segment) (s : State) :
    copySegments (g :: gs) s = (copySegment g s).bind (copySegments gs) := rfl

/-- The lookup changes nothing but the count of free values drawn. -/
theorem getActiveSlot_snd (s : State) : ∃ n, (getActiveSlot s).2 = { s with draws := n } := by
  unfold getActiveSlot
  generalize lookupSlot s.params s.flash = found
  cases found with
  | some n => exact ⟨s.draws, rfl⟩
  | none => exact ⟨s.draws + 1, rfl⟩

@[simp] theorem getActiveSlot_params (s : State) : (getActiveSlot s).2.params = s.params := by
  obtain ⟨n, h⟩ := getActiveSlot_snd s; rw [h]
@[simp] theorem getActiveSlot_img (s : State) : (getActiveSlot s).2.img = s.img := by
  obtain ⟨n, h⟩ := getActiveSlot_snd s; rw [h]
@[simp] theorem getActiveSlot_flash (s : State) : (getActiveSlot s).2.flash = s.flash := by
  obtain ⟨n, h⟩ := getActiveSlot_snd s; rw [h]
@[simp] theorem getActiveSlot_failAt (s : State) : (getActiveSlot s).2.failAt = s.failAt := by
  obtain ⟨n, h⟩ := getActiveSlot_snd s; rw [h]

/-! ### What no task touches -/

/-- The fields no task writes. -/
structure TaskFrame (s t : State) : Prop where
  q : t.q = s.q
  trig : t.trig = s.trig
  ddir : t.ddir = s.ddir
  dout : t.dout = s.dout
  matcher : t.matcher = s.matcher
  dctl : t.dctl = s.dctl
  params : t.params = s.params
  pins : t.pins = s.pins
  sampled : t.sampled = s.sampled
  latched : t.latched = s.latched
  script : t.script = s.script

theorem TaskFrame.refl (s : State) : TaskFrame s s := ⟨rfl, rfl, rfl, rfl, rfl, rfl, rfl, rfl, rfl, rfl, rfl⟩

theorem TaskFrame.trans {s t u : State} (h : TaskFrame s t) (k : TaskFrame t u) : TaskFrame s u :=
  ⟨k.q.trans h.q, k.trig.trans h.trig, k.ddir.trans h.ddir, k.dout.trans h.dout, k.matcher.trans h.matcher,
   k.dctl.trans h.dctl, k.params.trans h.params, k.pins.trans h.pins, k.sampled.trans h.sampled,
   k.latched.trans h.latched, k.script.trans h.script⟩

/-- Every state a result can hold. -/
def Res.state : Res → State
  | .done s => s
  | .stop s _ => s

/-- Every state a progress can hold. -/
def Progress.state : Progress → State
  | .cont _ s => s
  | .stop s _ => s

@[simp] theorem Progress.state_thenTasks (x : Res) (f : State → List Task) : (x.thenTasks f).state = x.state := by
  cases x <;> rfl

/-- A relation that holds of a part and is closed under following parts holds of the whole. -/
theorem Res.bind_rel {R : State → State → Prop} (ht : ∀ {s t u}, R s t → R t u → R s u) {s : State} {x : Res}
    {f : State → Res} (hx : R s x.state) (hf : ∀ t, x = .done t → R t (f t).state) : R s (x.bind f).state := by
  cases x with
  | done t => exact ht hx (hf t rfl)
  | stop t r => exact hx

theorem copySegments_rel {R : State → State → Prop} (hr : ∀ s, R s s) (ht : ∀ {s t u}, R s t → R t u → R s u)
    (h : ∀ (g : Segment) (s : State), R s (copySegment g s).state) (gs : List Segment) (s : State) :
    R s (copySegments gs s).state := by
  induction gs generalizing s with
  | nil => exact hr s
  | cons g gs ih => exact Res.bind_rel (R := R) ht (h g s) fun t _ => ih t

/-- An effect that every step of every task has, whole or in part, is an effect of runs. -/
theorem runWith_rel {R : State → State → Prop} (hr : ∀ s, R s s) (ht : ∀ {s t u}, R s t → R t u → R s u)
    {f : Task → State → Res} {ok : Task → Prop} (h : ∀ t s, ok t → R s (f t s).state) (ts : List Task) (hok : ∀ t ∈ ts, ok t)
    (s : State) : R s (runWith f ts s).state := by
  induction ts generalizing s with
  | nil => exact hr s
  | cons t ts ih =>
    exact Res.bind_rel (R := R) ht (h t s (hok t (by simp))) fun u _ => ih (fun t' h' => hok t' (by simp [h'])) u

theorem Task.run_rel {R : State → State → Prop} (hr : ∀ s, R s s) (ht : ∀ {s t u}, R s t → R t u → R s u) {ok : Task → Prop}
    (h : ∀ t s, ok t → R s (t.whole s).state) (hleft : ∀ t s u ts, ok t → t.whole s = .cont ts u → ∀ t' ∈ ts, ok t')
    (d : Nat) (t : Task) (s : State) (hok : ok t) : R s (Task.run d t s).state := by
  induction d generalizing t s with
  | zero => exact hr s
  | succ d ih =>
    have h' := h t s hok
    rw [Task.run_succ]
    cases e : t.whole s with
    | stop u r => rw [e] at h'; exact h'
    | cont ts u =>
      rw [e] at h'
      exact ht h' (runWith_rel (R := R) hr ht (fun t s hk => ih t s hk) ts (hleft t s u ts hok e) u)

theorem runTasks_rel {R : State → State → Prop} (hr : ∀ s, R s s) (ht : ∀ {s t u}, R s t → R t u → R s u) {ok : Task → Prop}
    (h : ∀ t s, ok t → R s (t.whole s).state) (hleft : ∀ t s u ts, ok t → t.whole s = .cont ts u → ∀ t' ∈ ts, ok t')
    (ts : List Task) (hok : ∀ t ∈ ts, ok t) (s : State) : R s (runTasks ts s).state :=
  runWith_rel (R := R) hr ht (fun t s hk => Task.run_rel hr ht h hleft 4 t s hk) ts hok s

/-- The fields that can differ after a task that is not boot's own, or a step of one. -/
inductive Touched (s : State) : State → Prop where
  | mk (img flash : Memory) (failAt : Option Nat) (draws : Nat) :
      Touched s { s with img := img, flash := flash, failAt := failAt, draws := draws }

theorem Touched.frame {s t : State} (h : Touched s t) : TaskFrame s t := by
  cases h; exact ⟨rfl, rfl, rfl, rfl, rfl, rfl, rfl, rfl, rfl, rfl, rfl⟩

theorem Touched.layout {s t : State} (h : Touched s t) : t.layout = s.layout := by cases h; rfl

theorem Touched.run {s t : State} (h : Touched s t) : t.run = s.run := by cases h; rfl

theorem Touched.refl (s : State) : Touched s s := .mk s.img s.flash s.failAt s.draws

theorem Touched.trans {s t u : State} (h : Touched s t) (k : Touched t u) : Touched s u := by
  cases h; cases k; exact .mk ..

theorem checkRange_touched (a n : Nat) (s : State) : Touched s (checkRange a n s).state := by
  rcases checkRange_cases a n s with ⟨_, e⟩ | ⟨_, e⟩ <;> rw [e] <;> exact .refl s

theorem flashRead_touched (a n : Nat) (s : State) : Touched s (flashRead a n s).state := by
  unfold flashRead
  refine Res.bind_rel (R := Touched) (fun h k => h.trans k) (checkRange_touched a n s) fun t _ => ?_
  unfold flashAttempt
  split <;> first | exact .refl _ | exact .mk _ _ _ _

theorem flashProgram_touched (a : Nat) (data : List Byte) (s : State) : Touched s (flashProgram a data s).state := by
  unfold flashProgram
  refine Res.bind_rel (R := Touched) (fun h k => h.trans k) (checkRange_touched _ _ s) fun t _ => Res.bind_rel (R := Touched) (fun h k => h.trans k) ?_ fun u _ => ?_
  · unfold flashAttempt
    split <;> first | exact .refl _ | exact .mk _ _ _ _
  · exact .mk _ _ _ _

theorem flashErase_touched (a : Nat) (s : State) : Touched s (flashErase a s).state := by
  unfold flashErase
  refine Res.bind_rel (R := Touched) (fun h k => h.trans k) (checkRange_touched _ _ s) fun t _ => Res.bind_rel (R := Touched) (fun h k => h.trans k) ?_ fun u _ => ?_
  · unfold flashAttempt
    split <;> first | exact .refl _ | exact .mk _ _ _ _
  · exact .mk _ _ _ _

theorem copySegment_touched (g : Segment) (s : State) : Touched s (copySegment g s).state := by
  rcases copySegment_cases g s with ⟨f, e⟩ | ⟨n, _, e⟩ <;> rw [e] <;> exact .mk _ _ _ _

theorem copySegments_touched (gs : List Segment) (s : State) : Touched s (copySegments gs s).state :=
  copySegments_rel (R := Touched) Touched.refl (fun h k => h.trans k) copySegment_touched gs s

theorem getActiveSlot_touched (s : State) : Touched s (getActiveSlot s).2 := by
  obtain ⟨n, h⟩ := getActiveSlot_snd s
  rw [h]
  exact .mk ..

theorem storePagesStep_touched (slot : Nat) (s : State) : Touched s (storePagesStep slot s).state := by
  have h := flashRead_touched (pbAddr s.params) 4 s
  unfold storePagesStep
  generalize flashRead (pbAddr s.params) 4 s = x at h
  cases x with
  | stop u r => simpa only [Progress.state, Res.state] using h
  | done u => dsimp only; split <;> simpa only [Progress.state, Res.state] using h

theorem storeTuplesStep_touched (slot : Nat) (pb : BitVec 32) (s : State) : Touched s (storeTuplesStep slot pb s).state := by
  have h := flashRead_touched (tbAddr s.params (ctz32 pb)) 4 s
  unfold storeTuplesStep
  generalize flashRead (tbAddr s.params (ctz32 pb)) 4 s = x at h ⊢
  cases x with
  | stop u r => simpa only [Progress.state, Res.state] using h
  | done u => dsimp only; split <;> (try split) <;> simpa only [Progress.state, Res.state] using h

theorem storePageStep_touched (slot : Nat) (pb : BitVec 32) (p p2 t2 : Nat) (s : State) :
    Touched s (storePageStep slot pb p p2 t2 s).state := by
  have h := flashRead_touched (cfgPageAddr s.params p2) pageSize s
  unfold storePageStep
  generalize flashRead (cfgPageAddr s.params p2) pageSize s = x at h
  cases x with
  | stop u r => simpa only [Progress.state, Res.state] using h
  | done u => simpa only [Progress.state, Res.state] using h

/-- Everything a whole task can touch, if it is not boot's own. -/
theorem Task.whole_touched {t : Task} (hb : bootOnly t = false) (s : State) : Touched s (t.whole s).state := by
  cases t <;> simp only [Task.whole, Progress.state_thenTasks]
  case sampleStrap => cases hb
  case loadActive n => exact getActiveSlot_touched s
  case status => exact getActiveSlot_touched s
  case storePages slot => exact storePagesStep_touched slot s
  case storeTuples slot pb => exact storeTuplesStep_touched slot pb s
  case storePage slot pb page p2 t2 => exact storePageStep_touched slot pb page p2 t2 s
  case check a n => exact checkRange_touched a n s
  case copy segs => exact copySegments_touched segs s
  case bytes cells => exact .mk ..
  case program a data => exact flashProgram_touched a data s
  case programPage a => exact flashProgram_touched a _ s
  case erase a => exact flashErase_touched a s
  case startResponder => cases hb

/-- Everything a step of a task can touch, if it is not boot's own. -/
theorem Task.step_touched (c : Choice) {t : Task} (hb : bootOnly t = false) (s : State) : Touched s (t.step c s).state := by
  cases t
  case copy segs =>
    simp only [Task.step, copyStep]
    split
    · exact .refl s
    · simp only [Progress.state_thenTasks]
      exact copySegment_touched _ s
  case bytes cells =>
    simp only [Task.step, bytesStep]
    split
    · exact .refl s
    · exact .mk ..
  all_goals simpa only [Task.step] using Task.whole_touched hb s

/-! ### What tasks leave to do -/

/-- A progress leaves only tasks with a property. -/
def Progress.Leaves (P : Task → Prop) : Progress → Prop
  | .cont ts _ => ∀ t ∈ ts, P t
  | .stop _ _ => True

theorem Res.thenTasks_leaves {P : Task → Prop} (x : Res) (f : State → List Task) (h : ∀ s, x = .done s → ∀ t ∈ f s, P t) :
    (x.thenTasks f).Leaves P := by
  cases x with
  | done s => exact h s rfl
  | stop s r => trivial

theorem storePagesStep_leaves (slot : Nat) (s : State) :
    (storePagesStep slot s).Leaves fun t => ∃ pb, t = .storeTuples slot pb := by
  unfold storePagesStep
  split
  · trivial
  · dsimp only
    split
    · trivial
    · intro t ht
      exact ⟨_, List.mem_singleton.mp ht⟩

theorem storeTuplesStep_leaves (slot : Nat) (pb : BitVec 32) (s : State) :
    (storeTuplesStep slot pb s).Leaves fun t =>
      t = .erase s.params.configSector ∨ ∃ p p2 t2, t = .storePage slot pb p p2 t2 := by
  have hp := (flashRead_touched (tbAddr s.params (ctz32 pb)) 4 s).frame.params
  unfold storeTuplesStep
  split <;> rename_i e <;> rw [e] at hp
  · trivial
  · dsimp only
    split
    · trivial
    · split <;> intro t ht <;> simp only [List.mem_cons, List.not_mem_nil, or_false] at ht
      · rcases ht with rfl | rfl
        · left; rw [← hp]; rfl
        · exact .inr ⟨_, _, _, rfl⟩
      · exact .inr ⟨_, _, _, ht⟩

theorem storePageStep_leaves (slot : Nat) (pb : BitVec 32) (p p2 t2 : Nat) (s : State) :
    (storePageStep slot pb p p2 t2 s).Leaves fun t => ∃ a data, t = .program a data := by
  unfold storePageStep
  split
  · trivial
  · intro t ht
    simp only [List.mem_cons] at ht
    rcases ht with rfl | ht
    · exact ⟨_, _, rfl⟩
    · split at ht
      · exact ⟨_, _, List.mem_singleton.mp ht⟩
      · simp at ht

/-- No task leaves one of boot's own. -/
theorem Task.whole_leaves (t : Task) (s : State) : (t.whole s).Leaves fun t => bootOnly t = false := by
  have none : ∀ u, (Progress.cont [] u).Leaves fun t => bootOnly t = false := fun u t ht => by cases ht
  have leaf : ∀ x : Res, (x.thenTasks fun _ => []).Leaves fun t => bootOnly t = false :=
    fun x => x.thenTasks_leaves _ fun u _ t ht => by cases ht
  cases t <;> simp only [Task.whole]
  case loadActive n => intro t ht; simp only [loadSlotTasks, List.mem_cons, List.not_mem_nil, or_false] at ht; rcases ht with rfl | rfl <;> rfl
  case status => intro t ht; rw [List.mem_singleton.mp ht]; rfl
  case storePages slot =>
    have h := storePagesStep_leaves slot s
    cases e : storePagesStep slot s <;> rw [e] at h
    · intro t ht; obtain ⟨_, rfl⟩ := h t ht; rfl
    · trivial
  case storeTuples slot pb =>
    have h := storeTuplesStep_leaves slot pb s
    cases e : storeTuplesStep slot pb s <;> rw [e] at h
    · intro t ht; rcases h t ht with rfl | ⟨_, _, _, rfl⟩ <;> rfl
    · trivial
  case storePage slot pb p p2 t2 =>
    have h := storePageStep_leaves slot pb p p2 t2 s
    cases e : storePageStep slot pb p p2 t2 s <;> rw [e] at h
    · intro t ht; obtain ⟨_, _, rfl⟩ := h t ht; rfl
    · trivial
  all_goals first | exact none _ | exact leaf _

/-- No step of a task leaves one of boot's own. -/
theorem Task.step_leaves (c : Choice) (t : Task) (s : State) : (t.step c s).Leaves fun t => bootOnly t = false := by
  cases t
  case copy segs =>
    simp only [Task.step, copyStep]
    split
    · intro t ht; cases ht
    · refine Res.thenTasks_leaves _ _ fun u _ t ht => ?_
      split at ht
      · cases ht
      · rw [List.mem_singleton.mp ht]; rfl
  case bytes cells =>
    simp only [Task.step, bytesStep]
    split
    · intro t ht; cases ht
    · intro t ht
      split at ht
      · cases ht
      · rw [List.mem_singleton.mp ht]; rfl
  all_goals simpa only [Task.step] using Task.whole_leaves _ s

/-- Everything a run of tasks can touch, none of them boot's own. -/
theorem runTasks_touched {ts : List Task} (hb : ∀ t ∈ ts, bootOnly t = false) (s : State) :
    Touched s (runTasks ts s).state := by
  refine runTasks_rel (R := Touched) (ok := fun t => bootOnly t = false) Touched.refl (fun h k => h.trans k)
    (fun t s h => Task.whole_touched h s) (fun t s u ts _ e => ?_) ts hb s
  have h := Task.whole_leaves t s
  rw [e] at h
  exact h

theorem Task.whole_frame (t : Task) (s : State) : TaskFrame s (t.whole s).state := by
  cases hb : bootOnly t
  · exact (Task.whole_touched hb s).frame
  · cases t <;> try cases hb
    all_goals simp only [Task.whole]; exact ⟨rfl, rfl, rfl, rfl, rfl, rfl, rfl, rfl, rfl, rfl, rfl⟩

theorem Task.step_frame (c : Choice) (t : Task) (s : State) : TaskFrame s (t.step c s).state := by
  cases hb : bootOnly t
  · exact (Task.step_touched c hb s).frame
  · cases t <;> try cases hb
    all_goals simp only [Task.step, Task.whole]; exact ⟨rfl, rfl, rfl, rfl, rfl, rfl, rfl, rfl, rfl, rfl, rfl⟩

/-- What no run of tasks touches. -/
theorem runTasks_frame (ts : List Task) (s : State) : TaskFrame s (runTasks ts s).state :=
  runTasks_rel (R := TaskFrame) (ok := fun _ => True) TaskFrame.refl (fun h k => h.trans k)
    (fun t s _ => Task.whole_frame t s) (fun _ _ _ _ _ _ _ _ => trivial) ts (fun _ _ => trivial) s

end Sys2Proof.Machine
end

