-- ==== Sys2Proof/Laws/Steps.lean ====
section
/-! SUPPORT. What a step of the machine can be: the environment's move, and DISP's part in it. -/

namespace Sys2Proof.Machine

/-- Dispatch, as the instruction its word decodes to starts it. -/
theorem dispatch_eq_startInstr (v : Addr) (s : State) : dispatch v s = startInstr (decode .command v) s := by
  unfold dispatch decode decodeCommand
  dsimp only
  split
  case h_8 => split <;> first | rfl | (exfalso; simp_all)
  all_goals simp only [*, startInstr]

/-- A command word run whole. -/
theorem exec_command (v : Addr) (s : State) : exec (decode .command v) s = .next (settle (dispatch v s)) := by
  rw [dispatch_eq_startInstr]
  unfold decode decodeCommand
  dsimp only
  split <;> rfl

/-- A token run whole. -/
theorem exec_token (v : Addr) (s : State) : exec (decode .token v) s = .next (receiveWhole v s) := by
  unfold decode decodeToken
  dsimp only
  split
  · subst_vars; rfl
  · split
    · subst_vars; rfl
    · split
      · subst_vars; rfl
      · rfl

/-- Consuming a token. -/
theorem startInstr_token (v : Addr) (s : State) : startInstr (decode .token v) s = receiveWord v s := by
  unfold decode decodeToken
  dsimp only
  split
  · subst_vars; rfl
  · split
    · subst_vars; rfl
    · split
      · subst_vars; rfl
      · rfl

/-- DISP's uninterrupted run: what it is doing to its end, or one word consumed and what follows from it. -/
theorem dispRun_cases (s : State) : dispRun s = .next (settle s) ∨
    ∃ c v rest, s.context = some c ∧ s.q = v :: rest ∧
      dispRun s = .next (settle (startInstr (decode c (tokenOf v)) { s with q := rest })) := by
  unfold dispRun
  cases hc : s.context with
  | none => exact .inl rfl
  | some c =>
    dsimp only
    cases hq : s.q with
    | nil => left; simp [fifoPop, hq]
    | cons v rest =>
      right
      refine ⟨c, v, rest, rfl, rfl, ?_⟩
      simp only [fifoPop, hq]
      unfold State.context at hc
      split at hc <;> rename_i hd
      · split at hc <;> rename_i hm <;> cases hc
        · rw [exec_command, dispatch_eq_startInstr]
        · rw [exec_token, startInstr_token]
          simp [receiveWhole, receiveWord, hm, settle, hd]
      · cases hc
        simp [decode, exec, execPayload, startInstr, startPayload, hd]
      all_goals cases hc

/-- The environment's move leaves no more than its own record changed. -/
theorem nextEvent_cases (s : State) :
    (∃ e moves, s.script = e :: moves ∧ nextEvent s = (e, { s with script := moves })) ∨
    (s.script = [] ∧ nextEvent s = (Config.freeEvent s.draws, { s with draws := s.draws + 1 })) := by
  unfold nextEvent
  cases h : s.script with
  | nil => exact .inr ⟨rfl, rfl⟩
  | cons e moves => exact .inl ⟨e, moves, rfl, rfl⟩

/-- A step is the environment's next move, made. -/
theorem step_eq (s : State) : step s = applyEvent (nextEvent s).1 (nextEvent s).2 := rfl

/-- A read transaction is made of HOST's and RESP's single moves. -/
theorem hostRead_eq (a : Addr) (s : State) : hostRead a s =
    respStep (hostLines { oe := false, ce := false, addr := a }
      (hostLatch (respStep (hostLines { oe := true, ce := true, addr := a } s)))) := rfl

/-- Everything a step can do. -/
theorem step_cases {s t : State} (h : step s = .next t) : let u := (nextEvent s).2
    (∃ a, (nextEvent s).1 = .read a ∧ t = hostRead a u) ∨
    (∃ levels, (nextEvent s).1 = .drive levels ∧ t = hostDrive levels u) ∨
    ((nextEvent s).1 = .sample ∧ t = respStep u) ∨
    ((nextEvent s).1 = .latch ∧ t = hostLatch u) ∨
    (∃ c, (nextEvent s).1 = .disp c ∧ t = dispStep c u) ∨
    ((nextEvent s).1 = .run ∧ t = settle u) ∨
    (∃ c v rest, (nextEvent s).1 = .run ∧ u.context = some c ∧ u.q = v :: rest ∧
      t = settle (startInstr (decode c (tokenOf v)) { u with q := rest })) ∨
    (∃ n, (nextEvent s).1 = .fate n ∧ t = { u with failAt := n }) ∨
    (∃ torn, (nextEvent s).1 = .powerCycle torn ∧ t = powerCycle torn u) := by
  rw [step_eq] at h
  generalize (nextEvent s).1 = e at h
  generalize (nextEvent s).2 = u at h
  dsimp only
  cases e with
  | read a => left; refine ⟨a, rfl, ?_⟩; simpa [applyEvent, exec, execRd] using h.symm
  | drive l => right; left; refine ⟨l, rfl, ?_⟩; simpa [applyEvent] using h.symm
  | sample => right; right; left; refine ⟨rfl, ?_⟩; simpa [applyEvent] using h.symm
  | latch => right; right; right; left; refine ⟨rfl, ?_⟩; simpa [applyEvent] using h.symm
  | disp c => right; right; right; right; left; refine ⟨c, rfl, ?_⟩; simpa [applyEvent] using h.symm
  | run =>
    right; right; right; right; right
    simp only [applyEvent] at h
    rcases dispRun_cases u with e | ⟨c, v, rest, hc, hq, e⟩
    · left; refine ⟨rfl, ?_⟩; rw [e] at h; cases h; rfl
    · right; left; refine ⟨c, v, rest, rfl, hc, hq, ?_⟩; rw [e] at h; cases h; rfl
  | fate n => right; right; right; right; right; right; right; left; refine ⟨n, rfl, ?_⟩; simpa [applyEvent] using h.symm
  | powerCycle torn =>
    right; right; right; right; right; right; right; right; refine ⟨torn, rfl, ?_⟩; simpa [applyEvent] using h.symm

/-! ### The single steps of DISP -/

/-- Everything a single step of DISP can be: a step of a task, the end of boot or a command, a payload byte landing, a
word consumed, or a wait. -/
theorem dispStep_cases (c : Choice) (s : State) :
    (∃ back t ts, (back = Dctl.boot ∨ ∃ op arg, back = Dctl.exec op arg) ∧ s.dctl = back (t :: ts) ∧
      dispStep c s = match t.step c s with
        | .cont more u => { u with dctl := back (more ++ ts) }
        | .stop u r => raiseFault r u) ∨
    (∃ back, (back = Dctl.boot ∨ ∃ op arg, back = Dctl.exec op arg) ∧ s.dctl = back [] ∧
      dispStep c s = { s with dctl := .recv }) ∨
    (∃ i due j cell, s.dctl = .hostCopy i due ∧ due[j]? = some cell ∧
      dispStep c s = { s with img := Memory.write s.img cell.1 cell.2, dctl := .hostCopy i (due.eraseIdx j) }) ∨
    (∃ cx v rest, s.context = some cx ∧ s.q = v :: rest ∧
      dispStep c s = startInstr (decode cx (tokenOf v)) { s with q := rest }) ∨
    dispStep c s = s := by
  have pop : ∀ cx, s.context = some cx → (∃ cx' v rest, s.context = some cx' ∧ s.q = v :: rest ∧
      dispPop cx s = startInstr (decode cx' (tokenOf v)) { s with q := rest }) ∨ dispPop cx s = s := by
    intro cx hx
    unfold dispPop fifoPop
    split <;> rename_i hq
    · exact .inr rfl
    · split at hq <;> rename_i e <;> cases hq
      exact .inl ⟨cx, _, _, hx, e, rfl⟩
  unfold dispStep
  split <;> rename_i h
  · rename_i todo
    cases todo with
    | nil => exact .inr (.inl ⟨.boot, .inl rfl, h, rfl⟩)
    | cons t ts => exact .inl ⟨.boot, t, ts, .inl rfl, h, rfl⟩
  · exact .inr (.inr (.inr (pop _ (by simp only [State.context, h]))))
  · rename_i op arg todo
    cases todo with
    | nil => exact .inr (.inl ⟨.exec op arg, .inr ⟨op, arg, rfl⟩, h, rfl⟩)
    | cons t ts => exact .inl ⟨.exec op arg, t, ts, .inr ⟨op, arg, rfl⟩, h, rfl⟩
  · rename_i i due
    split
    · rename_i cell hcell
      split
      · exact .inr (.inr (.inl ⟨i, due, _, cell, h, hcell, rfl⟩))
      · exact .inr (.inr (.inr (pop _ (by simp only [State.context, h]))))
    · exact .inr (.inr (.inr (pop _ (by simp only [State.context, h]))))
  · exact .inr (.inr (.inr (.inr rfl)))

/-- What dispatch of a command word leaves DISP with to do. -/
theorem dispatch_cases (v : Addr) (s : State) :
    dispatch v s = { s with matcher := .s0, dctl := .recv } ∨
    dispatch v s = { s with matcher := .s0, dctl := .hostCopy 0 [] } ∨
    ∃ op todo, dispatch v s = { s with matcher := .s0, dctl := .exec op (argOf v) todo } ∧
      ((op = .updateActiveSlot ∧ (todo = [] ∨ (validSlot (argOf v).toNat = true ∧
          todo = .storePages (argOf v).toNat :: loadSlotTasks s.params (argOf v).toNat romBytes))) ∨
        (op = .writeStatusToSram ∧ todo = [.status]) ∨
        (op = .restorePageToSram ∧ todo = [.loadActive responseBytes]) ∨
        (op = .copyPageFlashToSram ∧ todo = bracket [.check (pageAddr s.params (argOf v)) pageSize,
          .copy [{ dst := 0, src := pageAddr s.params (argOf v), len := pageSize }]]) ∨
        (op = .copyPageSramToFlash ∧ todo = bracket [.programPage (pageAddr s.params (argOf v))]) ∨
        (op = .eraseFlashSector ∧ todo = bracket [.erase (sectorAddr s.params (argOf v))])) := by
  unfold dispatch
  dsimp only
  split
  · right; right
    refine ⟨_, _, rfl, .inl ⟨rfl, ?_⟩⟩
    split
    · exact .inr ⟨‹_›, rfl⟩
    · exact .inl rfl
  · exact .inr (.inr ⟨_, _, rfl, .inr (.inl ⟨rfl, rfl⟩)⟩)
  · exact .inr (.inr ⟨_, _, rfl, .inr (.inr (.inl ⟨rfl, rfl⟩))⟩)
  · exact .inr (.inl rfl)
  · exact .inr (.inr ⟨_, _, rfl, .inr (.inr (.inr (.inl ⟨rfl, rfl⟩)))⟩)
  · exact .inr (.inr ⟨_, _, rfl, .inr (.inr (.inr (.inr (.inl ⟨rfl, rfl⟩))))⟩)
  · exact .inr (.inr ⟨_, _, rfl, .inr (.inr (.inr (.inr (.inr ⟨rfl, rfl⟩))))⟩)
  · exact .inl rfl

/-- What consuming a word does to DISP, by the role of the word. -/
theorem startInstr_cases {s : State} {c : Context} (hc : s.context = some c) (v : Addr) (q : List FifoWord) :
    let u := startInstr (decode c v) { s with q := q }
    (s.dctl = .recv ∧ s.matcher ≠ .armed ∧ u = { s with q := q, matcher := matchNext s.matcher v }) ∨
    (s.dctl = .recv ∧ s.matcher = .armed ∧ u = dispatch v { s with q := q }) ∨
    ∃ i due, s.dctl = .hostCopy i due ∧ u = takePayload (v.extractLsb' 0 16) i due { s with q := q } := by
  unfold State.context at hc
  dsimp only
  split at hc <;> rename_i hd
  · split at hc <;> rename_i hm <;> cases hc
    · exact .inr (.inl ⟨hd, hm, (dispatch_eq_startInstr v _).symm⟩)
    · left
      refine ⟨hd, hm, ?_⟩
      rw [startInstr_token]
      unfold receiveWord
      rw [if_neg hm]
  · cases hc
    rename_i i due
    exact .inr (.inr ⟨i, due, hd, by simp only [decode, startInstr, startPayload, hd]⟩)
  all_goals cases hc

/-! ### The single steps of RESP and HOST -/

/-- What RESP's and HOST's own moves leave alone: both memories, DISP, the parameters, LAYOUT, RUN and what the environment
still has in store. -/
structure BusFrame (s t : State) : Prop where
  img : t.img = s.img
  flash : t.flash = s.flash
  matcher : t.matcher = s.matcher
  dctl : t.dctl = s.dctl
  params : t.params = s.params
  layout : t.layout = s.layout
  run : t.run = s.run
  failAt : t.failAt = s.failAt
  script : t.script = s.script

theorem BusFrame.trans {s t u : State} (h : BusFrame s t) (k : BusFrame t u) : BusFrame s u :=
  ⟨k.img.trans h.img, k.flash.trans h.flash, k.matcher.trans h.matcher, k.dctl.trans h.dctl, k.params.trans h.params,
   k.layout.trans h.layout, k.run.trans h.run, k.failAt.trans h.failAt, k.script.trans h.script⟩

theorem hostDrive_frame (levels : Nat) (s : State) : BusFrame s (hostDrive levels s) :=
  ⟨rfl, rfl, rfl, rfl, rfl, rfl, rfl, rfl, rfl⟩

theorem hostLatch_frame (s : State) : BusFrame s (hostLatch s) := by
  unfold hostLatch
  split <;> exact ⟨rfl, rfl, rfl, rfl, rfl, rfl, rfl, rfl, rfl⟩

theorem respStep_frame (s : State) : BusFrame s (respStep s) := by
  unfold respStep respSample forwardAddr fifoTryPush driveData releaseData
  dsimp only
  repeat' split
  all_goals exact ⟨rfl, rfl, rfl, rfl, rfl, rfl, rfl, rfl, rfl⟩

/-- What a whole read transaction leaves alone. -/
theorem hostRead_frame (a : Addr) (s : State) : BusFrame s (hostRead a s) := by
  rw [hostRead_eq]
  exact ((((hostDrive_frame _ s).trans (respStep_frame _)).trans (hostLatch_frame _)).trans (hostDrive_frame _ _)).trans
    (respStep_frame _)

/-- A sample step leaves Q alone, or appends one address and leaves TRIG set. -/
theorem respStep_q (s : State) : (respStep s).q = s.q ∨
    ∃ a : Addr, s.trig = false ∧ s.q.length < s.params.fifoDepth ∧ (respStep s).q = s.q ++ [forwardedWord a] ∧
      (respStep s).trig = true := by
  unfold respStep respSample forwardAddr fifoTryPush driveData releaseData
  dsimp only
  repeat' split
  all_goals first | exact .inl rfl | exact .inr ⟨_, by simpa using ‹¬s.trig = true›, ‹_›, rfl, rfl⟩

end Sys2Proof.Machine
end

