-- ==== Sys2Proof/Laws/Store.lean ====
section
/-! SUPPORT. What the config store's lookup answers, where its fields lie, and that no task reads MATCH or DCTL. -/

namespace Sys2Proof.Machine

/-! ### The lookup -/

theorem lookupRead_of_ok {p : Params} {flash : Memory} {a : Nat} (h : flashRangeOk p a 4 = true) :
    lookupRead p flash a = some (flashWord flash a) := by simp [lookupRead, h]

theorem lookupRead_of_not_ok {p : Params} {flash : Memory} {a : Nat} (h : flashRangeOk p a 4 = false) :
    lookupRead p flash a = none := by simp [lookupRead, h]

/-- The lookup reaches a tuple. -/
structure LookupReaches (p : Params) (flash : Memory) (page t : Nat) : Prop where
  pbOk : flashRangeOk p (pbAddr p) 4 = true
  page_eq : page = ctz32 (storePb p flash)
  page_lt : page < cfgPages
  tbOk : flashRangeOk p (tbAddr p page) 4 = true
  t_eq : t = ctz32 (storeTb p flash page)
  t_lt : t < cfgTuples
  slotvOk : flashRangeOk p (slotvAddr p page t) 4 = true

/-- Where it reaches one, the lookup answers what the tuple stands for. -/
theorem lookupSlot_of_reaches {p : Params} {flash : Memory} {page t : Nat} (h : LookupReaches p flash page t) :
    lookupSlot p flash = some (slotOfValue (storeSlotv p flash page t)) := by
  obtain ⟨hpb, rfl, hp, htb, rfl, ht, hv⟩ := h
  simp only [storePb, storeTb] at hp htb ht hv ⊢
  unfold lookupSlot
  rw [lookupRead_of_ok hpb]
  dsimp only
  rw [if_neg (Nat.not_le.mpr hp), lookupRead_of_ok htb]
  dsimp only
  rw [if_neg (Nat.not_le.mpr ht), lookupRead_of_ok hv]
  rfl

/-- Where it reaches none, the lookup answers nothing. -/
theorem lookupSlot_of_not_reaches {p : Params} {flash : Memory} (h : ∀ page t, ¬ LookupReaches p flash page t) :
    lookupSlot p flash = none := by
  unfold lookupSlot
  cases hpb : flashRangeOk p (pbAddr p) 4 with
  | false => rw [lookupRead_of_not_ok hpb]
  | true =>
    rw [lookupRead_of_ok hpb]
    dsimp only
    split
    · rfl
    · rename_i hp
      cases htb : flashRangeOk p (tbAddr p (ctz32 (flashWord flash (pbAddr p)))) 4 with
      | false => rw [lookupRead_of_not_ok htb]
      | true =>
        rw [lookupRead_of_ok htb]
        dsimp only
        split
        · rfl
        · rename_i ht
          cases hv : flashRangeOk p (slotvAddr p (ctz32 (flashWord flash (pbAddr p)))
              (ctz32 (flashWord flash (tbAddr p (ctz32 (flashWord flash (pbAddr p))))))) 4 with
          | false => rw [lookupRead_of_not_ok hv]; rfl
          | true => exact absurd ⟨hpb, rfl, Nat.not_le.mp hp, htb, rfl, Nat.not_le.mp ht, hv⟩ (h _ _)

/-- Everything `get_active_slot` does. -/
theorem getActiveSlot_cases (s : State) :
    (∃ n, lookupSlot s.params s.flash = some n ∧ getActiveSlot s = (n, s)) ∨
    (lookupSlot s.params s.flash = none ∧
      getActiveSlot s = ((Config.freeSlot s.draws).val + 1, { s with draws := s.draws + 1 })) := by
  unfold getActiveSlot
  cases lookupSlot s.params s.flash with
  | some n => exact .inl ⟨n, rfl, rfl⟩
  | none => exact .inr ⟨rfl, rfl⟩

/-! ### The fields lie inside their pages -/

theorem cfgLayoutLegal_bounds {l : CfgLayout} (h : cfgLayoutLegal l = true) :
    l.pagesBitmap + 4 ≤ pageSize ∧ l.tuplesBitmap + 4 ≤ pageSize ∧
    ∀ t < cfgTuples, l.slotField + l.tupleStride * t + 4 ≤ pageSize := by
  simp only [cfgLayoutLegal, Bool.and_eq_true, List.all_eq_true, decide_eq_true_eq] at h
  refine ⟨h.1 _ (by simp [cfgOffsets]), h.1 _ (by simp [cfgOffsets]), fun t ht => h.1 _ ?_⟩
  simp only [cfgOffsets, List.mem_append, List.mem_map, List.mem_range]
  exact .inr ⟨t, ht, rfl⟩

/-- Every field of a sector that may be read may be read. -/
theorem fields_readable {p : Params} (hl : cfgLayoutLegal p.cfgLayout = true)
    (hr : flashRangeOk p p.configSector sectorSize = true) {page t : Nat} (hp : page < cfgPages) (ht : t < cfgTuples) :
    flashRangeOk p (pbAddr p) 4 = true ∧ flashRangeOk p (tbAddr p page) 4 = true ∧
    flashRangeOk p (slotvAddr p page t) 4 = true := by
  obtain ⟨h1, h2, h3⟩ := cfgLayoutLegal_bounds hl
  have h3 := h3 t ht
  simp only [cfgPages, pageSize] at *
  refine ⟨flashRangeOk_sub hr ?_ ?_, flashRangeOk_sub hr ?_ ?_, flashRangeOk_sub hr ?_ ?_⟩ <;>
    simp only [pbAddr, tbAddr, slotvAddr, cfgPageAddr, slotOffset, pageSize, sectorSize] <;> omega

/-! ### No task reads MATCH or DCTL -/

/-- A state with its MATCH and DCTL replaced. -/
def State.withControl (m : MatchState) (d : Dctl) (s : State) : State := { s with matcher := m, dctl := d }

def Res.map (g : State → State) : Res → Res
  | .done s => .done (g s)
  | .stop s r => .stop (g s) r

def Progress.map (g : State → State) : Progress → Progress
  | .cont todo s => .cont todo (g s)
  | .stop s r => .stop (g s) r

section
variable (m : MatchState) (d : Dctl)

theorem Res.bind_withControl {x y : Res} {f : State → Res} (hx : y = x.map (State.withControl m d))
    (hf : ∀ s, f (s.withControl m d) = (f s).map (State.withControl m d)) :
    y.bind f = (x.bind f).map (State.withControl m d) := by
  subst hx
  cases x with
  | done s => exact hf s
  | stop s r => rfl

theorem checkRange_withControl (a n : Nat) (s : State) :
    checkRange a n (s.withControl m d) = (checkRange a n s).map (State.withControl m d) := by
  rcases checkRange_cases a n s with ⟨h, e⟩ | ⟨h, e⟩ <;> rw [e]
  · exact checkRange_of_ok h
  · exact checkRange_of_not_ok h

theorem flashAttempt_withControl (prim : FlashPrim) (a : Nat) (s : State) :
    flashAttempt prim a (s.withControl m d) = (flashAttempt prim a s).map (State.withControl m d) := by
  cases s with
  | mk _ _ _ _ _ _ _ _ _ _ _ _ _ _ failAt => rcases failAt with _ | _ | n <;> rfl

theorem flashRead_withControl (a n : Nat) (s : State) :
    flashRead a n (s.withControl m d) = (flashRead a n s).map (State.withControl m d) :=
  Res.bind_withControl m d (checkRange_withControl m d a n s) fun s => flashAttempt_withControl m d .read a s

theorem flashProgram_withControl (a : Nat) (data : List Byte) (s : State) :
    flashProgram a data (s.withControl m d) = (flashProgram a data s).map (State.withControl m d) :=
  Res.bind_withControl m d (checkRange_withControl m d a data.length s) fun s =>
    Res.bind_withControl m d (flashAttempt_withControl m d .program a s) fun _ => rfl

theorem flashErase_withControl (a : Nat) (s : State) :
    flashErase a (s.withControl m d) = (flashErase a s).map (State.withControl m d) :=
  Res.bind_withControl m d (checkRange_withControl m d a sectorSize s) fun s =>
    Res.bind_withControl m d (flashAttempt_withControl m d .erase a s) fun _ => rfl

theorem copySegment_withControl (g : Segment) (s : State) :
    copySegment g (s.withControl m d) = (copySegment g s).map (State.withControl m d) := by
  cases s with
  | mk _ _ _ _ _ _ _ _ _ _ _ _ _ _ failAt =>
    cases failAt with
    | none => rfl
    | some n =>
      simp only [copySegment, State.withControl]
      split <;> rfl

theorem copySegments_withControl (gs : List Segment) (s : State) :
    copySegments gs (s.withControl m d) = (copySegments gs s).map (State.withControl m d) := by
  induction gs generalizing s with
  | nil => rfl
  | cons g gs ih => exact Res.bind_withControl m d (copySegment_withControl m d g s) ih

theorem getActiveSlot_withControl (s : State) :
    getActiveSlot (s.withControl m d) = ((getActiveSlot s).1, (getActiveSlot s).2.withControl m d) := by
  have h : lookupSlot (s.withControl m d).params (s.withControl m d).flash = lookupSlot s.params s.flash := rfl
  unfold getActiveSlot
  rw [h]
  cases lookupSlot s.params s.flash <;> rfl

theorem Res.thenTasks_withControl {x y : Res} {f : State → List Task} (hx : y = x.map (State.withControl m d))
    (hf : ∀ s, f (s.withControl m d) = f s) : y.thenTasks f = (x.thenTasks f).map (State.withControl m d) := by
  subst hx
  cases x with
  | done s => simp only [Res.map, Res.thenTasks, Progress.map, hf]
  | stop s r => rfl

theorem Task.whole_withControl (t : Task) (s : State) :
    t.whole (s.withControl m d) = (t.whole s).map (State.withControl m d) := by
  have read (a n : Nat) : flashRead a n (s.withControl m d) = (flashRead a n s).map (State.withControl m d) :=
    flashRead_withControl m d a n s
  have nothing (u : State) : (fun _ : State => ([] : List Task)) (u.withControl m d) = [] := rfl
  cases t <;> simp only [Task.whole]
  case sampleStrap => rfl
  case startResponder => rfl
  case bytes cells => rfl
  case loadActive n => rw [getActiveSlot_withControl]; rfl
  case status => rw [getActiveSlot_withControl]; rfl
  case storePages slot =>
    unfold storePagesStep
    rw [show (s.withControl m d).params = s.params from rfl, read]
    cases flashRead (pbAddr s.params) 4 s with
    | stop u r => rfl
    | done u =>
      simp only [Res.map, State.withControl]
      split <;> rfl
  case storeTuples slot pb =>
    unfold storeTuplesStep
    rw [show (s.withControl m d).params = s.params from rfl, read]
    cases flashRead (tbAddr s.params (ctz32 pb)) 4 s with
    | stop u r => rfl
    | done u =>
      simp only [Res.map, State.withControl]
      split
      · rfl
      · split <;> rfl
  case storePage slot pb page p2 t2 =>
    unfold storePageStep
    rw [show (s.withControl m d).params = s.params from rfl, read]
    cases flashRead (cfgPageAddr s.params p2) pageSize s with
    | stop u r => rfl
    | done u => rfl
  case check a n => exact Res.thenTasks_withControl m d (checkRange_withControl m d a n s) nothing
  case copy segs => exact Res.thenTasks_withControl m d (copySegments_withControl m d segs s) nothing
  case program a data => exact Res.thenTasks_withControl m d (flashProgram_withControl m d a data s) nothing
  case programPage a =>
    exact Res.thenTasks_withControl m d (flashProgram_withControl m d a (Memory.readList s.img 0 pageSize) s) nothing
  case erase a => exact Res.thenTasks_withControl m d (flashErase_withControl m d a s) nothing

theorem runWith_withControl {f : Task → State → Res}
    (hf : ∀ t s, f t (s.withControl m d) = (f t s).map (State.withControl m d)) (ts : List Task) (s : State) :
    runWith f ts (s.withControl m d) = (runWith f ts s).map (State.withControl m d) := by
  induction ts generalizing s with
  | nil => rfl
  | cons t ts ih => exact Res.bind_withControl m d (hf t s) ih

theorem Task.run_withControl (depth : Nat) (t : Task) (s : State) :
    Task.run depth t (s.withControl m d) = (Task.run depth t s).map (State.withControl m d) := by
  induction depth generalizing t s with
  | zero => rfl
  | succ depth ih =>
    rw [Task.run_succ, Task.run_succ, Task.whole_withControl]
    cases t.whole s with
    | stop u r => rfl
    | cont todo u => exact runWith_withControl m d ih todo u

/-- Tasks run alike whatever MATCH and DCTL hold, and carry both along. -/
theorem runTasks_withControl (ts : List Task) (s : State) :
    runTasks ts (s.withControl m d) = (runTasks ts s).map (State.withControl m d) :=
  runWith_withControl m d (Task.run_withControl m d 4) ts s

end

end Sys2Proof.Machine
end

