-- ==== Sys2Proof/Tests/Slice0.lean ====
section
/-! SUPPORT. Small tests with expected values from spec/95_test_vectors.md (the vector is named in each docstring), and for every
statement with hypotheses a state and operands that meet them. -/

namespace Sys2Proof.Tests

open Sys2Proof Sys2Proof.Machine

/-! ### Helpers -/

/-- What is seen of the next state, if there is one. -/
def seen {α : Type} (f : State → α) : Host.Outcome State Fault Refusal → Option α
  | .next s => some (f s)
  | .fault _ => none
  | .refused _ => none

/-- Boot is done and Q is empty (for the example configuration and an erased chip). -/
def serving : State := { State.reset with run := true, dctl := .recv }

/-- A command word comes next. -/
def armed : State := { serving with matcher := .armed }

/-- The image bytes of vector B1. -/
def imgB1 : Memory := [(0x100, 0x12#8), (0x101, 0x34#8)]

/-- Slot 1 and slot 3 with a few bytes of their own. -/
def slotBytes : Memory := [(0x80000, 0x11#8), (0x80001, 0x22#8), (0x180000, 0x33#8), (0x180008, 0xC3#8), (0x180009, 0x5A#8)]

/-- The config sector after the last tuple of the last page was written (vector CS5), slot 4 in it. -/
def fullStore : Memory :=
  [(0x7F000, 0x00#8), (0x7F001, 0x80#8), (0x7FF00, 0x00#8), (0x7FF01, 0x80#8), (0x7FF04, 0x00#8), (0x7FF05, 0x00#8),
   (0x7FF06, 0x00#8), (0x7FF07, 0xC0#8), (0x7FFF8, 0x04#8), (0x7FFF9, 0x00#8), (0x7FFFA, 0x00#8), (0x7FFFB, 0x00#8)]

/-- A config sector with no page bit in 0..15 (vector CS10). -/
def noPage : Memory := [(0x7F000, 0x00#8), (0x7F001, 0x00#8)]

/-- A config sector whose active page has no tuple bit in 0..30. -/
def noTuple : Memory := [(0x7F004, 0x00#8), (0x7F005, 0x00#8), (0x7F006, 0x00#8), (0x7F007, 0x80#8)]

/-! ### Well-formedness -/

theorem test_wellFormed_refuses :
    (Instr.otherToken 0x00082).wellFormed = false ∧ (Instr.otherToken 0x0044A).wellFormed = false ∧
    (Instr.otherToken 0x3FA7F).wellFormed = false ∧ (Instr.reservedOp8to15 7 0).wellFormed = false := by decide

theorem test_wellFormed_accepts :
    (Instr.otherToken 0x00080).wellFormed = true ∧ (Instr.reservedOp8to15 8 0x3FFF).wellFormed = true := by decide

/-! ### Decoding and encoding, words written out from spec/30_encoding.md -/

theorem test_decode_bus : decode .bus 0b111010101111001101#18 = .rd 0x3ABCD := by decide
theorem test_decode_tokens :
    decode .token 0b000000000010000010#18 = .magic0 ∧ decode .token 0b000000010001001010#18 = .magic1 ∧
    decode .token 0b111111101001111111#18 = .magic2 ∧ decode .token 0b000000000010000000#18 = .otherToken 0x80 := by decide
theorem test_decode_image_commands :
    decode .command 0b000000000000000011#18 = .updateActiveSlot 3 ∧
    decode .command 0b000111111111111111#18 = .writeStatusToSram 0x3FFF ∧
    decode .command 0b001000000000000000#18 = .restorePageToSram 0 ∧
    decode .command 0b001100000000000001#18 = .copyPageHostToSram 1 := by decide
theorem test_decode_flash_commands :
    decode .command 0b010010100000000000#18 = .copyPageFlashToSram 0x2800 ∧
    decode .command 0b010110100000000000#18 = .copyPageSramToFlash 0x2800 ∧
    decode .command 0b011000001010000101#18 = .eraseFlashSector 0x285 := by decide
/-- Vectors EN8, EN5. -/
theorem test_decode_reserved :
    decode .command 0b011100000000000000#18 = .reservedOp7 0 ∧ decode .command 0b100000000000000000#18 = .reservedOp8to15 8 0 ∧
    decode .command 0b111111101001111111#18 = .reservedOp8to15 15 0x3A7F := by decide
/-- Vector EN10. -/
theorem test_decode_payload : decode .payload 0b111010101111001101#18 = .payload 3 0xABCD := by decide
/-- Vectors EN1 to EN4. -/
theorem test_encodeCommand : encodeCommand 0 3 = 0x00003 ∧ encodeCommand 1 0 = 0x04000 ∧ encodeCommand 6 0x4285 = 0x18285 ∧
    encodeCommand 15 0x3FFF = 0x3FFFF := by decide
/-- Vector EN9. -/
theorem test_forwardedWord : forwardedWord 0x3FA7F = 0x0003FA7F := by decide
theorem test_decode_rejects_wide_patterns : decodeTableWord 24 0x40000 = none ∧ decodeTableWord 24 0x3FA7F = some .magic2 ∧
    decodeTableWord 24 0x18285 = some (.eraseFlashSector 0x285) := by decide

/-! ### Pins -/

/-- Vectors PL1 to PL3. -/
theorem test_pins_address :
    pinsAddr exampleParams .contiguous 0x2A5A5 = 0x2A5A5 ∧ pinsAddr exampleParams .split 0x1FFFF = 0x1FFFF ∧
    pinsAddr exampleParams .split (2 ^ 39) = 0x20000 := by decide
/-- Vectors PL4 to PL6. -/
theorem test_pins_qualifying :
    qualifying exampleParams (snapshotOf exampleParams .contiguous (2 ^ 37)) = true ∧
    qualifying { exampleParams with ceQualifies := true } (snapshotOf exampleParams .contiguous (2 ^ 37)) = false ∧
    qualifying exampleParams (snapshotOf exampleParams .contiguous (2 ^ 36)) = false := by decide
/-- Vector PL7. -/
theorem test_strap : layoutOfStrap exampleParams (2 ^ 38) = .split ∧ layoutOfStrap exampleParams 0 = .contiguous := by decide

/-! ### RD -/

/-- Vectors B1, B3. -/
theorem test_rd_reads : seen (fun t => (t.latched, t.q, t.dout, t.ddir, t.trig)) (exec (.rd 0x80) { serving with img := imgB1 }) =
    some ([0x1234], [0x80], 0x1234, .input, false) := by decide +kernel
/-- Vector B5. -/
theorem test_rd_full_queue : seen (fun t => (t.latched, t.q.length))
    (exec (.rd 0x82) { serving with img := imgB1, q := [1, 2, 3, 4, 5, 6, 7, 8] }) = some ([0xFFFF], 8) := by decide +kernel

/-! ### Tokens -/

/-- Vectors M3, M7. -/
theorem test_magic0 : seen State.matcher (exec .magic0 { serving with matcher := .s2 }) = some .s1 ∧
    seen State.matcher (exec .magic0 armed) = some .s0 := by decide
/-- Vectors M13, M14. -/
theorem test_magic1 : seen State.matcher (exec .magic1 { serving with matcher := .s1 }) = some .s2 ∧
    seen State.matcher (exec .magic1 { serving with matcher := .s2 }) = some .s0 := by decide
/-- Vectors M11, M10. -/
theorem test_magic2 : seen State.matcher (exec .magic2 { serving with matcher := .s2 }) = some .armed ∧
    seen State.matcher (exec .magic2 serving) = some .s0 := by decide
/-- Vectors M2, M9. -/
theorem test_otherToken : seen State.matcher (exec (.otherToken 0x12345) { serving with matcher := .s2 }) = some .s0 ∧
    seen State.matcher (exec (.otherToken 0x00080) { serving with matcher := .s1 }) = some .s0 := by decide

/-! ### Image commands -/

/-- Vector IC4: the config bytes, and two bytes of slot 3. -/
theorem test_updateActiveSlot : seen (fun t => (Memory.readList t.flash 0x7F004 4, Memory.readList t.flash 0x7F010 4,
      Memory.readList t.img 8 2, t.dctl))
    (exec (.updateActiveSlot 3) { armed with flash := slotBytes }) =
    some ([0xFE, 0xFF, 0xFF, 0xFF], [3, 0, 0, 0], [0xC3, 0x5A], .recv) := by decide +kernel
/-- Vectors IC2, CS11, IC11. -/
theorem test_updateActiveSlot_stops : seen State.dctl (exec (.updateActiveSlot 8) armed) = some .recv ∧
    seen State.dctl (exec (.updateActiveSlot 3) { armed with flash := noPage }) = some (.faulted (.cfgCorrupt 16)) ∧
    seen (fun t => (t.img, Memory.readList t.flash 0x7F010 4, t.dctl))
      (exec (.updateActiveSlot 7) { armed with img := imgB1, params := { exampleParams with flashSizeMb := 2 } }) =
      some (imgB1, [7, 0, 0, 0], .faulted (.flashRange 0x380000)) := by
  decide +kernel
/-- Vector IC6. -/
theorem test_writeStatusToSram : seen (fun t => (Memory.readList t.img 0 10, (List.range 5).map fun w => busWord t.img (BitVec.ofNat 18 w)))
    (exec (.writeStatusToSram 0x3FFF) armed) =
    some ([0x52, 0x50, 0x52, 0x4D, 0x0A, 1, 2, 3, 0x10, 1], [0x5250, 0x524D, 0x0A01, 0x0203, 0x1001]) := by decide +kernel
/-- Vector IC8. -/
theorem test_restorePageToSram : seen (fun t => (Memory.readList t.img 0 2, Memory.read t.img 257, Memory.read t.img 258))
    (exec (.restorePageToSram 0) { armed with flash := slotBytes, img := [(0, 0x52#8), (257, 0x01#8), (258, 0x02#8)] }) =
    some ([0x11, 0x22], 0xFF, 0x02) := by decide +kernel
/-- Vector IC9. -/
theorem test_copyPageHostToSram : seen (fun t => (t.matcher, t.dctl)) (exec (.copyPageHostToSram 0) armed) =
    some (.s0, .hostCopy 0 []) := by decide
/-- Vector IC9. -/
theorem test_payload : seen (fun t => (Memory.readList t.img 0 2, busWord t.img 0, t.dctl))
    (exec (.payload 3 0xABCD) { serving with dctl := .hostCopy 0 [] }) = some ([0xAB, 0xCD], 0xABCD, .hostCopy 1 []) := by decide
/-- Vectors IC9, IC10: the last word. -/
theorem test_payload_last : seen (fun t => (Memory.readList t.img 254 2, t.dctl))
    (exec (.payload 0 0x0082) { serving with dctl := .hostCopy 127 [] }) = some ([0x00, 0x82], .recv) := by decide

/-! ### Flash commands -/

/-- Vector FC1. -/
theorem test_copyPageFlashToSram : seen (fun t => (Memory.readList t.img 0 2, Memory.readList t.img 256 3, t.dctl))
    (exec (.copyPageFlashToSram 0x2800) { armed with flash := [(0x280000, 0xAB#8), (0x280001, 0xCD#8)], img := [(258, 0x77#8)] }) =
    some ([0xAB, 0xCD], [0x00, 0x00, 0x77], .recv) := by decide +kernel
/-- Vector FC6. -/
theorem test_copyPageFlashToSram_firmware : seen (fun t => (busWord t.img sentinelAddr, t.dctl))
    (exec (.copyPageFlashToSram 0) armed) = some (0xFFFF, .faulted (.flashRange 0)) := by decide +kernel
/-- Vector FC3. -/
theorem test_copyPageSramToFlash : seen (fun t => (Memory.read t.flash 0x280000, busWord t.img sentinelAddr))
    (exec (.copyPageSramToFlash 0x2800) { armed with flash := [(0x280000, 0xF0#8)], img := [(0, 0x3C#8)] }) =
    some (0x30, 0x0000) := by decide +kernel
/-- Vector FC9. -/
theorem test_copyPageSramToFlash_fails : seen (fun t => (Memory.read t.flash 0x280000, busWord t.img sentinelAddr, t.dctl))
    (exec (.copyPageSramToFlash 0x2800) { armed with failAt := some 0, img := [(0, 0x3C#8)] }) =
    some (0xFF, 0xFFFF, .faulted (.flashFail .program 0x280000)) := by decide +kernel
/-- Vectors FC4, FC5. -/
theorem test_eraseFlashSector : seen (fun t => (t.flash, busWord t.img sentinelAddr))
    (exec (.eraseFlashSector 0x280) { armed with flash := [(0x27FFFF, 0#8), (0x280000, 0#8), (0x280FFF, 0#8), (0x281000, 0#8)] }) =
    some ([(0x27FFFF, 0#8), (0x281000, 0#8)], 0x0000) := by decide +kernel
/-- Program P5. -/
theorem test_eraseFlashSector_firmware : seen (fun t => (busWord t.img sentinelAddr, t.dctl))
    (exec (.eraseFlashSector 5) armed) = some (0xFFFF, .faulted (.flashRange 0x5000)) := by decide +kernel

/-! ### Reserved words -/

/-- Vector M12. -/
theorem test_reservedOp7 : seen id (exec (.reservedOp7 0) armed) = some serving := by decide
/-- Vector X6. -/
theorem test_reservedOp8to15 : seen id (exec (.reservedOp8to15 9 0) armed) = some serving := by decide

/-! ### The config store -/

/-- Vectors CS0, CS5 with slot 4. -/
theorem test_lookup : lookupSlot exampleParams [] = some 1 ∧ lookupSlot exampleParams fullStore = some 4 := by decide +kernel
/-- R67, R222: the lookup needs the fields it reads and no other: firmware over pages 1 to 15 of the sector, and over TB[0]. -/
theorem test_lookup_reads_its_fields : lookupSlot { exampleParams with firmware := [{ base := 0x7F100, size := 0xF00 }] } [] = some 1 ∧
    lookupSlot { exampleParams with firmware := [{ base := 0x7F007, size := 1 }] } [] = none := by decide +kernel
/-- Vectors CS5, CS6: the update after the last tuple of the last page erases the sector. -/
theorem test_store_wraps : seen (fun t => Memory.readList t.flash 0x7F000 12)
    (exec (.updateActiveSlot 6) { armed with flash := fullStore }) =
    some [0xFF, 0xFF, 0xFF, 0xFF, 0xFF, 0xFF, 0xFF, 0xFF, 6, 0, 0, 0] := by decide +kernel

/-! ### Boot -/

/-- Vector X2. -/
theorem test_boot : seen (fun t => (Memory.readList t.img 0 2, t.run, t.dctl, t.layout))
    (.next (settle { State.reset with flash := slotBytes })) = some ([0x11, 0x22], true, .recv, .contiguous) := by
  decide +kernel
/-- Vector X1. -/
theorem test_powerCycle : let t := powerCycle [] { serving with q := [1], flash := slotBytes, trig := true }
    t.q = [] ∧ t.trig = false ∧ t.ddir = .input ∧ t.run = false ∧ t.matcher = .s0 ∧ t.dctl = .boot bootTasks ∧
    t.flash = slotBytes := by decide

/-! ### Witnesses: states and operands that meet the hypotheses of each statement -/

/-- A state whose memories are canonical, with a page copy under way. -/
def copying : State :=
  let segs : List Segment := [{ dst := 0, src := 0x280000, len := 16 }, { dst := 32, src := 0x280020, len := 224 }]
  { serving with dctl := .exec .copyPageFlashToSram 0x2800 [.copy segs, .bytes sentinelIdle] }

/-- Payload word `i` comes next, with nothing due. -/
def hostCopying (i : Nat) : State := { serving with dctl := .hostCopy i [] }

/-- The first magic word is in Q and DISP moves next. -/
def oneWord : State := { serving with q := [0x82#32], script := [.run] }

/-- A state whose next step changes nothing but the script. -/
def quiet : State := { serving with script := [.fate none] }

/-- HOST asserts OE at address 0x00010. -/
def reading : State := { serving with pins := 2 ^ 37 + 0x10 }

/-- A faulted block with a word in Q. -/
def stopped : State := { serving with dctl := .faulted (.flashRange 0), q := [1], script := [.run] }

/-- The store says slot 7 and the flash ends before it (vector IC11). -/
def shortFlash : State := { State.reset with flash := fullStore.take 8 ++ [(0x7FFF8, 0x07#8), (0x7FFF9, 0x00#8), (0x7FFFA, 0x00#8), (0x7FFFB, 0x00#8)], params := { exampleParams with flashSizeMb := 2 } }

theorem wit_DecodeOfEncode : (Instr.otherToken 0x00080).wellFormed = true ∧
    (Instr.reservedOp8to15 8 0).wellFormed = true ∧ (Instr.reservedOp8to15 15 0x3FFF).wellFormed = true := by decide

theorem wit_OpcodeMap : (0x00000#18 &&& 0x3C000#18 = 0x00000#18 ∧ 0x03FFF#18 &&& 0x3C000#18 = 0x00000#18) ∧
    0x07FFF#18 &&& 0x3C000#18 = 0x04000#18 ∧ 0x08000#18 &&& 0x3C000#18 = 0x08000#18 ∧
    0x0FFFF#18 &&& 0x3C000#18 = 0x0C000#18 ∧ 0x13FFF#18 &&& 0x3C000#18 = 0x10000#18 ∧
    0x14000#18 &&& 0x3C000#18 = 0x14000#18 ∧ 0x1BFFF#18 &&& 0x3C000#18 = 0x18000#18 ∧
    0x1FFFF#18 &&& 0x3C000#18 = 0x1C000#18 ∧ 0x20000#18 &&& 0x20000#18 = 0x20000#18 ∧
    0x3FFFF#18 &&& 0x20000#18 = 0x20000#18 := by decide

theorem wit_StepRunsDecodedInstruction :
    (oneWord.script = .run :: [] ∧ oneWord.context = some .token ∧ oneWord.q = 0x82#32 :: []) ∧
    (State.withFetchWord serving 24 0x18285).script = .run :: [] ∧
    (placeInstr (.rd 0x80) serving).script = .read 0x80 :: [] := by decide

theorem wit_WholeInstrIsStartThenSettle : serving.context = some Instr.magic0.context ∧
    armed.context = some (Instr.reservedOp7 0).context ∧
    (hostCopying 127).context = some (Instr.payload 0 0).context := ⟨rfl, rfl, rfl⟩

theorem wit_copying_MemoryInv : MemoryInv copying where
  imgWf := by decide
  imgBelow := by decide
  flashWf := by decide
  flashBelow := by decide
  todo := by decide +kernel
  due := trivial

theorem wit_ByteOrderDoesNotMatter : MemoryInv copying ∧ noFlashFailure copying ∧
    (∀ i due, copying.dctl ≠ .hostCopy i due) ∧ copying.dctl ≠ .recv :=
  ⟨wit_copying_MemoryInv, rfl, fun _ _ => Dctl.noConfusion, Dctl.noConfusion⟩

theorem wit_MagicTokensMoveMatcher : serving.matcher ≠ .armed ∧ armed.matcher = .armed := by decide

theorem wit_OtherTokenResetsMatcher : (0x3FFFF : Addr) ≠ 0x00082 ∧ (0x3FFFF : Addr) ≠ 0x0044A ∧ (0x3FFFF : Addr) ≠ 0x3FA7F ∧
    serving.matcher ≠ .armed ∧
    armed.matcher = .armed := by decide

theorem wit_MagicSequenceDispatches :
    let s := { serving with matcher := .s2, q := [0x82#32, 0x44A#32, 0x3FA7F#32, 0x4000#32], script := [.run, .run, .run, .run] }
    s.dctl = .recv ∧ s.matcher ≠ .armed ∧
    s.q = [forwardedWord magicToken0, forwardedWord magicToken1, forwardedWord magicToken2, forwardedWord 0x4000] ++ [] ∧
    s.script = [.run, .run, .run, .run] ++ [] := by decide

theorem wit_OnlyMagic2InS2Arms :
    let s := { serving with matcher := .s2, q := [0x3FA7F#32], script := [.run] }
    step s = .next { s with matcher := .armed, q := [], script := [] } := rfl

theorem wit_SilentCommandsHaveNoEffect : (0 : Arg).toNat = 0 ∧ 8 ≤ (8 : Arg).toNat ∧ 8 ≤ (0x3FFF : Arg).toNat := by decide

theorem wit_StoreBitOperations : (0#32 = 0 ∧ 0x80000000#32 ≠ 0) ∧ (31 : Nat) < 32 ∧ (0 : Nat) < 32 := by decide

/-- Vectors CS1, CS8 to CS10: each case of the lookup, and each field out of the lookup's reach. -/
theorem wit_LookupAnswer :
    (exampleParams.cfgLayout = { pagesBitmap := 0, tuplesBitmap := 4, slotField := 8, tupleStride := 8 } ∧
      exampleParams.slotBases = [0x080000, 0x100000, 0x180000, 0x200000, 0x280000, 0x300000, 0x380000]) ∧
    (ctz32 (storePb exampleParams fullStore) = 15 ∧ ctz32 (storeTb exampleParams fullStore 15) = 30 ∧
      flashRangeOk exampleParams (pbAddr exampleParams) 4 = true ∧ flashRangeOk exampleParams (tbAddr exampleParams 15) 4 = true ∧
      flashRangeOk exampleParams (slotvAddr exampleParams 15 30) 4 = true) ∧
    ctz32 (storePb exampleParams noPage) = 16 ∧
    (ctz32 (storePb exampleParams noTuple) = 0 ∧ ctz32 (storeTb exampleParams noTuple 0) = 31) ∧
    (let p := { exampleParams with configSector := 0x3F000 }; flashRangeOk p (pbAddr p) 4 = false) ∧
    (let p := { exampleParams with firmware := [{ base := 0x7F007, size := 1 }] }; flashRangeOk p (tbAddr p 0) 4 = false) ∧
    let p := { exampleParams with firmware := [{ base := 0x7F008, size := 1 }] }
    flashRangeOk p (slotvAddr p 0 0) 4 = false := by decide +kernel

/-- Also with firmware over all the sector's other bytes. -/
theorem wit_ErasedSectorIsSlotOne : cfgLayoutLegal exampleParams.cfgLayout = true ∧
    (∀ j < sectorSize, Memory.read [] (exampleParams.configSector + j) = erasedByte) ∧
    ∀ p ∈ [exampleParams, { exampleParams with firmware := [{ base := 0x7F00C, size := 0xFF4 }] }],
      flashRangeOk p (pbAddr p) 4 = true ∧ flashRangeOk p (tbAddr p 0) 4 = true ∧ flashRangeOk p (slotvAddr p 0 0) 4 = true :=
  ⟨by decide +kernel, fun _ _ => rfl, by decide +kernel⟩

theorem wit_StoreAt_first : StoreAt exampleParams [] 0 0 where
  pageLt := by decide
  tupleLt := by decide
  pb := by decide +kernel
  tb := by decide +kernel
  tuples := fun t _ _ => by
    unfold storeSlotv flashWord wordAt Memory.readList
    simp [List.range, List.range.loop, Memory.read, erasedByte, erasedWord]
  pages := fun _ _ _ _ _ => rfl

theorem wit_StoreAt_last : StoreAt exampleParams fullStore 15 30 where
  pageLt := by decide
  tupleLt := by decide
  pb := by decide +kernel
  tb := by decide +kernel
  tuples := fun t h k => by simp only [cfgTuples] at k; omega
  pages := fun p h k => by simp only [cfgPages] at k; omega

theorem wit_StoreUpdateAdvances : cfgLayoutLegal serving.params.cfgLayout = true ∧
    flashRangeOk serving.params serving.params.configSector sectorSize = true ∧ noFlashFailure serving ∧
    StoreAt serving.params serving.flash 0 0 ∧ validSlot 1 = true ∧ validSlot 7 = true ∧ storeErases 0 0 = false ∧
    StoreAt serving.params fullStore 15 30 ∧ storeErases 15 30 = true :=
  ⟨by decide +kernel, by decide +kernel, rfl, wit_StoreAt_first, rfl, rfl, rfl, wit_StoreAt_last, rfl⟩

theorem wit_CorruptStoreFaults : validSlot (7 : Arg).toNat = true ∧
    flashRangeOk serving.params (pbAddr serving.params) 4 = true ∧ noFlashFailure serving ∧
    ctz32 (storePb exampleParams noPage) = 16 ∧
    (ctz32 (storePb exampleParams noTuple) = 0 ∧ flashRangeOk serving.params (tbAddr serving.params 0) 4 = true ∧
      ctz32 (storeTb exampleParams noTuple 0) = 31) := by decide +kernel

/-- The failure still ahead when a part is done; nothing where it stopped. -/
def failAhead : Res → Option (Option Nat)
  | .done s => some s.failAt
  | .stop _ _ => none

theorem exists_done {x : Res} {f : Option Nat} (h : failAhead x = some f) : ∃ u, x = .done u ∧ u.failAt = f := by
  cases x with
  | done u => exact ⟨u, rfl, Option.some.inj h⟩
  | stop u r => cases h

theorem exists_stop {x : Res} (h : failAhead x = none) : ∃ u r, x = .stop u r := by
  cases x with
  | done u => cases h
  | stop u r => exact ⟨u, r, rfl⟩

theorem wit_UpdateActiveSlotReloads : validSlot (1 : Arg).toNat = true ∧ validSlot (7 : Arg).toNat = true ∧
    cfgLayoutLegal serving.params.cfgLayout = true ∧
    flashRangeOk serving.params serving.params.configSector sectorSize = true ∧
    flashRangeOk serving.params (slotBase serving.params 1) romBytes = true ∧
    flashRangeOk serving.params (slotBase serving.params 7) romBytes = true ∧ noFlashFailure serving ∧
    ctz32 (storePb serving.params serving.flash) < 16 ∧
    ctz32 (storeTb serving.params serving.flash (ctz32 (storePb serving.params serving.flash))) < 31 := by decide +kernel

/-- A store update that a failing primitive stops; the config sector in the firmware; the first read failing; vector IC11; and
the first and the last read of a reload failing, after the four primitives of the store update. -/
theorem wit_UpdateActiveSlotReloads_faults :
    (∃ u r, runTasks [.storePages 7] { serving with failAt := some 3 } = .stop u r) ∧
    (let p := { exampleParams with configSector := 0x3F000 }; flashRangeOk p (pbAddr p) 4 = false) ∧
    (flashRangeOk serving.params (pbAddr serving.params) 4 = true ∧ { serving with failAt := some 0 }.failAt = some 0) ∧
    (let s := { serving with params := { exampleParams with flashSizeMb := 2 } }
     (∃ u, runTasks [.storePages 7] s = .done u ∧ u.failAt = none) ∧ flashRangeOk s.params (slotBase s.params 7) romBytes = false) ∧
    ∀ n ∈ [0, romBytes - 1], ∃ u, runTasks [.storePages 7] { serving with failAt := some (4 + n) } = .done u ∧ u.failAt = some n := by
  have reload : ∀ n ∈ [0, romBytes - 1],
      failAhead (runTasks [.storePages 7] { serving with failAt := some (4 + n) }) = some (some n) := by decide +kernel
  exact ⟨exists_stop (by decide +kernel), by decide +kernel, by decide +kernel,
    ⟨exists_done (by decide +kernel), by decide +kernel⟩, fun n hn => exists_done (reload n hn)⟩

theorem wit_SlotSwitchIsRemembered : validSlot (7 : Arg).toNat = true ∧ cfgLayoutLegal serving.params.cfgLayout = true ∧
    flashRangeOk serving.params serving.params.configSector sectorSize = true ∧
    flashRangeOk serving.params (slotBase serving.params 7) romBytes = true ∧ noFlashFailure serving ∧
    StoreAt serving.params serving.flash 0 0 :=
  ⟨rfl, by decide +kernel, by decide +kernel, by decide +kernel, rfl, wit_StoreAt_first⟩

theorem wit_SlotSwitchSurvivesPowerCycle : validSlot (3 : Arg).toNat = true ∧ cfgLayoutLegal serving.params.cfgLayout = true ∧
    flashRangeOk serving.params serving.params.configSector sectorSize = true ∧
    flashRangeOk serving.params (slotBase serving.params 3) romBytes = true ∧ noFlashFailure serving ∧
    StoreAt serving.params fullStore 15 30 :=
  ⟨rfl, by decide +kernel, by decide +kernel, by decide +kernel, rfl, wit_StoreAt_last⟩

/-- Vector IC11 has the second case: the store says slot 7, the flash ends before it. -/
theorem wit_RestorePageReloads : noFlashFailure serving ∧
    flashRangeOk serving.params (slotBase serving.params (getActiveSlot serving).1) 258 = true ∧
    flashRangeOk shortFlash.params (slotBase shortFlash.params (getActiveSlot shortFlash).1) 258 = false ∧
    (let s := { serving with failAt := some 257 }
     s.failAt = some 257 ∧ 257 < 258 ∧ flashRangeOk s.params (slotBase s.params (getActiveSlot s).1) 258 = true) := by
  decide +kernel

theorem wit_PayloadWritesItsBytes : (hostCopying 0).dctl = .hostCopy 0 [] ∧ (hostCopying 127).dctl = .hostCopy 127 [] ∧
    0 + 1 < 128 ∧ ¬ 127 + 1 < 128 ∧ 127 < 2 ^ 18 := by decide

theorem wit_PayloadStopsOutsideHostCopy : ∀ i due, serving.dctl ≠ .hostCopy i due :=
  fun _ _ => Dctl.noConfusion

theorem wit_HostPageArrives : (hostCopying 0).dctl = .hostCopy 0 [] ∧
    (List.replicate 128 (3#2, 0xABCD#16)).length = 128 := ⟨rfl, List.length_replicate⟩

/-- The first page after the firmware region and the last page a command can name (vector FC7). -/
theorem wit_page_commands : noFlashFailure serving ∧ flashRangeOk serving.params (0 + 256 * (0x400 : Arg).toNat) 256 = true ∧
    flashRangeOk serving.params (0 + 256 * (0x3FFF : Arg).toNat) 256 = true := by decide +kernel

/-- The first sector after the firmware region and the last sector of the flash. -/
theorem wit_EraseFlashSectorErases : noFlashFailure serving ∧
    flashRangeOk serving.params (0 + 4096 * (0x40 : Arg).toNat) 4096 = true ∧
    flashRangeOk serving.params (0 + 4096 * (0xFFF : Arg).toNat) 4096 = true := by decide +kernel

/-- The last page and sector of the firmware region, and the first sector beyond the flash. -/
theorem wit_BracketedRangeFaultStaysBusy : flashRangeOk serving.params (0 + 256 * (0x3FF : Arg).toNat) 256 = false ∧
    flashRangeOk serving.params (0 + 4096 * (0x3F : Arg).toNat) 4096 = false ∧
    flashRangeOk serving.params (0 + 4096 * (0x1000 : Arg).toNat) 4096 = false := by decide +kernel

theorem wit_FlashFailureStaysBusy : flashRangeOk serving.params (0 + 256 * (0x400 : Arg).toNat) 256 = true ∧
    flashRangeOk serving.params (0 + 4096 * (0x40 : Arg).toNat) 4096 = true ∧
    { serving with failAt := some 0 }.failAt = some 0 ∧ { serving with failAt := some 255 }.failAt = some 255 ∧
    0 < 256 ∧ 255 < 256 := by decide +kernel

theorem wit_DispInstrFrame : Instr.magic0.context ≠ .bus ∧ exec .magic0 serving = .next { serving with matcher := .s1 } :=
  ⟨by decide, rfl⟩

theorem wit_frames : (∃ t, exec (.writeStatusToSram 0) armed = .next t) ∧ (∃ t, exec (.restorePageToSram 0) armed = .next t) ∧
    (∃ t, exec (.copyPageFlashToSram 0x400) armed = .next t) ∧ (∃ t, exec (.copyPageSramToFlash 0x400) armed = .next t) ∧
    (∃ t, exec (.eraseFlashSector 0x40) armed = .next t) ∧ (∃ t, exec (.updateActiveSlot 3) armed = .next t) ∧
    (∃ t, exec (.copyPageHostToSram 0) armed = .next t) ∧ cfgLayoutLegal armed.params.cfgLayout = true ∧
    (hostCopying 5).dctl = .hostCopy 5 [] ∧ ∃ t, exec (.payload 0 0xABCD) (hostCopying 5) = .next t :=
  ⟨⟨_, rfl⟩, ⟨_, rfl⟩, ⟨_, rfl⟩, ⟨_, rfl⟩, ⟨_, rfl⟩, ⟨_, rfl⟩, ⟨_, rfl⟩, by decide +kernel, rfl, ⟨_, rfl⟩⟩

theorem wit_SampleStep : serving.ddir ≠ .output ∧ { serving with ddir := .output }.ddir = .output ∧ 15 < 16 ∧
    36 ≥ serving.params.pins.dataBase + 16 ∧ 19 < serving.params.pins.dataBase ∧ (serving.run = true ∧ qualifying serving.params (snapshot serving) = false) ∧
    (reading.run = true ∧ qualifying reading.params (snapshot reading) = true ∧ reading.trig = false ∧
      reading.q.length < reading.params.fifoDepth) ∧
    State.reset.run = false := by decide +kernel

theorem wit_ReadTransaction : serving.run = true ∧ linesDistinct serving.params serving.layout = true ∧
    linesDistinct serving.params .split = true := by decide +kernel

theorem wit_ReadBeforeRun : State.reset.run = false ∧ State.reset.ddir = .input ∧
    linesDistinct State.reset.params State.reset.layout = true := by decide +kernel

/-- Vector B6: the address changes within one assertion. -/
theorem wit_OneForwardPerAssertion : reading.run = true ∧ qualifying reading.params (snapshot reading) = true ∧
    qualifying reading.params (snapshot (hostDrive (2 ^ 37 + 0x20) (respStep reading))) = true := by decide +kernel

theorem wit_LatchAfterReassertionIsFree : (snapshot (hostDrive restPins { serving with sampled := true })).oe = false := by
  decide +kernel

theorem wit_AddressPins : (0 : Nat) < 18 ∧ (17 : Nat) < 18 ∧ exampleParams.splitBit = 17 := by decide

theorem wit_CopyIsTornByteByByte :
    (∃ op arg segs rest, copying.dctl = .exec op arg (.copy segs :: rest) ∧
      ({ dst := 32, src := 0x280020, len := 224 } : Segment) ∈ segs) ∧
    noFlashFailure copying ∧ 32 ≤ 255 ∧ 255 < 32 + 224 :=
  ⟨⟨_, _, _, _, rfl, List.mem_cons_of_mem _ (List.mem_singleton_self _)⟩, rfl, by decide, by decide⟩

/-- A power loss within an erase. -/
theorem wit_PowerCycleResets : writingRange serving = none ∧
    writingRange { serving with dctl := .exec .eraseFlashSector 0x280 [.erase 0x280000] } = some (0x280000, 4096) := by decide

theorem wit_BootLoadsActiveSlot : State.reset.dctl = .boot bootTasks ∧ noFlashFailure State.reset ∧
    flashRangeOk State.reset.params (slotBase State.reset.params (getActiveSlot State.reset).1) romBytes = true ∧
    shortFlash.dctl = .boot bootTasks ∧
    flashRangeOk shortFlash.params (slotBase shortFlash.params (getActiveSlot shortFlash).1) romBytes = false ∧
    shortFlash.run = false ∧
    (let s := { State.reset with failAt := some (romBytes - 1) }
     s.run = false ∧ s.failAt = some (romBytes - 1) ∧ romBytes - 1 < romBytes ∧
      flashRangeOk s.params (slotBase s.params (getActiveSlot s).1) romBytes = true) := by
  decide +kernel

theorem wit_OnlyPowerCycleLeavesFaulted : stopped.dctl = .faulted (.flashRange 0) ∧
    step stopped = .next { stopped with script := [] } ∧ ∀ torn, (nextEvent stopped).1 ≠ .powerCycle torn :=
  ⟨rfl, rfl, fun _ => Event.noConfusion⟩

theorem wit_OnlyDispWritesMemories : step quiet = .next serving ∧ (∀ c, (nextEvent quiet).1 ≠ .disp c) ∧
    (nextEvent quiet).1 ≠ .run ∧ ∀ torn, (nextEvent quiet).1 ≠ .powerCycle torn :=
  ⟨rfl, fun _ => Event.noConfusion, Event.noConfusion, fun _ => Event.noConfusion⟩

theorem wit_BootAloneSetsLayoutAndRun : step quiet = .next serving ∧ ControlInv quiet ∧ quiet.run = true ∧
    (∀ todo, quiet.dctl ≠ .boot todo) ∧ ∀ torn, (nextEvent quiet).1 ≠ .powerCycle torn :=
  ⟨rfl, rfl, rfl, fun _ => Dctl.noConfusion, fun _ => Event.noConfusion⟩

theorem wit_QueueChangesByOneWord : step oneWord = .next { serving with matcher := .s1 } ∧
    ∀ torn, (nextEvent oneWord).1 ≠ .powerCycle torn :=
  ⟨rfl, fun _ => Event.noConfusion⟩

theorem wit_FifoInvKept : FifoInv oneWord ∧ step oneWord = .next { serving with matcher := .s1 } :=
  ⟨⟨by decide, fun v h => ⟨0x82, (List.mem_singleton.mp h).trans (by decide)⟩⟩, rfl⟩

theorem wit_LinesInvKept : LinesInv oneWord ∧ step oneWord = .next { serving with matcher := .s1 } :=
  ⟨⟨by decide, by decide, by decide⟩, rfl⟩

theorem wit_ControlInvKept : ControlInv oneWord ∧ step oneWord = .next { serving with matcher := .s1 } := ⟨rfl, rfl⟩

theorem wit_SentinelInvKept : SentinelInv oneWord ∧ step oneWord = .next { serving with matcher := .s1 } :=
  ⟨trivial, rfl⟩

theorem wit_MemoryInvKept : MemoryInv oneWord ∧ step oneWord = .next { serving with matcher := .s1 } :=
  ⟨⟨by decide, by decide, by decide, by decide, by decide, trivial⟩, rfl⟩

/-- Each of the phases: half of phase 0 done, phase 1, half of phase 2 done, phase 3. -/
theorem wit_SentinelPolls :
    phase0 [.bytes [(257, 0xFF#8)], .erase 0x280000, .bytes sentinelIdle] [(257, 0#8)] ∧
    phase1 [.erase 0x280000, .bytes sentinelIdle] [] ∧ phase2 [.bytes [(256, 0x00#8)]] [(257, 0#8)] ∧
    phase3 [] [(256, 0#8), (257, 0#8)] := by
  refine ⟨⟨[(257, 0xFF#8)], [.erase 0x280000], rfl, by decide, by decide, by decide, by decide⟩,
    ⟨[.erase 0x280000], rfl, by decide, rfl, rfl⟩, ⟨[(256, 0x00#8)], rfl, by decide, by decide, by decide⟩, rfl, rfl, rfl⟩

theorem wit_ResetMeetsInvariants : Memory.wf fullStore = true ∧ Memory.below fullStore (flashSize exampleParams) = true := by
  decide +kernel

theorem wit_FourReadsSendACommand :
    let s := { serving with script := pacedScript (hostProgram [.cmd 6 0x280]) }
    s.run = true ∧ s.dctl = .recv ∧ s.matcher = .s0 ∧ s.q = [] ∧ s.trig = false ∧ 1 ≤ s.params.fifoDepth ∧
    linesDistinct s.params s.layout = true ∧ s.script = pacedScript (hostProgram [.cmd 6 0x280]) ++ [] := by decide +kernel

/-! ### Launch premises (R307) -/

/-- A program of one read, under a schedule that keeps to the premises. -/
def launched : State := { serving with script := pacedScript (hostProgram [.rd 0x80]) }

/-- All the premises together, with and without a listed image. -/
theorem wit_LaunchPremises : LaunchPremises none (HostLine.rd 0x80).listed 2 launched ∧
    LaunchPremises (some []) (HostLine.rd 0x80).listed 2 launched := by
  have quiet : readsMade 2 launched = [0x80] := by decide +kernel
  have sent : wordsSent 2 launched = [0x80] := by decide +kernel
  have pace : HpPace (HostLine.rd 0x80).listed 2 launched := by
    unfold HpPace
    rw [quiet, sent]
    exact .kept .nil
  have settle : HpSettle (HostLine.rd 0x80).listed 2 launched :=
    ⟨fun _ => by decide +kernel, ⟨fun h => absurd (by decide +kernel) h, trivial⟩⟩
  have noFault : NoFault 2 launched := by
    have h : ∀ t ∈ stepsFrom 3 launched, t.dctl = .recv := by decide +kernel
    intro t ht prim a e
    rw [h t ht] at e
    cases e
  have clean (img : Option Memory) (h : LaunchImage img launched) : CleanLaunch img launched := ⟨rfl, rfl, rfl, rfl, rfl, rfl, h⟩
  have answers : mayAnswer launched.params launched.flash 1 := by
    unfold mayAnswer
    rw [show lookupSlot launched.params launched.flash = some 1 by decide +kernel]
  have hq : HpQuiet (HostLine.rd 0x80).listed 2 launched := by unfold HpQuiet; rw [quiet]; decide
  exact ⟨⟨clean none ⟨1, answers, fun _ _ => rfl⟩, pace, hq, settle, noFault⟩,
    ⟨clean (some []) fun _ _ => rfl, pace, hq, settle, noFault⟩⟩

/-- A fetch of HOST's own, then the program's one read; a move of RESP is still to come when its word has been taken. -/
def fetched : State :=
  { serving with script := pacedScript (hostProgram [.rd 0x5]) ++ pacedScript (hostProgram [.rd 0x80]) ++ [.sample] }

/-- R306: the run ends when DISP has taken the last word, and not before. It does not end at the launch of a program whose
reads no listed move makes. -/
theorem test_endOfRun : EndOfRun (fun i => i == 1) (HostLine.rd 0x80).listed 4 fetched ∧
    ¬ AtRest (fun _ => true) (HostLine.rd 0x80).listed 0 serving ∧ (observed 4 fetched).latched = [0xFFFF, 0xFFFF] := by
  have done : ∀ j, 2 < j → j ≤ 4 → HostDone (fun i => i == 1) (HostLine.rd 0x80).listed j fetched := by
    intro j h1 h2
    have hj : j = 3 ∨ j = 4 := by omega
    rcases hj with rfl | rfl <;> exact ⟨by decide +kernel, by decide +kernel, by decide +kernel⟩
  have recv : ∀ k ≤ 4, (stateAt k fetched).dctl = .recv := by decide +kernel
  have early : ∀ k < 3, ownReads (fun i => i == 1) k fetched ≠ (HostLine.rd 0x80).listed.map ListedRead.addr := by decide +kernel
  refine ⟨⟨⟨done 4 (by decide) (by decide), ⟨2, by decide, by decide +kernel, done⟩, by decide +kernel, by decide +kernel,
    by decide +kernel, recv 4 (by decide), fun k hk r e => ?_⟩, fun k hk h => ?_⟩, fun h => absurd h.host.made (by decide +kernel),
    by decide +kernel⟩
  · rw [recv k hk] at e
    cases e
  · by_cases h3 : k < 3
    · exact early k h3 h.host.made
    · obtain rfl : k = 3 := by omega
      exact absurd h.q (by decide +kernel)

/-- The first byte that is due, each time. -/
def first : Choice := { land := true, pick := 0, off := 0, len := 0 }

/-- HP-SETTLE: no read while a command word waits in Q, while phase 0 is due, or, for a read that depends on it, while an
unbracketed command is under way. -/
theorem test_settledFor : settledFor { addr := 0 } serving = true ∧ settledFor { addr := 0 } { armed with q := [0x4000#32] } = false ∧
    (let s := startCopyPageFlashToSram 0x2800 serving
     settledFor { addr := 0x80 } s = false ∧ settledFor { addr := 0x80 } (dispSteps [first, first] s) = true) ∧
    let s := startRestorePageToSram 0 serving
    settledFor { addr := 0 } s = false ∧ settledFor { addr := 0 } (dispStep first s) = true ∧
    settledFor { addr := 0, dependent := true } (dispStep first s) = false := by decide +kernel

/-- HP-QUIET counts a read that HOST makes line by line (vector B1), HP-PACE the words that reach Q (vector B3: a full Q). -/
theorem test_reads_and_words : ({ serving with script := [.drive (2 ^ 37 + 0x80)] } : State).readsBegun = [0x80] ∧
    ({ reading with script := [.sample] } : State).wordsForwarded = [0x10] ∧
    ({ reading with script := [.sample], q := [1, 2, 3, 4, 5, 6, 7, 8] } : State).wordsForwarded = [] := by decide +kernel

end Sys2Proof.Tests
end

section
/-! The bit operations of the config store, bit by bit (spec/00_scope.md R7, R8; spec/45_config_store.md R232). -/

namespace Sys2Proof.Machine

/-! ### The lowest set bit -/

/-- D32: the value where no bit is set. -/
@[simp] theorem ctz32_zero : ctz32 0 = 32 := rfl

theorem exists_getLsbD_of_ne_zero {x : BitVec 32} (h : x ≠ 0) : ∃ i < 32, x.getLsbD i = true := by
  by_contra hnone
  push Not at hnone
  exact h (BitVec.eq_of_getLsbD_eq fun i hi => by simpa using hnone i hi)

/-- The search of `ctz32` succeeds in a nonzero word, so the lookup answers the index it finds. -/
theorem find_setBit_eq_some_ctz32 {x : BitVec 32} (h : x ≠ 0) :
    ((List.range 32).find? fun i => x.getLsbD i) = some (ctz32 x) := by
  obtain ⟨i, hi, hbit⟩ := exists_getLsbD_of_ne_zero h
  cases hfind : (List.range 32).find? fun i => x.getLsbD i with
  | none =>
    have hclear := List.find?_range_eq_none.mp hfind i hi
    simp [hbit] at hclear
  | some j => simp [ctz32, hfind]

/-- R8: in a nonzero word the lookup answers an index of the word whose bit is set, and no lower bit is. -/
theorem ctz32_lowest {x : BitVec 32} (h : x ≠ 0) :
    ctz32 x < 32 ∧ x.getLsbD (ctz32 x) = true ∧ ∀ i < ctz32 x, x.getLsbD i = false := by
  obtain ⟨hset, hmem, hbelow⟩ := List.find?_range_eq_some.mp (find_setBit_eq_some_ctz32 h)
  exact ⟨List.mem_range.mp hmem, hset, fun i hi => by simpa using hbelow i hi⟩

/-! ### Clearing below an index -/

/-- R7: the bits of `mask_below(k)` are those of index less than k. -/
theorem getLsbD_maskBelow (k i : Nat) : (maskBelow k).getLsbD i = (decide (i < 32) && decide (i < k)) := by
  simp only [maskBelow, BitVec.getLsbD_ofNat, Nat.testBit_two_pow_sub_one]

/-- R232: clearing below k keeps a bit of the word exactly if its index is at least k. -/
theorem getLsbD_clearBelow (x : BitVec 32) (k : Nat) {i : Nat} (hi : i < 32) :
    (clearBelow x k).getLsbD i = (decide (k ≤ i) && x.getLsbD i) := by
  have hmask : (~~~ maskBelow k).getLsbD i = decide (k ≤ i) := by
    rw [BitVec.getLsbD_not, getLsbD_maskBelow]
    simp [hi, ← decide_not]
  rw [clearBelow, BitVec.getLsbD_and, hmask, Bool.and_comm]

/-! ### The statement -/

/-- Settles O17: the lookup by what its search finds, the update by the bits of its mask. -/
theorem storeBitOperations : Obligations.StoreBitOperations := by
  unfold Obligations.StoreBitOperations
  constructor
  · intro x
    exact ⟨fun hzero => hzero ▸ ctz32_zero, fun hne => (ctz32_lowest hne).2⟩
  · intro x k i hi
    exact getLsbD_clearBelow x k hi

end Sys2Proof.Machine
end

section
/-! What DISP's moves, RESP's and HOST's moves and the power cycle each leave alone, and the whole-machine rules that follow
(spec/10_state.md R23, R25, R27, R29, R32, R41; spec/40_bus_responder.md R113 to R120). -/

namespace Sys2Proof.Machine

/-! ### Tasks -/

/-- R281: what DISP has to do holds none of boot's own tasks. -/
def State.noBootTask (s : State) : Prop := ∀ t ∈ s.todo, bootOnly t = false

theorem Task.whole_keeps_run (t : Task) {s : State} (h : s.run = true) : (t.whole s).state.run = true := by
  cases hb : bootOnly t with
  | false => rw [(Task.whole_touched hb s).run, h]
  | true =>
    cases t with
    | sampleStrap => simpa only [Task.whole, Progress.state] using h
    | startResponder => simp only [Task.whole, Progress.state]
    | _ => cases hb

/-- The free choices of a step are for copies and byte writes only. -/
theorem Task.step_of_bootOnly (c : Choice) {t : Task} (hb : bootOnly t = true) (s : State) : t.step c s = t.whole s := by
  cases t with
  | copy segs => cases hb
  | bytes cells => cases hb
  | _ => simp only [Task.step]

theorem Task.step_keeps_run (c : Choice) (t : Task) {s : State} (h : s.run = true) : (t.step c s).state.run = true := by
  cases hb : bootOnly t with
  | false => rw [(Task.step_touched c hb s).run, h]
  | true => rw [Task.step_of_bootOnly c hb]; exact Task.whole_keeps_run t h

theorem runTasks_keeps_run (ts : List Task) {s : State} (h : s.run = true) : (runTasks ts s).state.run = true :=
  runTasks_rel (R := fun s t => s.run = true → t.run = true) (ok := fun _ => True) (fun _ => id)
    (fun hst htu hs => htu (hst hs)) (fun t _ _ => Task.whole_keeps_run t) (fun _ _ _ _ _ _ _ _ => trivial) ts
    (fun _ _ => trivial) s h

/-! ### What every move of DISP keeps -/

/-- What every move of DISP keeps: RESP's registers and the parameters, Q but for the words popped from its front, RUN once
it is set, and RUN and LAYOUT where none of boot's own tasks is to be done. -/
structure DispKeeps (s t : State) : Prop where
  trig : t.trig = s.trig
  ddir : t.ddir = s.ddir
  sampled : t.sampled = s.sampled
  params : t.params = s.params
  q : t.q <:+ s.q
  runSet : s.run = true → t.run = true
  run : s.noBootTask → t.run = s.run
  layout : s.noBootTask → t.layout = s.layout

theorem DispKeeps.trans {s t u : State} (h : DispKeeps s t) (k : DispKeeps t u) (ht : t.noBootTask) : DispKeeps s u where
  trig := k.trig.trans h.trig
  ddir := k.ddir.trans h.ddir
  sampled := k.sampled.trans h.sampled
  params := k.params.trans h.params
  q := k.q.trans h.q
  runSet hs := k.runSet (h.runSet hs)
  run hs := (k.run ht).trans (h.run hs)
  layout hs := (k.layout ht).trans (h.layout hs)

/-- A move that writes nothing but IMG, MATCH and DCTL, and at most pops words, keeps the rest. -/
theorem DispKeeps.of_popped {s : State} {q : List FifoWord} (h : q <:+ s.q) (img : Memory) (m : MatchState) (d : Dctl) :
    DispKeeps s { s with img := img, q := q, matcher := m, dctl := d } :=
  ⟨rfl, rfl, rfl, rfl, h, id, fun _ => rfl, fun _ => rfl⟩

/-- What tasks leave alone is kept, whatever IMG and DCTL hold after them. -/
theorem DispKeeps.of_tasks {s t : State} (f : TaskFrame s t) (hset : s.run = true → t.run = true)
    (htouch : s.noBootTask → Touched s t) (img : Memory) (d : Dctl) : DispKeeps s { t with img := img, dctl := d } :=
  ⟨f.trig, f.ddir, f.sampled, f.params, f.q ▸ List.suffix_rfl, hset, fun h => (htouch h).run, fun h => (htouch h).layout⟩

/-- R166, R186: consuming a word writes MATCH and DCTL alone, and gives DISP none of boot's own tasks. -/
theorem startInstr_eq {s : State} {c : Context} (hc : s.context = some c) (v : Addr) (q : List FifoWord) :
    ∃ m d, startInstr (decode c v) { s with q := q } = { s with q := q, matcher := m, dctl := d } ∧
      { s with q := q, matcher := m, dctl := d }.noBootTask := by
  rcases startInstr_cases hc v q with ⟨hd, _, e⟩ | ⟨_, _, e⟩ | ⟨i, due, _, e⟩ <;> rw [e]
  · exact ⟨_, s.dctl, rfl, by simp [State.noBootTask, State.todo, hd]⟩
  · rcases dispatch_cases v { s with q := q } with e | e | ⟨op, todo, e, h⟩ <;> rw [e]
    · exact ⟨_, _, rfl, by simp [State.noBootTask, State.todo]⟩
    · exact ⟨_, _, rfl, by simp [State.noBootTask, State.todo]⟩
    · refine ⟨_, _, rfl, ?_⟩
      rcases h with ⟨_, rfl | ⟨_, rfl⟩⟩ | ⟨_, rfl⟩ | ⟨_, rfl⟩ | ⟨_, rfl⟩ | ⟨_, rfl⟩ | ⟨_, rfl⟩ <;>
        simp [State.noBootTask, State.todo, loadSlotTasks, bracket, bootOnly]
  · unfold takePayload
    dsimp only
    split
    · exact ⟨s.matcher, _, rfl, by simp [State.noBootTask, State.todo]⟩
    · exact ⟨s.matcher, _, rfl, by simp [State.noBootTask, State.todo, bootOnly]⟩

theorem startInstr_keeps {s : State} {c : Context} (hc : s.context = some c) {v : FifoWord} {rest : List FifoWord}
    (hq : s.q = v :: rest) : let u := startInstr (decode c (tokenOf v)) { s with q := rest }
    DispKeeps s u ∧ u.noBootTask := by
  obtain ⟨m, d, e, hb⟩ := startInstr_eq hc (tokenOf v) rest
  rw [e]
  exact ⟨.of_popped (hq ▸ List.suffix_cons v rest) s.img m d, hb⟩

theorem dispStep_keeps (c : Choice) (s : State) : DispKeeps s (dispStep c s) := by
  rcases dispStep_cases c s with ⟨back, t, ts, hback, hd, e⟩ | ⟨_, _, _, e⟩ | ⟨_, _, _, _, _, _, e⟩ | ⟨_, _, _, hc, hq, e⟩ | e
  · have hmem : t ∈ s.todo := by
      rcases hback with rfl | ⟨op, arg, rfl⟩ <;> simp [State.todo, hd]
    have hkeeps := DispKeeps.of_tasks (Task.step_frame c t s) (Task.step_keeps_run c t)
      fun hb => Task.step_touched c (hb t hmem) s
    rw [e]
    cases hstep : t.step c s <;> rw [hstep] at hkeeps
    · exact hkeeps _ _
    · exact hkeeps _ _
  · rw [e]; exact .of_popped List.suffix_rfl _ _ _
  · rw [e]; exact .of_popped List.suffix_rfl _ _ _
  · rw [e]; exact (startInstr_keeps hc hq).1
  · rw [e]; exact .of_popped List.suffix_rfl s.img s.matcher s.dctl

/-- How an operation ends is written in DCTL alone. -/
theorem Res.finish_eq (x : Res) : ∃ d, x.finish = { x.state with dctl := d } := by
  cases x with
  | done s => exact ⟨_, rfl⟩
  | stop s r => exact ⟨_, rfl⟩

theorem finish_runTasks_keeps {s : State} {todo : List Task} (h : s.todo = todo) :
    DispKeeps s (runTasks todo s).finish := by
  subst h
  obtain ⟨d, e⟩ := (runTasks s.todo s).finish_eq
  rw [e]
  exact .of_tasks (runTasks_frame _ s) (runTasks_keeps_run _) (fun hb => runTasks_touched hb s) _ d

theorem settle_keeps (s : State) : DispKeeps s (settle s) := by
  unfold settle
  split <;> rename_i hd
  · exact finish_runTasks_keeps (by simp only [State.todo, hd])
  · exact finish_runTasks_keeps (by simp only [State.todo, hd])
  · exact .of_popped List.suffix_rfl _ _ _
  · exact .of_popped List.suffix_rfl s.img s.matcher s.dctl
  · exact .of_popped List.suffix_rfl s.img s.matcher s.dctl

/-! ### Steps -/

/-- Choosing the next move changes nothing but the environment's own record. -/
theorem nextEvent_snd (s : State) : ∃ draws script, (nextEvent s).2 = { s with draws := draws, script := script } := by
  rcases nextEvent_cases s with ⟨_, moves, _, e⟩ | ⟨_, e⟩ <;> rw [e]
  · exact ⟨s.draws, moves, rfl⟩
  · exact ⟨s.draws + 1, s.script, rfl⟩

/-- Every step is a move of HOST or RESP (or a choice of the coming failure), a move of DISP, or a power cycle. -/
theorem step_frames {s t : State} (h : step s = .next t) : let u := (nextEvent s).2
    (∃ f, BusFrame { u with failAt := f } t) ∨
    (((∃ c, (nextEvent s).1 = .disp c) ∨ (nextEvent s).1 = .run) ∧ DispKeeps u t) ∨
    ∃ torn, (nextEvent s).1 = .powerCycle torn ∧ t = powerCycle torn u := by
  rcases step_cases h with ⟨a, _, rfl⟩ | ⟨levels, _, rfl⟩ | ⟨_, rfl⟩ | ⟨_, rfl⟩ | ⟨c, he, rfl⟩ | ⟨he, rfl⟩ |
    ⟨c, v, rest, he, hc, hq, rfl⟩ | ⟨n, _, rfl⟩ | hcycle
  · exact .inl ⟨_, hostRead_frame a _⟩
  · exact .inl ⟨_, hostDrive_frame levels _⟩
  · exact .inl ⟨_, respStep_frame _⟩
  · exact .inl ⟨_, hostLatch_frame _⟩
  · exact .inr (.inl ⟨.inl ⟨c, he⟩, dispStep_keeps c _⟩)
  · exact .inr (.inl ⟨.inr he, settle_keeps _⟩)
  · obtain ⟨hkeeps, hb⟩ := startInstr_keeps hc hq
    exact .inr (.inl ⟨.inr he, hkeeps.trans (settle_keeps _) hb⟩)
  · exact .inl ⟨n, rfl, rfl, rfl, rfl, rfl, rfl, rfl, rfl, rfl⟩
  · exact .inr (.inr hcycle)

/-! ### The data lines -/

theorem hostDrive_keeps_linesInv (levels : Nat) {s : State} (h : LinesInv s) : LinesInv (hostDrive levels s) :=
  ⟨h.trig, fun hs => h.sampled (Bool.and_eq_true_iff.mp hs).1, h.idle⟩

theorem hostLatch_keeps_linesInv {s : State} (h : LinesInv s) : LinesInv (hostLatch s) := by
  unfold hostLatch
  split <;> exact ⟨h.trig, h.sampled, h.idle⟩

theorem respStep_keeps_linesInv {s : State} (h : LinesInv s) : LinesInv (respStep s) := by
  cases hr : s.run with
  | false => rwa [respStep_of_idle hr]
  | true =>
    cases hq : qualifying s.params (snapshot s) with
    | true => rw [respStep_of_qualifying hr hq]; exact ⟨by simp, by simp, by simp [hr]⟩
    | false => rw [respStep_of_not_qualifying hr hq]; exact ⟨by simp, by simp, by simp [hr]⟩

theorem hostRead_keeps_linesInv (a : Addr) {s : State} (h : LinesInv s) : LinesInv (hostRead a s) := by
  rw [hostRead_eq]
  exact respStep_keeps_linesInv (hostDrive_keeps_linesInv _ (hostLatch_keeps_linesInv
    (respStep_keeps_linesInv (hostDrive_keeps_linesInv _ h))))

/-- No move of DISP drives or releases the lines, and before RUN there is no word for it to pop. -/
theorem DispKeeps.linesInv {s t : State} (k : DispKeeps s t) (h : LinesInv s) : LinesInv t where
  trig := by rw [k.trig, k.ddir]; exact h.trig
  sampled := by rw [k.sampled, k.ddir]; exact h.sampled
  idle hidle := by
    have hs : s.run = false := Bool.eq_false_iff.mpr fun hrun => by simp [k.runSet hrun] at hidle
    obtain ⟨hq, hin⟩ := h.idle hs
    exact ⟨List.suffix_nil.mp (hq ▸ k.q), k.ddir.trans hin⟩

theorem powerCycle_linesInv (torn : List Byte) (s : State) : LinesInv (powerCycle torn s) :=
  ⟨by simp [powerCycle, State.powerOn], by simp [powerCycle, State.powerOn], fun _ => ⟨rfl, rfl⟩⟩

/-- Settles O55: RESP's and HOST's moves keep the lines with TRIG, DISP's do not touch them. -/
theorem linesInvKept : Obligations.LinesInvKept := by
  unfold Obligations.LinesInvKept
  intro s t hs h
  have hu : LinesInv (nextEvent s).2 := by
    obtain ⟨draws, script, e⟩ := nextEvent_snd s
    rw [e]
    exact ⟨hs.trig, hs.sampled, hs.idle⟩
  rcases step_cases h with ⟨a, _, rfl⟩ | ⟨levels, _, rfl⟩ | ⟨_, rfl⟩ | ⟨_, rfl⟩ | ⟨c, _, rfl⟩ | ⟨_, rfl⟩ |
    ⟨c, v, rest, _, hc, hq, rfl⟩ | ⟨n, _, rfl⟩ | ⟨torn, _, rfl⟩
  · exact hostRead_keeps_linesInv a hu
  · exact hostDrive_keeps_linesInv levels hu
  · exact respStep_keeps_linesInv hu
  · exact hostLatch_keeps_linesInv hu
  · exact (dispStep_keeps c _).linesInv hu
  · exact (settle_keeps _).linesInv hu
  · exact (settle_keeps _).linesInv ((startInstr_keeps hc hq).1.linesInv hu)
  · exact ⟨hu.trig, hu.sampled, hu.idle⟩
  · exact powerCycle_linesInv torn _

/-! ### The parameters, LAYOUT and RUN -/

/-- Outside BOOT, DISP has none of boot's own tasks to do. -/
theorem ControlInv.noBootTask {s : State} (h : ControlInv s) (hboot : ∀ todo, s.dctl ≠ .boot todo) : s.noBootTask := by
  cases hd : s.dctl with
  | boot todo => exact absurd hd (hboot todo)
  | exec op arg todo =>
    simp only [ControlInv, hd] at h
    obtain ⟨_, _, htodo⟩ := h
    simpa only [State.noBootTask, State.todo, hd] using htodo
  | recv => simp [State.noBootTask, State.todo, hd]
  | hostCopy i due => simp [State.noBootTask, State.todo, hd]
  | faulted r => simp [State.noBootTask, State.todo, hd]

/-- Settles O51: only DISP's moves can write LAYOUT or RUN, and of its tasks only boot's own do. -/
theorem bootAloneSetsLayoutAndRun : Obligations.BootAloneSetsLayoutAndRun := by
  unfold Obligations.BootAloneSetsLayoutAndRun
  intro s t h
  obtain ⟨draws, script, eu⟩ := nextEvent_snd s
  rcases step_frames h with ⟨f, k⟩ | ⟨_, k⟩ | ⟨torn, he, rfl⟩
  · rw [eu] at k
    exact ⟨k.params, fun _ _ _ => ⟨k.run, k.layout⟩, fun _ hrun _ => k.run.trans hrun⟩
  · rw [eu] at k
    refine ⟨k.params, fun hs hboot _ => ?_, fun _ hrun _ => k.runSet hrun⟩
    have hb := hs.noBootTask hboot
    exact ⟨k.run hb, k.layout hb⟩
  · rw [eu]
    exact ⟨rfl, fun _ _ hno => absurd he (hno torn), fun _ _ hno => absurd he (hno torn)⟩

/-! ### The memories, MATCH and DCTL -/

/-- Settles O50: what is no move of DISP and no power cycle is a move of the bus side, whose frame holds all four. -/
theorem onlyDispWritesMemories : Obligations.OnlyDispWritesMemories := by
  unfold Obligations.OnlyDispWritesMemories
  intro s t h hdisp hrun hcycle
  obtain ⟨draws, script, eu⟩ := nextEvent_snd s
  rcases step_frames h with ⟨f, k⟩ | ⟨⟨c, he⟩ | he, _⟩ | ⟨torn, he, _⟩
  · rw [eu] at k
    exact ⟨k.img, k.flash, k.matcher, k.dctl⟩
  · exact absurd he (hdisp c)
  · exact absurd he hrun
  · exact absurd he (hcycle torn)

end Sys2Proof.Machine
end

section
/-! The rule for runs of tasks: what every task of a kind keeps, and leaves tasks of that kind, a run keeps. -/

namespace Sys2Proof.Machine

/-- A fact that a part and what follows it both keep is kept by the two together. -/
theorem Res.bind_keeps {P : State → Prop} {x : Res} {f : State → Res} (hx : P x.state)
    (hf : ∀ t, P t → P (f t).state) : P (x.bind f).state := by
  cases x with
  | done t => exact hf t hx
  | stop t r => exact hx

theorem runWith_keeps {P : State → Prop} {ok : Task → Prop} {f : Task → State → Res}
    (hf : ∀ t s, ok t → P s → P (f t s).state) {ts : List Task} (hok : ∀ t ∈ ts, ok t) {s : State} (hs : P s) :
    P (runWith f ts s).state := by
  induction ts generalizing s with
  | nil => exact hs
  | cons t ts ih =>
    obtain ⟨ht, hts⟩ := List.forall_mem_cons.mp hok
    exact Res.bind_keeps (hf t s ht hs) fun u hu => ih hts hu

section
variable {P : State → Prop} {ok : Task → Prop} (hkeeps : ∀ t s, ok t → P s → P (t.whole s).state)
  (hleaves : ∀ t s, ok t → P s → (t.whole s).Leaves ok)
include hkeeps hleaves

theorem Task.run_keeps (depth : Nat) (t : Task) (s : State) (ht : ok t) (hs : P s) : P (Task.run depth t s).state := by
  induction depth generalizing t s with
  | zero => exact hs
  | succ depth ih =>
    have hstate := hkeeps t s ht hs
    have htodo := hleaves t s ht hs
    rw [Task.run_succ]
    cases hw : t.whole s with
    | stop u r => rw [hw] at hstate; exact hstate
    | cont todo u =>
      rw [hw] at hstate htodo
      exact runWith_keeps ih htodo hstate

theorem runTasks_keeps {ts : List Task} (hok : ∀ t ∈ ts, ok t) {s : State} (hs : P s) : P (runTasks ts s).state :=
  runWith_keeps (Task.run_keeps hkeeps hleaves 4) hok hs

end

/-! ### Tasks that only read -/

/-- The tasks that write neither memory themselves and are not boot's own. -/
def Task.reads : Task → Bool
  | .loadActive _ => true
  | .status => true
  | .storePages _ => true
  | .storeTuples _ _ => true
  | .storePage _ _ _ _ _ => true
  | .check _ _ => true
  | _ => false

/-- R222, R223: what such a task can change is the environment's: the failure ahead and the count of free values. -/
theorem Task.whole_of_reads {t : Task} (h : t.reads = true) (s : State) :
    ∃ f n, (t.whole s).state = { s with failAt := f, draws := n } := by
  cases t with
  | loadActive n =>
    obtain ⟨k, e⟩ := getActiveSlot_snd s
    exact ⟨s.failAt, k, e⟩
  | status =>
    obtain ⟨k, e⟩ := getActiveSlot_snd s
    exact ⟨s.failAt, k, e⟩
  | storePages slot =>
    simp only [Task.whole, storePagesStep]
    rcases flashRead_cases (pbAddr s.params) 4 s with ⟨_, f, e⟩ | ⟨r, e⟩ <;> rw [e]
    · dsimp only
      split <;> exact ⟨f, s.draws, rfl⟩
    · exact ⟨s.failAt, s.draws, rfl⟩
  | storeTuples slot pb =>
    simp only [Task.whole, storeTuplesStep]
    rcases flashRead_cases (tbAddr s.params (ctz32 pb)) 4 s with ⟨_, f, e⟩ | ⟨r, e⟩ <;> rw [e]
    · dsimp only
      split
      · exact ⟨f, s.draws, rfl⟩
      · split <;> exact ⟨f, s.draws, rfl⟩
    · exact ⟨s.failAt, s.draws, rfl⟩
  | storePage slot pb page p2 t2 =>
    simp only [Task.whole, storePageStep]
    rcases flashRead_cases (cfgPageAddr s.params p2) pageSize s with ⟨_, f, e⟩ | ⟨r, e⟩ <;> rw [e]
    · exact ⟨f, s.draws, rfl⟩
    · exact ⟨s.failAt, s.draws, rfl⟩
  | check a n =>
    simp only [Task.whole, Progress.state_thenTasks]
    rcases checkRange_cases a n s with ⟨_, e⟩ | ⟨_, e⟩ <;> rw [e] <;> exact ⟨s.failAt, s.draws, rfl⟩
  | _ => cases h

/-! ### What a task leaves to do -/

theorem Progress.Leaves.imp {P Q : Task → Prop} {x : Progress} (h : x.Leaves P) (hPQ : ∀ t, P t → Q t) : x.Leaves Q := by
  cases x with
  | cont todo s => exact fun t ht => hPQ t (h t ht)
  | stop s r => trivial

theorem Res.thenTasks_none_leaves (P : Task → Prop) (x : Res) : (x.thenTasks fun _ => []).Leaves P :=
  x.thenTasks_leaves _ fun _ _ _ ht => absurd ht List.not_mem_nil

/-- How many levels of tasks a task can leave below it. -/
def Task.rank : Task → Nat
  | .storePages _ => 3
  | .storeTuples _ _ => 2
  | .storePage _ _ _ _ _ => 1
  | .loadActive _ => 1
  | .status => 1
  | _ => 0

theorem Task.rank_le_three (t : Task) : t.rank ≤ 3 := by cases t <;> simp [Task.rank]

theorem Task.whole_leaves_lower_rank (t : Task) (s : State) : (t.whole s).Leaves fun u => u.rank < t.rank := by
  cases t with
  | sampleStrap => simp [Task.whole, Progress.Leaves]
  | startResponder => simp [Task.whole, Progress.Leaves]
  | bytes cells => simp [Task.whole, Progress.Leaves]
  | loadActive n => simp [Task.whole, Progress.Leaves, loadSlotTasks, Task.rank]
  | status => simp [Task.whole, Progress.Leaves, Task.rank]
  | storePages slot =>
    exact (storePagesStep_leaves slot s).imp fun u ⟨_, e⟩ => by simp [e, Task.rank]
  | storeTuples slot pb =>
    exact (storeTuplesStep_leaves slot pb s).imp fun u hu => by
      rcases hu with rfl | ⟨_, _, _, rfl⟩ <;> simp [Task.rank]
  | storePage slot pb page p2 t2 =>
    exact (storePageStep_leaves slot pb page p2 t2 s).imp fun u ⟨_, _, e⟩ => by simp [e, Task.rank]
  | _ => exact Res.thenTasks_none_leaves _ _

theorem runWith_congr {f g : Task → State → Res} {ts : List Task} (h : ∀ t ∈ ts, ∀ s, f t s = g t s) (s : State) :
    runWith f ts s = runWith g ts s := by
  induction ts generalizing s with
  | nil => rfl
  | cons t ts ih =>
    obtain ⟨ht, hts⟩ := List.forall_mem_cons.mp h
    rw [runWith_cons, runWith_cons, ht s]
    exact congrArg _ (funext (ih hts))

/-- A depth beyond a task's rank is as good as any greater one. -/
theorem Task.run_succ_of_rank_lt {t : Task} {depth : Nat} (h : t.rank < depth) (s : State) :
    Task.run (depth + 1) t s = Task.run depth t s := by
  induction depth generalizing t s with
  | zero => omega
  | succ depth ih =>
    have hleaves := Task.whole_leaves_lower_rank t s
    rw [Task.run_succ, Task.run_succ]
    cases hw : t.whole s with
    | stop u r => rfl
    | cont todo u =>
      rw [hw] at hleaves
      exact runWith_congr (fun t' ht' => ih (by have := hleaves t' ht'; omega)) u

/-- What is left of an operation run to its end after a step of its first task. -/
def Progress.runOn : Progress → Res
  | .cont todo s => runTasks todo s
  | .stop s r => .stop s r

theorem Res.thenTasks_runOn (x : Res) (todo : State → List Task) :
    (x.thenTasks todo).runOn = x.bind fun s => runTasks (todo s) s := by
  cases x <;> rfl

/-- A task run is its whole step and then the tasks that it leaves. -/
theorem Task.run_eq_whole_runOn (t : Task) (s : State) : Task.run 4 t s = (t.whole s).runOn := by
  have hleaves := Task.whole_leaves_lower_rank t s
  have hrank := t.rank_le_three
  rw [Task.run_succ]
  cases hw : t.whole s with
  | stop u r => rfl
  | cont todo u =>
    rw [hw] at hleaves
    exact runWith_congr (fun t' ht' s' => (Task.run_succ_of_rank_lt (by have := hleaves t' ht'; omega) s').symm) u

end Sys2Proof.Machine
end

section
/-! Copies and byte writes in any order: what one step of them does, and that the order does not matter (spec/20_memory.md R53,
R60; spec/43_commands_image.md R181). -/

namespace Sys2Proof.Machine

/-! ### Where the bytes of a copy go -/

/-- The segment copies the flash byte at address `a` to IMG offset `x`. -/
def Segment.Puts (g : Segment) (a x : Nat) : Prop := g.dst ≤ x ∧ x < g.dst + g.len ∧ a = g.src + (x - g.dst)

/-- The `n` bytes of a segment from the `off`-th on. -/
def Segment.part (g : Segment) (off n : Nat) : Segment := { dst := g.dst + off, src := g.src + off, len := n }

/-- What is left of the segments `pre ++ g :: post` once that part of `g` is copied. -/
def withoutPart (pre post : List Segment) (g : Segment) (off n : Nat) : List Segment :=
  pre ++ segmentList g.dst g.src off ++ segmentList (g.dst + off + n) (g.src + off + n) (g.len - off - n) ++ post

theorem mem_segmentList {g : Segment} {dst src len : Nat} :
    g ∈ segmentList dst src len ↔ len ≠ 0 ∧ g = { dst := dst, src := src, len := len } := by
  unfold segmentList
  split <;> simp [*]

theorem pairwise_segmentList (dst src len : Nat) : (segmentList dst src len).Pairwise segmentsApart := by
  unfold segmentList
  split <;> simp

theorem mem_withoutPart {pre post : List Segment} {g h : Segment} {off n : Nat} :
    h ∈ withoutPart pre post g off n ↔ h ∈ pre ∨ (off ≠ 0 ∧ h = g.part 0 off) ∨
      (g.len - off - n ≠ 0 ∧ h = g.part (off + n) (g.len - off - n)) ∨ h ∈ post := by
  simp only [withoutPart, List.mem_append, mem_segmentList, Segment.part, Nat.add_zero, Nat.add_assoc, or_assoc]

section
variable {pre post : List Segment} {g : Segment} {off n : Nat}

/-- The part and what is left without it lie apart. -/
theorem pairwise_part_withoutPart (hn : off + n ≤ g.len) (hp : (pre ++ g :: post).Pairwise segmentsApart) :
    (g.part off n :: withoutPart pre post g off n).Pairwise segmentsApart := by
  simp only [List.pairwise_append, List.pairwise_cons, List.mem_cons] at hp
  obtain ⟨hpre, ⟨hgpost, hpost⟩, hacross⟩ := hp
  have hpreg := fun h hh => hacross h hh g (.inl rfl)
  simp only [List.pairwise_cons, mem_withoutPart]
  constructor
  · rintro h (hh | ⟨_, rfl⟩ | ⟨_, rfl⟩ | hh)
    · have := hpreg h hh
      simp only [segmentsApart, Segment.part] at this ⊢; omega
    · simp only [segmentsApart, Segment.part]; omega
    · simp only [segmentsApart, Segment.part]; omega
    · have := hgpost h hh
      simp only [segmentsApart, Segment.part] at this ⊢; omega
  · simp only [withoutPart, List.pairwise_append, List.mem_append, mem_segmentList]
    refine ⟨⟨⟨hpre, pairwise_segmentList _ _ _, ?_⟩, pairwise_segmentList _ _ _, ?_⟩, hpost, ?_⟩
    · rintro h hh k ⟨_, rfl⟩
      have := hpreg h hh
      simp only [segmentsApart] at this ⊢; omega
    · rintro h (hh | ⟨_, rfl⟩) k ⟨_, rfl⟩
      · have := hpreg h hh
        simp only [segmentsApart] at this ⊢; omega
      · simp only [segmentsApart]; omega
    · rintro h ((hh | ⟨_, rfl⟩) | ⟨_, rfl⟩) k hk
      · exact hacross h hh k (.inr hk)
      · have := hgpost k hk
        simp only [segmentsApart] at this ⊢; omega
      · have := hgpost k hk
        simp only [segmentsApart] at this ⊢; omega

/-- The part and what is left without it put the same bytes as all the segments. -/
theorem puts_part_withoutPart_iff (hn : off + n ≤ g.len) (a x : Nat) :
    (∃ h ∈ g.part off n :: withoutPart pre post g off n, h.Puts a x) ↔ ∃ h ∈ pre ++ g :: post, h.Puts a x := by
  have hg : g.Puts a x ↔ (g.part off n).Puts a x ∨ (off ≠ 0 ∧ (g.part 0 off).Puts a x) ∨
      (g.len - off - n ≠ 0 ∧ (g.part (off + n) (g.len - off - n)).Puts a x) := by
    simp only [Segment.Puts, Segment.part]; omega
  have hwhole : (∃ h ∈ pre ++ g :: post, h.Puts a x) ↔
      (∃ h ∈ pre, h.Puts a x) ∨ g.Puts a x ∨ ∃ h ∈ post, h.Puts a x := by
    simp only [List.mem_append, List.mem_cons, or_and_right, exists_or, exists_eq_left]
  have hcut : (∃ h ∈ g.part off n :: withoutPart pre post g off n, h.Puts a x) ↔
      (g.part off n).Puts a x ∨ (∃ h ∈ pre, h.Puts a x) ∨ (off ≠ 0 ∧ (g.part 0 off).Puts a x) ∨
        (g.len - off - n ≠ 0 ∧ (g.part (off + n) (g.len - off - n)).Puts a x) ∨ ∃ h ∈ post, h.Puts a x := by
    simp only [List.mem_cons, mem_withoutPart, or_and_right, exists_or, and_assoc, exists_and_left, exists_eq_left]
  rw [hwhole, hcut, hg]
  simp only [or_assoc, or_left_comm]

end

/-! ### The image a copy leaves -/

/-- IMG after all the segments have been copied from the flash, one after the other. -/
def copiedImage (flash : Memory) : List Segment → Memory → Memory
  | [], img => img
  | g :: gs, img => copiedImage flash gs (Memory.copy img g.dst flash g.src g.len)

theorem copySegments_of_none (gs : List Segment) {s : State} (hf : s.failAt = none) :
    copySegments gs s = .done { s with img := copiedImage s.flash gs s.img } := by
  induction gs generalizing s with
  | nil => rfl
  | cons g gs ih =>
    rw [copySegments_cons, copySegment_of_none hf, Res.bind_done]
    exact ih hf

theorem wf_copiedImage (gs : List Segment) {flash img : Memory} (hi : Memory.wf img = true)
    (hfl : Memory.wf flash = true) : Memory.wf (copiedImage flash gs img) = true := by
  induction gs generalizing img with
  | nil => exact hi
  | cons g gs ih => exact ih (Memory.wf_copy hi hfl _ _ _)

theorem read_copiedImage_of_not_put {gs : List Segment} {flash img : Memory} {x : Nat}
    (h : ∀ g ∈ gs, ∀ a, ¬ g.Puts a x) : Memory.read (copiedImage flash gs img) x = Memory.read img x := by
  induction gs generalizing img with
  | nil => rfl
  | cons g gs ih =>
    obtain ⟨hg, hgs⟩ := List.forall_mem_cons.mp h
    rw [copiedImage, ih hgs, Memory.read_copy, if_neg fun hx => hg _ ⟨hx.1, hx.2, rfl⟩]

theorem read_copiedImage_of_put {gs : List Segment} {flash img : Memory} {g : Segment} {a x : Nat}
    (hp : gs.Pairwise segmentsApart) (hg : g ∈ gs) (h : g.Puts a x) :
    Memory.read (copiedImage flash gs img) x = Memory.read flash a := by
  induction gs generalizing img with
  | nil => cases hg
  | cons k gs ih =>
    obtain ⟨hk, hgs⟩ := List.pairwise_cons.mp hp
    rw [copiedImage]
    rcases List.mem_cons.mp hg with rfl | hg
    · obtain ⟨hlo, hhi, rfl⟩ := h
      have hother : ∀ l ∈ gs, ∀ a, ¬ l.Puts a x := fun l hl a ⟨h1, h2, _⟩ => by
        have := hk l hl
        simp only [segmentsApart] at this; omega
      rw [read_copiedImage_of_not_put hother, Memory.read_copy, if_pos ⟨hlo, hhi⟩]
    · exact ih hgs hg

/-- R53: copies that put the same bytes leave the same image, however they are cut and ordered. -/
theorem copiedImage_congr {gs hs : List Segment} {flash img : Memory} (hg : gs.Pairwise segmentsApart)
    (hh : hs.Pairwise segmentsApart) (h : ∀ a x, (∃ g ∈ gs, g.Puts a x) ↔ ∃ g ∈ hs, g.Puts a x)
    (hi : Memory.wf img = true) (hfl : Memory.wf flash = true) : copiedImage flash gs img = copiedImage flash hs img := by
  refine Memory.ext_of_wf (wf_copiedImage gs hi hfl) (wf_copiedImage hs hi hfl) fun x => ?_
  by_cases hx : ∃ a, ∃ g ∈ gs, g.Puts a x
  · obtain ⟨a, g, hmem, hput⟩ := hx
    obtain ⟨k, hmem', hput'⟩ := (h a x).mp ⟨g, hmem, hput⟩
    rw [read_copiedImage_of_put hg hmem hput, read_copiedImage_of_put hh hmem' hput']
  · rw [read_copiedImage_of_not_put fun g hmem a hput => hx ⟨a, g, hmem, hput⟩,
      read_copiedImage_of_not_put fun g hmem a hput => hx ⟨a, (h a x).mpr ⟨g, hmem, hput⟩⟩]

/-- R53: byte writes to addresses that all differ leave the same image in any order. -/
theorem Memory.writeCells_perm {cs ds : List Host.Cell} {m : Memory} (h : cs.Perm ds) (hn : (cs.map Prod.fst).Nodup)
    (hm : Memory.wf m = true) : Memory.writeCells m cs = Memory.writeCells m ds := by
  refine Memory.ext_of_wf (Memory.wf_writeCells cs hm) (Memory.wf_writeCells ds hm) fun x => ?_
  by_cases hx : ∃ b, (x, b) ∈ cs
  · obtain ⟨b, hb⟩ := hx
    rw [Memory.read_writeCells_of_mem m hn hb,
      Memory.read_writeCells_of_mem m ((h.map Prod.fst).nodup_iff.mp hn) (h.mem_iff.mp hb)]
  · have hc : ∀ c ∈ cs, c.1 ≠ x := fun c hc e => hx ⟨c.2, e ▸ hc⟩
    rw [Memory.read_writeCells_of_not_mem cs m x hc,
      Memory.read_writeCells_of_not_mem ds m x fun c hd => hc c (h.mem_iff.mpr hd)]

/-! ### One step of a copy or of byte writes -/

/-- What a copy leaves to do. -/
def copyLeft (rest : List Segment) : List Task := if rest = [] then [] else [.copy rest]

/-- What byte writes leave to do. -/
def bytesLeft (rest : List Host.Cell) : List Task := if rest = [] then [] else [.bytes rest]

theorem runTasks_copyLeft (rest : List Segment) (s : State) : runTasks (copyLeft rest) s = copySegments rest s := by
  unfold copyLeft
  split
  · subst_vars; rfl
  · rw [runTasks_cons, Task.run_copy]
    cases copySegments rest s <;> rfl

theorem runTasks_bytesLeft (rest : List Host.Cell) (s : State) :
    runTasks (bytesLeft rest) s = .done { s with img := Memory.writeCells s.img rest } := by
  unfold bytesLeft
  split
  · subst_vars; rfl
  · rfl

/-- A list is its elements before an index, the one there, and those after. -/
theorem take_append_cons_drop {α : Type} {l : List α} {i : Nat} {x : α} (h : l[i]? = some x) :
    l.take i ++ x :: l.drop (i + 1) = l := by
  obtain ⟨hi, rfl⟩ := List.getElem?_eq_some_iff.mp h
  rw [List.cons_getElem_drop_succ, List.take_append_drop]

/-- An index counted round finds nothing in the empty list only. -/
theorem eq_nil_of_getElem?_mod_eq_none {α : Type} {l : List α} {i : Nat} (h : l[i % l.length]? = none) : l = [] := by
  by_contra hne
  exact absurd (Nat.mod_lt i (List.length_pos_iff.mpr hne)) (Nat.not_lt.mpr (List.getElem?_eq_none_iff.mp h))

/-- R53, R181: a step of a copy that has something to do copies a part of one of its segments. -/
theorem copyStep_cases (c : Choice) (segs : List Segment) (s : State) :
    (segs = [] ∧ copyStep c segs s = .cont [] s) ∨
    ∃ pre g post off n, segs = pre ++ g :: post ∧ off + n ≤ g.len ∧
      copyStep c segs s = (copySegment (g.part off n) s).thenTasks fun _ => copyLeft (withoutPart pre post g off n) := by
  unfold copyStep
  dsimp only
  split
  next h => exact .inl ⟨eq_nil_of_getElem?_mod_eq_none h, rfl⟩
  next g h => exact .inr ⟨_, g, _, _, _, (take_append_cons_drop h).symm, by omega, rfl⟩

/-- R53: a step of byte writes that has something to do does one of them. -/
theorem bytesStep_cases (c : Choice) (cells : List Host.Cell) (s : State) :
    (cells = [] ∧ bytesStep c cells s = .cont [] s) ∨
    ∃ i cell, cells[i]? = some cell ∧
      bytesStep c cells s = .cont (bytesLeft (cells.eraseIdx i)) { s with img := Memory.write s.img cell.1 cell.2 } := by
  unfold bytesStep
  dsimp only
  split
  next h => exact .inl ⟨eq_nil_of_getElem?_mod_eq_none h, rfl⟩
  next cell h => exact .inr ⟨_, cell, h, rfl⟩

end Sys2Proof.Machine
end

section
/-! Torn copies, and the end that every order of a copy's bytes has (spec/20_memory.md R53, R60, R70;
spec/43_commands_image.md R181). -/

namespace Sys2Proof.Machine

/-! ### What DISP is doing, run to its end -/

/-- The end of an operation does not depend on what DCTL holds while its tasks run. -/
theorem finish_runTasks_dctl (d : Dctl) (todo : List Task) (s : State) :
    (runTasks todo { s with dctl := d }).finish = (runTasks todo s).finish := by
  have hm := (runTasks_frame todo s).matcher
  have hrun : runTasks todo { s with dctl := d } = _ := runTasks_withControl s.matcher d todo s
  rw [hrun]
  cases e : runTasks todo s <;> rw [e] at hm <;> simp only [Res.state] at hm <;>
    simp only [Res.map, State.withControl, Res.finish, raiseFault, ← hm]

section
variable {back : List Task → Dctl} (hback : back = Dctl.boot ∨ ∃ op arg, back = Dctl.exec op arg)
include hback

theorem State.todo_of_dctl {s : State} {todo : List Task} (hd : s.dctl = back todo) : s.todo = todo := by
  rcases hback with rfl | ⟨op, arg, rfl⟩ <;> simp only [State.todo, hd]

theorem settle_of_dctl {s : State} {todo : List Task} (hd : s.dctl = back todo) : settle s = (runTasks todo s).finish := by
  rcases hback with rfl | ⟨op, arg, rfl⟩ <;> simp only [settle, hd]

theorem settle_with_dctl (todo : List Task) (s : State) :
    settle { s with dctl := back todo } = (runTasks todo s).finish := by
  rw [settle_of_dctl hback rfl, finish_runTasks_dctl]

end

/-! ### Any order has the same end -/

/-- With no failure ahead a step of a task, and then what is left run to its end, is the task run. -/
theorem Task.step_runOn (c : Choice) {t : Task} {s : State} (hf : s.failAt = none) (hi : Memory.wf s.img = true)
    (hfl : Memory.wf s.flash = true) (hok : taskOk t = true) : (t.step c s).runOn = Task.run 4 t s := by
  cases t with
  | copy segs =>
    simp only [taskOk, Bool.and_eq_true, decide_eq_true_eq] at hok
    obtain ⟨_, hp⟩ := hok
    rw [Task.run_copy, Task.step]
    rcases copyStep_cases c segs s with ⟨rfl, e⟩ | ⟨pre, g, post, off, n, rfl, hn, e⟩
    · rw [e]; rfl
    · have hparts := pairwise_part_withoutPart hn hp
      have hsame := copiedImage_congr hparts hp (puts_part_withoutPart_iff hn) hi hfl
      calc (copyStep c (pre ++ g :: post) s).runOn
          = copySegments (g.part off n :: withoutPart pre post g off n) s := by
            rw [e, Res.thenTasks_runOn, copySegments_cons]
            exact congrArg _ (funext fun u => runTasks_copyLeft _ u)
        _ = copySegments (pre ++ g :: post) s := by rw [copySegments_of_none _ hf, copySegments_of_none _ hf, hsame]
  | bytes cells =>
    simp only [taskOk, Bool.and_eq_true, decide_eq_true_eq] at hok
    obtain ⟨_, hn⟩ := hok
    rw [Task.run_bytes, Task.step]
    rcases bytesStep_cases c cells s with ⟨rfl, e⟩ | ⟨i, cell, hcell, e⟩
    · rw [e]; rfl
    · obtain ⟨hlt, rfl⟩ := List.getElem?_eq_some_iff.mp hcell
      have hsame := Memory.writeCells_perm (List.getElem_cons_eraseIdx_perm hlt).symm hn hi
      rw [e]
      exact (runTasks_bytesLeft _ _).trans (congrArg (fun img => Res.done { s with img := img }) hsame.symm)
  | _ => simp only [Task.step, Task.run_eq_whole_runOn]

/-- Settles O11: only a task's step can be left, and with what is left of it that step makes the task's own run. -/
theorem byteOrderDoesNotMatter : Obligations.ByteOrderDoesNotMatter := by
  unfold Obligations.ByteOrderDoesNotMatter
  intro s c hinv hf hcopy hrecv
  rcases dispStep_cases c s with ⟨back, t, ts, hback, hd, e⟩ | ⟨back, hback, hd, e⟩ | ⟨i, due, _, _, hd, _, _⟩ |
    ⟨cx, v, rest, hc, _, _⟩ | e
  · have hok : taskOk t = true := hinv.todo t (by rw [State.todo_of_dctl hback hd]; exact List.mem_cons_self)
    rw [settle_of_dctl hback hd, runTasks_cons, ← Task.step_runOn c hf hinv.imgWf hinv.flashWf hok, e]
    cases t.step c s with
    | cont more u =>
      dsimp only
      rw [settle_with_dctl hback, runTasks_append]
      rfl
    | stop u r => rfl
  · rw [e, settle_of_dctl hback hd]; rfl
  · exact absurd hd (hcopy i due)
  · rcases startInstr_cases hc (tokenOf v) rest with ⟨hd, _⟩ | ⟨hd, _⟩ | ⟨i, due, hd, _⟩
    · exact absurd hd hrecv
    · exact absurd hd hrecv
    · exact absurd hd (hcopy i due)
  · rw [e]

/-! ### Torn copies -/

/-- A part of a segment copied, done or failed on the way, leaves old bytes and bytes that the segment puts. -/
theorem read_copySegment_part {g : Segment} {off n : Nat} (hn : off + n ≤ g.len) (s : State) (x : Nat) :
    Memory.read (copySegment (g.part off n) s).state.img x = Memory.read s.img x ∨
      ∃ a, g.Puts a x ∧ Memory.read (copySegment (g.part off n) s).state.img x = Memory.read s.flash a := by
  have hread : ∀ k ≤ n, let img := Memory.copy s.img (g.dst + off) s.flash (g.src + off) k
      Memory.read img x = Memory.read s.img x ∨ ∃ a, g.Puts a x ∧ Memory.read img x = Memory.read s.flash a := by
    intro k hk
    dsimp only
    rw [Memory.read_copy]
    split
    next hx => exact .inr ⟨_, ⟨by omega, by omega, by omega⟩, rfl⟩
    next => exact .inl rfl
  rcases copySegment_cases (g.part off n) s with ⟨f, e⟩ | ⟨k, hk, e⟩ <;> rw [e]
  · exact hread n le_rfl
  · exact hread k hk.le

/-- A step of DISP with a copy to do writes what the copy's step writes. -/
theorem dispStep_img_of_copy (c : Choice) {s : State} {op : Op} {arg : Arg} {segs : List Segment} {rest : List Task}
    (hd : s.dctl = .exec op arg (.copy segs :: rest)) : (dispStep c s).img = (copyStep c segs s).state.img := by
  simp only [dispStep, hd, taskStep, Task.step]
  cases copyStep c segs s <;> rfl

/-- The choice of byte `k` of segment `i`, and of no other byte. -/
def Choice.ofByte (i k : Nat) : Choice := { land := false, pick := i, off := k, len := 0 }

/-- R53, R60: with no failure ahead, that choice copies that byte alone. -/
theorem copyStep_ofByte_img {segs : List Segment} {i : Nat} {g : Segment} (hi : segs[i]? = some g) {k : Nat}
    (hk : k < g.len) {s : State} (hf : s.failAt = none) :
    (copyStep (Choice.ofByte i k) segs s).state.img = Memory.copy s.img (g.dst + k) s.flash (g.src + k) 1 := by
  obtain ⟨hlt, _⟩ := List.getElem?_eq_some_iff.mp hi
  have hoff : min k g.len = k := by omega
  have hlen : min 1 (g.len - k) = 1 := by omega
  simp only [copyStep, Choice.ofByte, Nat.mod_eq_of_lt hlt, hi, Nat.mod_eq_of_lt hk, hoff, Nat.zero_add, hlen,
    Progress.state_thenTasks, copySegment_of_none hf, Res.state]

/-- Settles O46: a step of a copy copies a part of one segment, and a choice makes that part any one byte. -/
theorem copyIsTornByteByByte : Obligations.CopyIsTornByteByByte := by
  unfold Obligations.CopyIsTornByteByByte
  intro s op arg segs rest hd
  refine ⟨fun c b => ?_, fun hf g hg b hlo hhi => ?_⟩
  · rw [dispStep_img_of_copy c hd]
    rcases copyStep_cases c segs s with ⟨_, e⟩ | ⟨pre, g, post, off, n, rfl, hn, e⟩
    · rw [e]; exact .inl rfl
    · rw [e, Progress.state_thenTasks]
      rcases read_copySegment_part hn s b with h | ⟨a, ⟨hlo, hhi, rfl⟩, h⟩
      · exact .inl h
      · exact .inr ⟨g, by simp, hlo, hhi, h⟩
  · obtain ⟨i, hi⟩ := List.getElem?_of_mem hg
    refine ⟨Choice.ofByte i (b - g.dst), fun x => ?_⟩
    rw [dispStep_img_of_copy _ hd, copyStep_ofByte_img hi (by omega) hf, Memory.read_copy]
    by_cases hx : x = b
    · rw [if_pos hx, if_pos (by omega)]
      congr 1
      omega
    · rw [if_neg hx, if_neg (by omega)]

end Sys2Proof.Machine
end

section
/-! Every step keeps IMG and FLASH canonical and inside their address spaces (spec/20_memory.md R50, R53, R67). -/

namespace Sys2Proof.Machine

/-- R50: both memories are canonical and inside their address spaces. -/
structure MemoriesOk (s : State) : Prop where
  imgWf : Memory.wf s.img = true
  imgBelow : Memory.below s.img romBytes = true
  flashWf : Memory.wf s.flash = true
  flashBelow : Memory.below s.flash (flashSize s.params) = true

theorem MemoryInv.memories {s : State} (h : MemoryInv s) : MemoriesOk s :=
  ⟨h.imgWf, h.imgBelow, h.flashWf, h.flashBelow⟩

/-- Both memories being in order stays so while neither they nor FLASH_SIZE change. -/
theorem MemoriesOk.of_eq {s t : State} (h : MemoriesOk s) (himg : t.img = s.img) (hflash : t.flash = s.flash)
    (hparams : t.params = s.params) : MemoriesOk t :=
  ⟨himg ▸ h.imgWf, himg ▸ h.imgBelow, hflash ▸ h.flashWf, by rw [hflash, hparams]; exact h.flashBelow⟩

theorem MemoriesOk.memoryInv {s : State} (h : MemoriesOk s) (htodo : ∀ t ∈ s.todo, taskOk t = true) (hdue : dueOk s) :
    MemoryInv s :=
  ⟨h.imgWf, h.imgBelow, h.flashWf, h.flashBelow, htodo, hdue⟩

theorem MemoriesOk.memoryInv_of_idle {s : State} (h : MemoriesOk s) (htodo : s.todo = []) (hdue : dueOk s) : MemoryInv s :=
  h.memoryInv (by simp [htodo]) hdue

theorem MemoryInv.of_eq {s t : State} (h : MemoryInv s) (himg : t.img = s.img) (hflash : t.flash = s.flash)
    (hparams : t.params = s.params) (hdctl : t.dctl = s.dctl) : MemoryInv t := by
  refine (h.memories.of_eq himg hflash hparams).memoryInv ?_ ?_
  · have htodo := h.todo
    simp only [State.todo] at htodo ⊢
    rwa [hdctl]
  · have hdue := h.due
    simp only [dueOk] at hdue ⊢
    rwa [hdctl]

/-! ### The operations on the memories -/

theorem MemoriesOk.writeCells {s : State} (h : MemoriesOk s) {cells : List Host.Cell} (hc : ∀ c ∈ cells, c.1 < romBytes) :
    MemoriesOk { s with img := Memory.writeCells s.img cells } :=
  ⟨Memory.wf_writeCells cells h.imgWf, Memory.below_writeCells cells h.imgBelow hc, h.flashWf, h.flashBelow⟩

theorem le_flashSize_of_rangeOk {p : Params} {a n : Nat} (h : flashRangeOk p a n = true) : a + n ≤ flashSize p := by
  simp only [flashRangeOk, Bool.and_eq_true, decide_eq_true_eq] at h
  exact h.1

theorem copySegment_keeps_memoriesOk {g : Segment} (hg : g.dst + g.len ≤ romBytes) {s : State} (h : MemoriesOk s) :
    MemoriesOk (copySegment g s).state := by
  have hcopy : ∀ n ≤ g.len, ∀ f, MemoriesOk { s with failAt := f, img := Memory.copy s.img g.dst s.flash g.src n } :=
    fun n hn f => ⟨Memory.wf_copy h.imgWf h.flashWf _ _ _, Memory.below_copy h.imgBelow _ _ (by omega), h.flashWf,
      h.flashBelow⟩
  rcases copySegment_cases g s with ⟨f, e⟩ | ⟨n, hn, e⟩ <;> rw [e]
  · exact hcopy g.len le_rfl f
  · exact hcopy n hn.le _

theorem copySegments_keeps_memoriesOk {gs : List Segment} (hgs : ∀ g ∈ gs, g.dst + g.len ≤ romBytes) {s : State}
    (h : MemoriesOk s) : MemoriesOk (copySegments gs s).state := by
  induction gs generalizing s with
  | nil => exact h
  | cons g gs ih =>
    obtain ⟨hg, hgs⟩ := List.forall_mem_cons.mp hgs
    exact Res.bind_keeps (copySegment_keeps_memoriesOk hg h) fun t ht => ih hgs ht

theorem flashProgram_keeps_memoriesOk (a : Nat) (data : List Byte) {s : State} (h : MemoriesOk s) :
    MemoriesOk (flashProgram a data s).state := by
  rcases flashProgram_cases a data s with ⟨hr, f, e⟩ | ⟨r, e⟩ <;> rw [e]
  · exact ⟨h.imgWf, h.imgBelow, Memory.wf_program data h.flashWf a,
      Memory.below_program data h.flashBelow (le_flashSize_of_rangeOk hr)⟩
  · exact h

theorem flashErase_keeps_memoriesOk (a : Nat) {s : State} (h : MemoriesOk s) : MemoriesOk (flashErase a s).state := by
  rcases flashErase_cases a s with ⟨_, f, e⟩ | ⟨r, e⟩ <;> rw [e]
  · exact ⟨h.imgWf, h.imgBelow, Memory.wf_erase h.flashWf _ _, Memory.below_erase h.flashBelow _ _⟩
  · exact h

/-! ### The tasks -/

theorem taskOk_copy_iff (segs : List Segment) :
    taskOk (.copy segs) = true ↔ (∀ g ∈ segs, g.dst + g.len ≤ romBytes) ∧ segs.Pairwise segmentsApart := by
  simp [taskOk]

theorem taskOk_bytes_iff (cells : List Host.Cell) :
    taskOk (.bytes cells) = true ↔ (∀ c ∈ cells, c.1 < romBytes) ∧ (cells.map Prod.fst).Nodup := by
  simp [taskOk]

theorem loadSlotTasks_ok (p : Params) (slot : Nat) {n : Nat} (hn : n ≤ romBytes) :
    ∀ t ∈ loadSlotTasks p slot n, taskOk t = true := by
  simp [loadSlotTasks, taskOk, hn]

theorem statusCells_ok (p : Params) (slot : Nat) : taskOk (.bytes (statusCells p slot)) = true := by
  rw [taskOk_bytes_iff, statusCells, List.map_fst_zip (by simp [statusRecord])]
  refine ⟨fun c hc => ?_, List.nodup_range⟩
  have := List.mem_range.mp (List.of_mem_zip hc).1
  simp only [romBytes]
  omega

theorem Task.whole_keeps_memoriesOk {t : Task} {s : State} (ht : taskOk t = true) (h : MemoriesOk s) :
    MemoriesOk (t.whole s).state := by
  by_cases hr : t.reads = true
  · obtain ⟨f, n, e⟩ := Task.whole_of_reads hr s
    rw [e]
    exact h.of_eq rfl rfl rfl
  · cases t with
    | sampleStrap => exact h.of_eq rfl rfl rfl
    | startResponder => exact h.of_eq rfl rfl rfl
    | copy segs =>
      rw [Task.whole, Progress.state_thenTasks]
      exact copySegments_keeps_memoriesOk ((taskOk_copy_iff segs).mp ht).1 h
    | bytes cells => exact h.writeCells ((taskOk_bytes_iff cells).mp ht).1
    | program a data => rw [Task.whole, Progress.state_thenTasks]; exact flashProgram_keeps_memoriesOk a data h
    | programPage a => rw [Task.whole, Progress.state_thenTasks]; exact flashProgram_keeps_memoriesOk a _ h
    | erase a => rw [Task.whole, Progress.state_thenTasks]; exact flashErase_keeps_memoriesOk a h
    | _ => exact absurd rfl hr

theorem Task.whole_leaves_taskOk {t : Task} (ht : taskOk t = true) (s : State) :
    (t.whole s).Leaves fun u => taskOk u = true := by
  cases t with
  | sampleStrap => simp [Task.whole, Progress.Leaves]
  | startResponder => simp [Task.whole, Progress.Leaves]
  | bytes cells => simp [Task.whole, Progress.Leaves]
  | loadActive n => exact loadSlotTasks_ok _ _ (of_decide_eq_true ht)
  | status => exact List.forall_mem_singleton.mpr (statusCells_ok _ _)
  | storePages slot => exact (storePagesStep_leaves slot s).imp fun u ⟨_, e⟩ => e ▸ rfl
  | storeTuples slot pb =>
    exact (storeTuplesStep_leaves slot pb s).imp fun u hu => by rcases hu with rfl | ⟨_, _, _, rfl⟩ <;> rfl
  | storePage slot pb page p2 t2 => exact (storePageStep_leaves slot pb page p2 t2 s).imp fun u ⟨_, _, e⟩ => e ▸ rfl
  | _ => exact Res.thenTasks_none_leaves _ _

/-- What a step of a task keeps, and what it leaves to do. -/
theorem Task.step_ok (c : Choice) {t : Task} {s : State} (ht : taskOk t = true) (h : MemoriesOk s) :
    MemoriesOk (t.step c s).state ∧ (t.step c s).Leaves fun u => taskOk u = true := by
  cases t with
  | copy segs =>
    obtain ⟨hbelow, hp⟩ := (taskOk_copy_iff segs).mp ht
    rw [Task.step]
    rcases copyStep_cases c segs s with ⟨_, e⟩ | ⟨pre, g, post, off, n, rfl, hn, e⟩ <;> rw [e]
    · exact ⟨h, fun t ht => absurd ht List.not_mem_nil⟩
    · have hg := hbelow g (by simp)
      have hrest : taskOk (.copy (withoutPart pre post g off n)) = true := by
        rw [taskOk_copy_iff]
        refine ⟨fun k hk => ?_, (List.pairwise_cons.mp (pairwise_part_withoutPart hn hp)).2⟩
        rcases mem_withoutPart.mp hk with hk | ⟨_, rfl⟩ | ⟨_, rfl⟩ | hk
        · exact hbelow k (by simp [hk])
        · simp only [Segment.part]; omega
        · simp only [Segment.part]; omega
        · exact hbelow k (by simp [hk])
      rw [Progress.state_thenTasks]
      refine ⟨copySegment_keeps_memoriesOk (by simp only [Segment.part]; omega) h,
        Res.thenTasks_leaves _ _ fun u _ t ht => ?_⟩
      unfold copyLeft at ht
      split at ht
      · cases ht
      · rwa [List.mem_singleton.mp ht]
  | bytes cells =>
    obtain ⟨hbelow, hn⟩ := (taskOk_bytes_iff cells).mp ht
    rw [Task.step]
    rcases bytesStep_cases c cells s with ⟨_, e⟩ | ⟨i, cell, hcell, e⟩ <;> rw [e]
    · exact ⟨h, fun t ht => absurd ht List.not_mem_nil⟩
    · have hrest : taskOk (.bytes (cells.eraseIdx i)) = true := by
        rw [taskOk_bytes_iff]
        exact ⟨fun c hc => hbelow c (List.mem_of_mem_eraseIdx hc), hn.sublist ((List.eraseIdx_sublist _ _).map _)⟩
      refine ⟨h.writeCells (cells := [cell]) (by simpa using hbelow cell (List.mem_of_getElem? hcell)), fun t ht => ?_⟩
      unfold bytesLeft at ht
      split at ht
      · cases ht
      · rwa [List.mem_singleton.mp ht]
  | _ => exact ⟨Task.whole_keeps_memoriesOk ht h, Task.whole_leaves_taskOk ht s⟩

/-! ### DISP's moves -/

/-- Where nothing is left to do, the memories alone make the invariant. -/
theorem finish_memoryInv {x : Res} (h : MemoriesOk x.state) : MemoryInv x.finish := by
  cases x with
  | done s => exact MemoriesOk.memoryInv_of_idle (h.of_eq rfl rfl rfl) rfl trivial
  | stop s r => exact MemoriesOk.memoryInv_of_idle (h.of_eq rfl rfl rfl) rfl trivial

theorem finish_runTasks_memoryInv {todo : List Task} (htodo : ∀ t ∈ todo, taskOk t = true) {s : State}
    (h : MemoriesOk s) : MemoryInv (runTasks todo s).finish :=
  finish_memoryInv (runTasks_keeps (P := MemoriesOk) (ok := fun t => taskOk t = true)
    (fun _ _ => Task.whole_keeps_memoriesOk) (fun _ s ht _ => Task.whole_leaves_taskOk ht s) htodo h)

/-- D45: payload bytes that are due lie in the page buffer. -/
theorem MemoryInv.due_below {s : State} (h : MemoryInv s) {i : Nat} {due : List Host.Cell} (hd : s.dctl = .hostCopy i due) :
    i < hostCopyWords ∧ (∀ c ∈ due, c.1 < 2 * i) ∧ (due.map Prod.fst).Nodup := by
  have hdue := h.due
  simpa only [dueOk, hd] using hdue

theorem settle_memoryInv {s : State} (h : MemoryInv s) : MemoryInv (settle s) := by
  have htodo := h.todo
  unfold settle
  split <;> rename_i hd
  · rw [State.todo, hd] at htodo
    exact finish_runTasks_memoryInv htodo h.memories
  · rw [State.todo, hd] at htodo
    exact finish_runTasks_memoryInv htodo h.memories
  · obtain ⟨hi, hdue, _⟩ := h.due_below hd
    refine MemoriesOk.memoryInv_of_idle ((h.memories.writeCells fun c hc => ?_).of_eq rfl rfl rfl) rfl ⟨hi, by simp, by simp⟩
    have := hdue c hc
    simp only [hostCopyWords, romBytes] at hi ⊢
    omega
  · exact h
  · exact h

theorem bracket_ok {body : List Task} (h : ∀ t ∈ body, taskOk t = true) : ∀ t ∈ bracket body, taskOk t = true := by
  simp only [bracket, List.mem_cons, List.mem_append, List.not_mem_nil, or_false]
  rintro t (rfl | ht | rfl)
  · decide
  · exact h t ht
  · decide

/-- R166: what dispatch gives DISP to do is in order. -/
theorem dispatch_memoryInv (v : Addr) {s : State} (h : MemoriesOk s) : MemoryInv (dispatch v s) := by
  rcases dispatch_cases v s with e | e | ⟨op, todo, e, hop⟩ <;> rw [e]
  · exact MemoriesOk.memoryInv_of_idle (h.of_eq rfl rfl rfl) rfl trivial
  · exact MemoriesOk.memoryInv_of_idle (h.of_eq rfl rfl rfl) rfl ⟨by decide, by simp, by simp⟩
  · refine MemoriesOk.memoryInv (h.of_eq rfl rfl rfl) (show ∀ t ∈ todo, taskOk t = true from ?_) trivial
    rcases hop with ⟨_, rfl | ⟨_, rfl⟩⟩ | ⟨_, rfl⟩ | ⟨_, rfl⟩ | ⟨_, rfl⟩ | ⟨_, rfl⟩ | ⟨_, rfl⟩
    · simp
    · exact List.forall_mem_cons.mpr ⟨rfl, loadSlotTasks_ok _ _ le_rfl⟩
    · simp [taskOk]
    · simp [taskOk, responseBytes, romBytes]
    · exact bracket_ok (by simp [taskOk, pageSize, romBytes])
    · exact bracket_ok (by simp [taskOk])
    · exact bracket_ok (by simp [taskOk])

/-- R186: the bytes of a payload word go to its own two offsets. -/
theorem map_fst_payloadCells (i : Nat) (data : Half) : (payloadCells i data).map Prod.fst = [2 * i, 2 * i + 1] := rfl

theorem takePayload_memoryInv (data : Half) {i : Nat} {due : List Host.Cell} {s : State} (h : MemoriesOk s)
    (hi : i < hostCopyWords) (hdue : ∀ c ∈ due, c.1 < 2 * i) (hn : (due.map Prod.fst).Nodup) :
    MemoryInv (takePayload data i due s) := by
  have hbelow : ∀ c ∈ due ++ payloadCells i data, c.1 < 2 * (i + 1) := by
    intro c hc
    rcases List.mem_append.mp hc with hc | hc
    · have := hdue c hc; omega
    · have := List.mem_map_of_mem (f := Prod.fst) hc
      rw [map_fst_payloadCells] at this
      simp at this; omega
  have hnodup : ((due ++ payloadCells i data).map Prod.fst).Nodup := by
    rw [List.map_append, map_fst_payloadCells, List.nodup_append]
    refine ⟨hn, by simp, fun a ha b hb => ?_⟩
    obtain ⟨c, hc, rfl⟩ := List.mem_map.mp ha
    have := hdue c hc
    simp at hb; omega
  unfold takePayload
  dsimp only
  split
  next hlt => exact MemoriesOk.memoryInv_of_idle (h.of_eq rfl rfl rfl) rfl ⟨hlt, hbelow, hnodup⟩
  next =>
    refine MemoriesOk.memoryInv (h.of_eq rfl rfl rfl) (List.forall_mem_singleton.mpr ?_) trivial
    rw [taskOk_bytes_iff]
    refine ⟨fun c hc => ?_, hnodup⟩
    have := hbelow c hc
    simp only [hostCopyWords, romBytes] at hi ⊢
    omega

theorem startInstr_memoryInv {s : State} {c : Context} (hc : s.context = some c) (v : Addr) (q : List FifoWord)
    (h : MemoryInv s) : MemoryInv (startInstr (decode c v) { s with q := q }) := by
  have hmem : MemoriesOk { s with q := q } := h.memories.of_eq rfl rfl rfl
  rcases startInstr_cases hc v q with ⟨_, _, e⟩ | ⟨_, _, e⟩ | ⟨i, due, hd, e⟩ <;> rw [e]
  · exact h.of_eq rfl rfl rfl rfl
  · exact dispatch_memoryInv v hmem
  · obtain ⟨hi, hdue, hn⟩ := h.due_below hd
    exact takePayload_memoryInv _ hmem hi hdue hn

theorem dispStep_memoryInv (c : Choice) {s : State} (h : MemoryInv s) : MemoryInv (dispStep c s) := by
  rcases dispStep_cases c s with ⟨back, t, ts, hback, hd, e⟩ | ⟨back, hback, hd, e⟩ | ⟨i, due, j, cell, hd, hcell, e⟩ |
    ⟨cx, v, rest, hc, _, e⟩ | e <;> rw [e]
  · have htodo := h.todo
    rw [State.todo_of_dctl hback hd] at htodo
    obtain ⟨ht, hts⟩ := List.forall_mem_cons.mp htodo
    obtain ⟨hmem, hleft⟩ := Task.step_ok c ht h.memories
    cases hstep : t.step c s with
    | cont more u =>
      rw [hstep] at hmem hleft
      dsimp only
      refine MemoriesOk.memoryInv (hmem.of_eq rfl rfl rfl) ?_ ?_
      · rw [State.todo_of_dctl hback rfl]
        exact fun t ht => (List.mem_append.mp ht).elim (hleft t) (hts t)
      · rcases hback with rfl | ⟨op, arg, rfl⟩ <;> trivial
    | stop u r =>
      rw [hstep] at hmem
      exact finish_memoryInv (x := .stop u r) hmem
  · exact finish_memoryInv (x := .done s) h.memories
  · obtain ⟨hi, hdue, hn⟩ := h.due_below hd
    have hlt := hdue cell (List.mem_of_getElem? hcell)
    refine MemoriesOk.memoryInv_of_idle ((h.memories.writeCells (cells := [cell]) ?_).of_eq rfl rfl rfl) rfl
      ⟨hi, fun c hc => hdue c (List.mem_of_mem_eraseIdx hc), hn.sublist ((List.eraseIdx_sublist _ _).map _)⟩
    simp only [List.mem_singleton, forall_eq, hostCopyWords, romBytes] at hi ⊢
    omega
  · exact startInstr_memoryInv hc _ rest h
  · exact h

/-! ### The other moves -/

theorem BusFrame.memoryInv {s t : State} (k : BusFrame s t) (h : MemoryInv s) : MemoryInv t :=
  h.of_eq k.img k.flash k.params k.dctl

/-- R231: what a power loss leaves in FLASH lies in the range being written, which was checked. -/
theorem powerCycle_memoryInv (torn : List Byte) {s : State} (h : MemoryInv s) : MemoryInv (powerCycle torn s) := by
  have hflash : Memory.wf (tornFlash torn s) = true ∧ Memory.below (tornFlash torn s) (flashSize s.params) = true := by
    unfold tornFlash
    split
    · exact ⟨h.flashWf, h.flashBelow⟩
    · split
      next hr =>
        refine ⟨Memory.wf_overwrite _ h.flashWf _, Memory.below_overwrite _ h.flashBelow ?_⟩
        have := le_flashSize_of_rangeOk hr
        rw [List.length_take]
        omega
      next => exact ⟨h.flashWf, h.flashBelow⟩
  refine ⟨Memory.wf_writeCells _ Memory.wf_nil, Memory.below_writeCells _ rfl fun c hc => ?_, hflash.1, hflash.2, ?_, trivial⟩
  · exact of_decide_eq_true (List.mem_filter.mp hc).2
  · show ∀ t ∈ bootTasks, taskOk t = true
    simp [bootTasks, taskOk, romBytes]

/-- Settles O54: HOST's and RESP's moves leave the memories alone, DISP's write what its tasks and the due bytes allow, and
a power cycle writes canonical memories. -/
theorem memoryInvKept : Obligations.MemoryInvKept := by
  unfold Obligations.MemoryInvKept
  intro s t hs h
  have hu : MemoryInv (nextEvent s).2 := by
    obtain ⟨draws, script, e⟩ := nextEvent_snd s
    rw [e]
    exact hs.of_eq rfl rfl rfl rfl
  rcases step_cases h with ⟨a, _, rfl⟩ | ⟨levels, _, rfl⟩ | ⟨_, rfl⟩ | ⟨_, rfl⟩ | ⟨c, _, rfl⟩ | ⟨_, rfl⟩ |
    ⟨c, v, rest, _, hc, _, rfl⟩ | ⟨n, _, rfl⟩ | ⟨torn, _, rfl⟩
  · exact (hostRead_frame a _).memoryInv hu
  · exact (hostDrive_frame levels _).memoryInv hu
  · exact (respStep_frame _).memoryInv hu
  · exact (hostLatch_frame _).memoryInv hu
  · exact dispStep_memoryInv c hu
  · exact settle_memoryInv hu
  · exact settle_memoryInv (startInstr_memoryInv hc _ rest hu)
  · exact hu.of_eq rfl rfl rfl rfl
  · exact powerCycle_memoryInv torn hu

end Sys2Proof.Machine
end

section
/-! Which flash bytes each instruction of DISP may change (spec/20_memory.md R66, R68; spec/44_commands_flash.md R202 to
R204; spec/45_config_store.md R225). -/

namespace Sys2Proof.Machine

/-! ### Tasks that leave FLASH alone -/

/-- The tasks that write no flash byte and leave none that does. -/
def Task.sparesFlash : Task → Bool
  | .sampleStrap => true
  | .loadActive _ => true
  | .status => true
  | .check _ _ => true
  | .copy _ => true
  | .bytes _ => true
  | .startResponder => true
  | _ => false

theorem copySegment_flash (g : Segment) (s : State) : (copySegment g s).state.flash = s.flash := by
  rcases copySegment_cases g s with ⟨f, e⟩ | ⟨n, _, e⟩ <;> rw [e] <;> rfl

theorem copySegments_flash (gs : List Segment) (s : State) : (copySegments gs s).state.flash = s.flash :=
  copySegments_rel (R := fun s t => t.flash = s.flash) (fun _ => rfl) (fun h k => k.trans h) copySegment_flash gs s

theorem Task.whole_flash {t : Task} (ht : (t.sparesFlash || t.reads) = true) (s : State) :
    (t.whole s).state.flash = s.flash := by
  by_cases hr : t.reads = true
  · obtain ⟨f, n, e⟩ := Task.whole_of_reads hr s
    rw [e]
  · cases t with
    | sampleStrap => rfl
    | startResponder => rfl
    | bytes cells => rfl
    | copy segs =>
      rw [Task.whole, Progress.state_thenTasks]
      exact copySegments_flash segs s
    | _ => simp [Task.sparesFlash, Task.reads] at ht hr

theorem Task.whole_leaves_sparesFlash {t : Task} (ht : t.sparesFlash = true) (s : State) :
    (t.whole s).Leaves fun u => u.sparesFlash = true := by
  cases t with
  | sampleStrap => simp [Task.whole, Progress.Leaves]
  | startResponder => simp [Task.whole, Progress.Leaves]
  | bytes cells => simp [Task.whole, Progress.Leaves]
  | loadActive n => simp [Task.whole, Progress.Leaves, loadSlotTasks, Task.sparesFlash]
  | status => simp [Task.whole, Progress.Leaves, Task.sparesFlash]
  | check a n => exact Res.thenTasks_none_leaves _ _
  | copy segs => exact Res.thenTasks_none_leaves _ _
  | _ => cases ht

/-- How an operation ends changes no memory. -/
theorem Res.finish_flash (x : Res) : x.finish.flash = x.state.flash := by cases x <;> rfl

theorem settle_startCommand_flash {op : Op} {arg : Arg} {todo : List Task} (h : ∀ t ∈ todo, t.sparesFlash = true)
    (s : State) : (settle (startCommand op arg todo s)).flash = s.flash := by
  rw [settle_of_dctl (.inr ⟨op, arg, rfl⟩) (startCommand_dctl op arg todo s), Res.finish_flash]
  exact runTasks_keeps (P := fun t => t.flash = s.flash) (ok := fun t => t.sparesFlash = true)
    (fun t u ht hu => (Task.whole_flash (by simp [ht]) u).trans hu)
    (fun t u ht _ => Task.whole_leaves_sparesFlash ht u) h rfl

theorem settle_hostCopy_flash {s : State} {i : Nat} {due : List Host.Cell} (hd : s.dctl = .hostCopy i due) :
    (settle s).flash = s.flash := by
  simp only [settle, hd]

/-- R186: payload words write IMG only. -/
theorem settle_takePayload_flash (data : Half) (i : Nat) (due : List Host.Cell) (s : State) :
    (settle (takePayload data i due s)).flash = s.flash := by
  unfold takePayload
  dsimp only
  split <;> rfl

/-! ### Tasks that write within a range -/

/-- FLASH outside `lo .. hi - 1` is as it was, and so are the parameters. -/
structure FlashOutside (lo hi : Nat) (s t : State) : Prop where
  params : t.params = s.params
  read : ∀ x, x < lo ∨ hi ≤ x → Memory.read t.flash x = Memory.read s.flash x

theorem FlashOutside.refl (lo hi : Nat) (s : State) : FlashOutside lo hi s s := ⟨rfl, fun _ _ => rfl⟩

theorem FlashOutside.trans {lo hi : Nat} {s t u : State} (h : FlashOutside lo hi s t) (k : FlashOutside lo hi t u) :
    FlashOutside lo hi s u :=
  ⟨k.params.trans h.params, fun x hx => (k.read x hx).trans (h.read x hx)⟩

theorem FlashOutside.of_program {lo hi a : Nat} {data : List Byte} (hlo : lo ≤ a) (hhi : a + data.length ≤ hi) (s : State) :
    FlashOutside lo hi s (flashProgram a data s).state := by
  rcases flashProgram_cases a data s with ⟨_, f, e⟩ | ⟨r, e⟩ <;> rw [e]
  · refine ⟨rfl, fun x hx => ?_⟩
    simp only [Res.state]
    rw [Memory.read_program, if_neg (by omega)]
  · exact .refl lo hi s

theorem FlashOutside.of_erase {lo hi a : Nat} (hlo : lo ≤ a) (hhi : a + sectorSize ≤ hi) (s : State) :
    FlashOutside lo hi s (flashErase a s).state := by
  rcases flashErase_cases a s with ⟨_, f, e⟩ | ⟨r, e⟩ <;> rw [e]
  · refine ⟨rfl, fun x hx => ?_⟩
    simp only [Res.state]
    rw [Memory.read_erase, if_neg (by omega)]
  · exact .refl lo hi s

/-- R225: the range holds the config sector, and the fields of a config page lie inside the page. -/
structure HoldsStore (p : Params) (lo hi : Nat) : Prop where
  layout : cfgLayoutLegal p.cfgLayout = true
  lo_le : lo ≤ p.configSector
  le_hi : p.configSector + sectorSize ≤ hi

/-- The tasks that, under given parameters, write flash bytes in `lo .. hi - 1` only. -/
def Task.WritesWithin (p : Params) (lo hi : Nat) : Task → Prop
  | .program a data => lo ≤ a ∧ a + data.length ≤ hi
  | .programPage a => lo ≤ a ∧ a + pageSize ≤ hi
  | .erase a => lo ≤ a ∧ a + sectorSize ≤ hi
  | .storePages _ => HoldsStore p lo hi
  | .storeTuples _ pb => HoldsStore p lo hi ∧ ctz32 pb < cfgPages
  | .storePage _ _ _ p2 t2 => HoldsStore p lo hi ∧ p2 < cfgPages ∧ t2 < cfgTuples
  | _ => True

theorem Task.writesWithin_of_sparesFlash {t : Task} (h : t.sparesFlash = true) (p : Params) (lo hi : Nat) :
    t.WritesWithin p lo hi := by
  cases t <;> trivial

theorem Task.whole_flashOutside {p : Params} {lo hi : Nat} {t : Task} (ht : t.WritesWithin p lo hi) (s : State) :
    FlashOutside lo hi s (t.whole s).state := by
  by_cases hf : (t.sparesFlash || t.reads) = true
  · exact ⟨(Task.whole_frame t s).params, fun x _ => by rw [Task.whole_flash hf]⟩
  · cases t with
    | program a data =>
      rw [Task.whole, Progress.state_thenTasks]
      exact .of_program ht.1 ht.2 s
    | programPage a =>
      rw [Task.whole, Progress.state_thenTasks]
      exact .of_program ht.1 (by rw [Memory.length_readList]; exact ht.2) s
    | erase a =>
      rw [Task.whole, Progress.state_thenTasks]
      exact .of_erase ht.1 ht.2 s
    | _ => exact absurd rfl hf

/-! ### The store update -/

theorem length_setWordAt {bytes : List Byte} {off : Nat} (h : off + 4 ≤ bytes.length) (x : BitVec 32) :
    (setWordAt bytes off x).length = bytes.length := by
  simp only [setWordAt, le32, List.length_append, List.length_take, List.length_drop, List.length_cons, List.length_nil]
  omega

/-- R225, R226: the image of a target page is a page. -/
theorem length_storePageImage {p : Params} (hl : cfgLayoutLegal p.cfgLayout = true) {img : List Byte}
    (himg : img.length = pageSize) (slot page p2 : Nat) {t2 : Nat} (ht : t2 < cfgTuples) :
    (storePageImage p img slot page p2 t2).length = pageSize := by
  obtain ⟨hpages, htuples, hslots⟩ := cfgLayoutLegal_bounds hl
  have hslot := hslots t2 ht
  have hset : ∀ (bytes : List Byte) (off : Nat) (x : BitVec 32), off + 4 ≤ pageSize → bytes.length = pageSize →
      (setWordAt bytes off x).length = pageSize := fun bytes off x ho hb => by rw [length_setWordAt (by omega), hb]
  unfold storePageImage
  dsimp only
  refine hset _ _ _ hslot (hset _ _ _ htuples ?_)
  split
  · exact himg
  · exact hset _ _ _ hpages himg

theorem storePagesStep_leaves_within {lo hi : Nat} (slot : Nat) {s : State} (h : HoldsStore s.params lo hi) :
    (storePagesStep slot s).Leaves (Task.WritesWithin s.params lo hi) := by
  unfold storePagesStep
  split
  · trivial
  · dsimp only
    split
    · trivial
    next hlt => exact List.forall_mem_singleton.mpr ⟨h, Nat.not_le.mp hlt⟩

/-- R225: the next tuple is one of its page, and its page is the sector's or the one after them. -/
theorem nextTuple_bounds {page t : Nat} (hp : page < cfgPages) (ht : t < cfgTuples) :
    (nextTuple page t).1 ≤ cfgPages ∧ (nextTuple page t).2 < cfgTuples := by
  unfold nextTuple
  by_cases hlast : t + 1 = cfgTuples
  · rw [if_pos hlast]
    exact ⟨hp, Nat.zero_lt_of_lt ht⟩
  · rw [if_neg hlast]
    exact ⟨hp.le, by dsimp only; omega⟩

theorem storeTuplesStep_leaves_within {lo hi : Nat} (slot : Nat) {pb : BitVec 32} {s : State}
    (h : HoldsStore s.params lo hi) (hpb : ctz32 pb < cfgPages) :
    (storeTuplesStep slot pb s).Leaves (Task.WritesWithin s.params lo hi) := by
  unfold storeTuplesStep
  rcases flashRead_cases (tbAddr s.params (ctz32 pb)) 4 s with ⟨_, f, e⟩ | ⟨r, e⟩ <;> rw [e]
  · dsimp only
    split
    · trivial
    next hlt =>
      obtain ⟨hp2, ht2⟩ := nextTuple_bounds hpb (Nat.not_le.mp hlt)
      split
      · refine List.forall_mem_cons.mpr ⟨⟨h.lo_le, h.le_hi⟩, List.forall_mem_singleton.mpr ⟨h, by decide, ht2⟩⟩
      next hne => exact List.forall_mem_singleton.mpr ⟨h, by omega, ht2⟩
  · trivial

theorem storePageStep_leaves_within {lo hi : Nat} (slot : Nat) (pb : BitVec 32) (page : Nat) {p2 t2 : Nat} {s : State}
    (h : HoldsStore s.params lo hi) (hp2 : p2 < cfgPages) (ht2 : t2 < cfgTuples) :
    (storePageStep slot pb page p2 t2 s).Leaves (Task.WritesWithin s.params lo hi) := by
  obtain ⟨hl, hlo, hhi⟩ := h
  obtain ⟨hpages, _, _⟩ := cfgLayoutLegal_bounds hl
  simp only [cfgPages, sectorSize] at hp2 hhi
  unfold storePageStep
  rcases flashRead_cases (cfgPageAddr s.params p2) pageSize s with ⟨_, f, e⟩ | ⟨r, e⟩ <;> rw [e]
  · refine List.forall_mem_cons.mpr ⟨?_, fun t ht => ?_⟩
    · have hlen := length_storePageImage hl (Memory.length_readList s.flash (cfgPageAddr s.params p2) pageSize) slot page p2 ht2
      constructor
      · simp only [cfgPageAddr]; omega
      · rw [hlen]; simp only [cfgPageAddr, pageSize]; omega
    · split at ht
      · rw [List.mem_singleton.mp ht]
        simp only [pageSize] at hpages
        constructor
        · simp only [pbAddr]; omega
        · simp only [pbAddr, le32, List.length_cons, List.length_nil]; omega
      · cases ht
  · trivial

theorem Task.whole_leaves_within {lo hi : Nat} {t : Task} {s : State} (ht : t.WritesWithin s.params lo hi) :
    (t.whole s).Leaves (Task.WritesWithin s.params lo hi) := by
  by_cases hf : t.sparesFlash = true
  · exact (Task.whole_leaves_sparesFlash hf s).imp fun u hu => Task.writesWithin_of_sparesFlash hu _ _ _
  · cases t with
    | storePages slot => exact storePagesStep_leaves_within slot ht
    | storeTuples slot pb => exact storeTuplesStep_leaves_within slot ht.1 ht.2
    | storePage slot pb page p2 t2 => exact storePageStep_leaves_within slot pb page ht.1 ht.2.1 ht.2.2
    | program a data => exact Res.thenTasks_none_leaves _ _
    | programPage a => exact Res.thenTasks_none_leaves _ _
    | erase a => exact Res.thenTasks_none_leaves _ _
    | _ => exact absurd rfl hf

/-- R68: a command whose tasks write within a range changes no flash byte outside it, also where it faults. -/
theorem read_settle_startCommand_flash {lo hi : Nat} {op : Op} {arg : Arg} {todo : List Task} {s : State}
    (h : ∀ t ∈ todo, t.WritesWithin s.params lo hi) {x : Nat} (hx : x < lo ∨ hi ≤ x) :
    Memory.read (settle (startCommand op arg todo s)).flash x = Memory.read s.flash x := by
  have hrun : FlashOutside lo hi s (runTasks todo (startCommand op arg todo s)).state :=
    runTasks_keeps (P := FlashOutside lo hi s) (ok := Task.WritesWithin s.params lo hi)
      (fun t u ht hu => hu.trans (Task.whole_flashOutside ht u))
      (fun t u ht hu => by rw [← hu.params] at ht ⊢; exact Task.whole_leaves_within ht) h ⟨rfl, fun _ _ => rfl⟩
  rw [settle_of_dctl (.inr ⟨op, arg, rfl⟩) (startCommand_dctl op arg todo s), Res.finish_flash, hrun.read x hx]

/-- The sentinel's writes spare FLASH. -/
theorem bracket_writesWithin {p : Params} {lo hi : Nat} {t : Task} (h : t.WritesWithin p lo hi) :
    ∀ u ∈ bracket [t], u.WritesWithin p lo hi := by
  simp only [bracket, List.singleton_append, List.mem_cons, List.not_mem_nil, or_false]
  rintro u (rfl | rfl | rfl)
  · trivial
  · exact h
  · trivial

/-- Settles O38: each command by the range that its tasks write, or because none of them writes FLASH. -/
theorem flashFrame : Obligations.FlashFrame := by
  unfold Obligations.FlashFrame
  intro s t
  refine ⟨fun page h x hx => ?_, fun sector h x hx => ?_, fun slot hl h x hx => ?_, fun arg h => ?_, fun arg h => ?_,
    fun arg h => ?_, fun page h => ?_, fun ign d h => ?_⟩
  · cases h
    refine read_settle_startCommand_flash (bracket_writesWithin ?_) hx
    exact ⟨le_rfl, le_rfl⟩
  · cases h
    refine read_settle_startCommand_flash (bracket_writesWithin ?_) hx
    exact ⟨le_rfl, le_rfl⟩
  · cases h
    refine read_settle_startCommand_flash ?_ hx
    split
    · refine List.forall_mem_cons.mpr ⟨⟨hl, le_rfl, le_rfl⟩, ?_⟩
      simp [loadSlotTasks, Task.WritesWithin]
    · simp
  · cases h
    exact settle_startCommand_flash (by simp [Task.sparesFlash]) s
  · cases h
    exact settle_startCommand_flash (by simp [Task.sparesFlash]) s
  · cases h
    exact settle_hostCopy_flash rfl
  · cases h
    exact settle_startCommand_flash (by simp [bracket, Task.sparesFlash]) s
  · rw [exec, execPayload] at h
    split at h
    · cases h
      exact settle_takePayload_flash d _ _ s
    · cases h

end Sys2Proof.Machine
end

section
/-! The encoder and the decoder undo each other: the two fields of a command word, then each context, then the table's rows
(spec/30_encoding.md R84 to R93). -/

namespace Sys2Proof

/-- The upper and the lower part of a word, put together again. -/
theorem append_extractLsb'_eq_self {m n : Nat} (v : BitVec (m + n)) : v.extractLsb' n m ++ v.extractLsb' 0 n = v :=
  (BitVec.extractLsb'_append_extractLsb'_eq_extractLsb' (Nat.zero_add n).symm).trans BitVec.extractLsb'_eq_self

/-! ### The fields of a command word -/

/-- R85, R90: of a word that is an argument already, `encodeCommand` keeps every bit. -/
theorem encodeCommand_toNat (op : BitVec 4) (arg : Arg) : encodeCommand op arg.toNat = op ++ arg := by
  rw [encodeCommand, BitVec.ofNat_toNat, BitVec.setWidth_eq]

/-- R86: a surplus bit of the argument is dropped. -/
theorem encodeCommand_mod (op : BitVec 4) (arg : Nat) : encodeCommand op (arg % 2 ^ 14) = encodeCommand op arg := by
  have hmod : BitVec.ofNat 14 (arg % 2 ^ 14) = BitVec.ofNat 14 arg :=
    BitVec.eq_of_toNat_eq (by rw [BitVec.toNat_ofNat, BitVec.toNat_ofNat, Nat.mod_mod])
  rw [encodeCommand, encodeCommand, hmod]

@[simp] theorem opcodeOf_encodeCommand (op : BitVec 4) (arg : Nat) : opcodeOf (encodeCommand op arg) = op :=
  BitVec.extractLsb'_append_eq_left

@[simp] theorem argOf_encodeCommand (op : BitVec 4) (arg : Nat) : argOf (encodeCommand op arg) = BitVec.ofNat 14 arg :=
  BitVec.extractLsb'_append_eq_right

/-- R86: the two fields are the whole word. -/
theorem encodeCommand_opcodeOf_argOf (v : Addr) : encodeCommand (opcodeOf v) (argOf v).toNat = v := by
  rw [encodeCommand_toNat]
  exact append_extractLsb'_eq_self (m := 4) (n := 14) v

theorem toNat_encodeCommand (op : BitVec 4) (arg : Nat) :
    (encodeCommand op arg).toNat = (op.toNat <<< 14) ||| (arg &&& 0x3FFF) := by
  rw [encodeCommand, BitVec.toNat_append, BitVec.toNat_ofNat, ← Nat.and_two_pow_sub_one_eq_mod]

/-- Settles O3: the word is the append of its two fields, of which the lower one takes its number modulo 2^14. -/
theorem commandWordCodec : Obligations.CommandWordCodec := by
  unfold Obligations.CommandWordCodec
  refine ⟨encodeCommand_opcodeOf_argOf, fun op arg => ⟨toNat_encodeCommand op arg, (encodeCommand_mod op arg).symm,
    opcodeOf_encodeCommand op arg, ?_⟩⟩
  rw [argOf_encodeCommand, BitVec.toNat_ofNat, ← Nat.and_two_pow_sub_one_eq_mod]

/-! ### Each context -/

/-- R167: bit 3 tells the opcodes 8 to 15 from the others. -/
theorem opcode_bit_three_iff (op : BitVec 4) : op.getLsbD 3 = true ↔ 8 ≤ op.toNat := by
  rw [BitVec.getLsbD_last, decide_eq_true_iff]

theorem decodeCommand_of_bit_three {v : Addr} (h : (opcodeOf v).getLsbD 3 = true) :
    decodeCommand v = .reservedOp8to15 (opcodeOf v) (argOf v) := by
  have hop : 8 ≤ (opcodeOf v).toNat := (opcode_bit_three_iff _).mp h
  unfold decodeCommand
  split
  case h_9 => rfl
  all_goals omega

theorem wellFormed_otherToken_iff (v : Addr) : (Instr.otherToken v).wellFormed = true ↔
    v ≠ magicToken0 ∧ v ≠ magicToken1 ∧ v ≠ magicToken2 := by
  simp [Instr.wellFormed, magicToken0, magicToken1, magicToken2, and_assoc]

/-- R176: a token that is none of the three magic ones. -/
theorem decodeToken_of_wellFormed {v : Addr} (h : (Instr.otherToken v).wellFormed = true) :
    decodeToken v = .otherToken v := by
  obtain ⟨h0, h1, h2⟩ := (wellFormed_otherToken_iff v).mp h
  rw [decodeToken, if_neg h0, if_neg h1, if_neg h2]

/-- R85 to R90: the decoder reads a well-formed instruction's word, in its context, as that instruction. -/
theorem decode_encode (i : Instr) (h : i.wellFormed = true) : decode i.context (encode i) = i := by
  cases i with
  | rd a | magic0 | magic1 | magic2 => rfl
  | otherToken v => exact decodeToken_of_wellFormed h
  | updateActiveSlot arg | writeStatusToSram arg | restorePageToSram arg | copyPageHostToSram arg
  | copyPageFlashToSram arg | copyPageSramToFlash arg | eraseFlashSector arg | reservedOp7 arg =>
    simp [Instr.context, decode, encode, decodeCommand]
  | reservedOp8to15 op arg =>
    have hop : (opcodeOf (encodeCommand op arg.toNat)).getLsbD 3 = true := by rwa [opcodeOf_encodeCommand]
    simp [Instr.context, decode, encode, decodeCommand_of_bit_three hop]
  | payload ign d =>
    rw [Instr.context, decode, encode, Instr.payload.injEq]
    exact ⟨BitVec.extractLsb'_append_eq_left, BitVec.extractLsb'_append_eq_right⟩

/-- Settles O1: context by context. -/
theorem decodeOfEncode : Obligations.DecodeOfEncode := decode_encode

/-- R91, R93: a well-formed instruction of a context whose word is the value. -/
def Instr.ReadsAs (i : Instr) (c : Context) (v : Addr) : Prop :=
  encode i = v ∧ i.context = c ∧ i.wellFormed = true

theorem decodeToken_readsAs (v : Addr) : (decodeToken v).ReadsAs .token v := by
  unfold decodeToken
  split
  · exact ⟨Eq.symm ‹_›, rfl, rfl⟩
  · split
    · exact ⟨Eq.symm ‹_›, rfl, rfl⟩
    · split
      · exact ⟨Eq.symm ‹_›, rfl, rfl⟩
      · exact ⟨rfl, rfl, (wellFormed_otherToken_iff v).mpr ⟨‹_›, ‹_›, ‹_›⟩⟩

theorem decodeCommand_readsAs (v : Addr) : (decodeCommand v).ReadsAs .command v := by
  have row {op : BitVec 4} (h : (opcodeOf v).toNat = op.toNat) : encodeCommand op (argOf v).toNat = v := by
    rw [← BitVec.eq_of_toNat_eq h, encodeCommand_opcodeOf_argOf]
  unfold decodeCommand
  split
  case h_9 =>
    refine ⟨encodeCommand_opcodeOf_argOf v, rfl, (opcode_bit_three_iff _).mpr ?_⟩
    by_contra! hlt
    interval_cases (opcodeOf v).toNat <;> contradiction
  all_goals exact ⟨row ‹_›, rfl, rfl⟩

theorem decode_payload_readsAs (v : Addr) : (decode .payload v).ReadsAs .payload v :=
  ⟨append_extractLsb'_eq_self (m := 2) (n := 16) v, rfl, rfl⟩

/-- Settles O2: context by context. -/
theorem encodeOfDecode : Obligations.EncodeOfDecode := by
  unfold Obligations.EncodeOfDecode
  intro c v
  cases c with
  | bus => exact ⟨rfl, rfl, rfl⟩
  | token => exact decodeToken_readsAs v
  | command => exact decodeCommand_readsAs v
  | payload => exact decode_payload_readsAs v

/-! ### The rows of the command words -/

/-- R87: a word with a command row's match is that row's word of its own argument. -/
theorem eq_encodeCommand_of_row {v : Addr} {op : BitVec 4} (h : v &&& 0x3C000#18 = encodeCommand op 0) :
    v = encodeCommand op (argOf v).toNat := by
  have hrow : encodeCommand (opcodeOf v) 0 = encodeCommand op 0 := by
    rw [← Laws.TableRow.command_row _ (argOf v), encodeCommand_opcodeOf_argOf, h]
  have hop : opcodeOf v = op := by simpa using congrArg opcodeOf hrow
  rw [← hop, encodeCommand_opcodeOf_argOf]

/-- R87, R167: bit 17 of a word is bit 3 of its opcode. -/
theorem opcodeOf_bit_three_of_row {v : Addr} (h : v &&& 0x20000#18 = 0x20000#18) : (opcodeOf v).getLsbD 3 = true := by
  have hbit := congrArg (·.getLsbD 17) h
  simpa [opcodeOf] using hbit

/-- A word is read as the instruction whose word it is. -/
theorem decode_of_eq_encode {i : Instr} {c : Context} {v : Addr} (hc : i.context = c) (hw : i.wellFormed = true)
    (h : v = encode i) : decode c v = i := by
  rw [← hc, h, decode_encode i hw]

/-- Settles O4: the bits under a row's mask give the opcode, and the word is the row's word of its own argument. -/
theorem opcodeMap : Obligations.OpcodeMap := by
  unfold Obligations.OpcodeMap
  intro v arg
  refine ⟨fun h => ?_, fun h => ?_, fun h => ?_, fun h => ?_, fun h => ?_, fun h => ?_, fun h => ?_, fun h => ?_,
    fun h => decodeCommand_of_bit_three (opcodeOf_bit_three_of_row h)⟩
  all_goals exact decode_of_eq_encode rfl rfl (eq_encodeCommand_of_row h)

/-! ### Words of Q, and words written out -/

/-- Settles O5: zero extension loses no bit. -/
theorem forwardedWordCarriesAddress : Obligations.ForwardedWordCarriesAddress := by
  unfold Obligations.ForwardedWordCarriesAddress
  intro a
  constructor
  · rw [tokenOf, forwardedWord, BitVec.setWidth_setWidth_of_le _ (by decide), BitVec.setWidth_eq]
  · exact BitVec.toNat_setWidth_of_le (by decide)

/-- Settles O6: the nine words are closed, so the decoder runs on them. -/
theorem writtenOutWordsDecode : Obligations.WrittenOutWordsDecode := by
  unfold Obligations.WrittenOutWordsDecode
  decide

end Sys2Proof
end

section
/-! Where the machine can stop: `PAYLOAD` outside HOSTCOPY, which no step executes (spec/30_encoding.md R91 to R93;
spec/60_exceptions.md R250). -/

namespace Sys2Proof.Machine

/-- Settles O29: the meaning of `PAYLOAD` asks DCTL for HOSTCOPY. -/
theorem payloadStopsOutsideHostCopy : Obligations.PayloadStopsOutsideHostCopy := by
  unfold Obligations.PayloadStopsOutsideHostCopy
  intro s ign d h
  rw [exec, execPayload]
  split
  case h_1 i due hd => exact absurd hd (h i due)
  case h_2 => rfl

/-- DISP's uninterrupted run executes only what its word decodes to in DISP's own context. -/
theorem dispRun_next (s : State) : ∃ t, dispRun s = .next t := by
  obtain h | ⟨c, v, rest, -, -, h⟩ := dispRun_cases s
  · exact ⟨_, h⟩
  · exact ⟨_, h⟩

theorem applyEvent_next (e : Event) (s : State) : ∃ t, applyEvent e s = .next t := by
  cases e with
  | run => exact dispRun_next s
  | read a | drive levels | sample | latch | disp c | fate n | powerCycle torn => exact ⟨_, rfl⟩

/-- Settles O8: whatever move the environment makes has a next state. -/
theorem stepNeverStops : Obligations.StepNeverStops := by
  unfold Obligations.StepNeverStops
  intro s
  rw [step_eq]
  exact applyEvent_next _ _

end Sys2Proof.Machine
end

section
/-! The address lines on the pins, as HOST drives and RESP samples them (spec/30_encoding.md R80 to R83). -/

namespace Sys2Proof.Machine

theorem addrPin_contiguous (p : Params) (j : Nat) : addrPin p .contiguous j = p.pins.addrBase + j := rfl

/-- R82: the split layout moves one address bit and closes the gap. -/
theorem addrPin_split (p : Params) (j : Nat) : addrPin p .split j =
    if j = p.splitBit then p.pins.splitPin
    else if j < p.splitBit then p.pins.addrBase + j else p.pins.addrBase + (j - 1) := rfl

/-- R82: with the highest bit moved there is no gap. -/
theorem addrPin_split_of_last {p : Params} (h : p.splitBit = 17) {j : Nat} (hj : j < 18) : addrPin p .split j =
    if j = 17 then p.pins.splitPin else p.pins.addrBase + j := by
  rw [addrPin_split, h]
  split
  · rfl
  · rw [if_pos (by omega)]

/-- Settles O44: the level of each bit's pin, pin by pin. -/
theorem addressPins : Obligations.AddressPins := by
  unfold Obligations.AddressPins
  intro p pins j hj
  refine ⟨?_, fun h => ?_, ?_⟩
  · rw [pinsAddr_getLsbD _ _ _ hj, addrPin_contiguous, pinLevel]
  · rw [pinsAddr_getLsbD _ _ _ hj, addrPin_split_of_last h hj, pinLevel]
  · rw [pinsAddr_getLsbD _ _ _ hj, addrPin_split, pinLevel]

theorem driveLines_level_ce (p : Params) (l : Layout) (b : Snapshot) (pins : Nat) :
    pinLevel (driveLines p l b pins) p.pins.ce = (b.ce != p.ceActiveLow) := by
  rw [driveLines, setPin_level, if_pos rfl]

theorem driveLines_level_oe {p : Params} {l : Layout} (h : linesDistinct p l = true) (b : Snapshot) (pins : Nat) :
    pinLevel (driveLines p l b pins) p.pins.oe = (b.oe != p.oeActiveLow) := by
  obtain ⟨-, ⟨hoe, -⟩, -⟩ := (linesDistinct_iff p l).mp h
  rw [driveLines, setPin_level, if_neg hoe, setPin_level, if_pos rfl]

theorem driveLines_level_addr {p : Params} {l : Layout} (h : linesDistinct p l = true) (b : Snapshot) (pins : Nat)
    {j : Nat} (hj : j < 18) : pinLevel (driveLines p l b pins) (addrPin p l j) = b.addr.getLsbD j := by
  obtain ⟨-, ⟨-, hoe⟩, hce, hinj⟩ := (linesDistinct_iff p l).mp h
  rw [driveLines, setPin_level, if_neg (hce j hj).symm, setPin_level, if_neg (hoe j hj).symm,
    driveAddr_level _ _ _ _ _ hinj hj]

/-- Settles O45: each line in turn, each on its own pin. -/
theorem drivenLinesAreSampled : Obligations.DrivenLinesAreSampled := by
  unfold Obligations.DrivenLinesAreSampled
  intro p l b pins h
  have haddr : pinsAddr p l (driveLines p l b pins) = b.addr :=
    BitVec.eq_of_getLsbD_eq fun j hj => by rw [pinsAddr_getLsbD _ _ _ hj, driveLines_level_addr h b pins hj]
  simp [snapshotOf, driveLines_level_oe h, driveLines_level_ce, haddr]

end Sys2Proof.Machine
end

section
/-! RESP's sample step, the data lines, and HOST's read transaction (spec/40_bus_responder.md R110 to R125;
spec/10_state.md R35). -/

namespace Sys2Proof.Machine

/-! ### The data lines -/

theorem dataLines_eq (s : State) : dataLines s = if s.ddir = .output then some s.dout else none := by
  unfold dataLines
  cases s.ddir <;> rfl

/-- R83: data line i lies on pin dataBase + i. -/
theorem dataPin_of_line (s : State) {i : Nat} (hi : i < 16) :
    dataPin s (s.params.pins.dataBase + i) = (dataLines s).map fun d => d.getLsbD i := by
  rw [dataPin, if_pos ⟨by omega, by omega⟩, Nat.add_sub_cancel_left]

theorem dataPin_of_no_line (s : State) {pin : Nat}
    (h : pin < s.params.pins.dataBase ∨ s.params.pins.dataBase + 16 ≤ pin) : dataPin s pin = none :=
  if_neg (by omega)

/-! ### The sample step -/

/-- Settles O39: the block's output line by line, then the sample by whether it qualifies and whether RESP runs. -/
theorem sampleStep : Obligations.SampleStep := by
  unfold Obligations.SampleStep
  intro s b
  refine ⟨dataLines_eq s, fun i hi => ?_, fun pin h => dataPin_of_no_line s h, fun hr hq => ?_, fun hr hq => ?_,
    respStep_of_idle⟩
  · rw [dataPin_of_line s hi, dataLines_eq, apply_ite (Option.map _)]
    rfl
  · rw [respStep_of_qualifying hr hq, busWord_eq]
    rfl
  · exact respStep_of_not_qualifying hr hq

theorem respStep_trig_of_qualifying {s : State} (hr : s.run = true) (hq : qualifying s.params (snapshot s) = true) :
    (respStep s).trig = true := by
  rw [respStep_of_qualifying hr hq]

/-- R114: while TRIG is set no sample forwards. -/
theorem respStep_q_of_trig {s : State} (h : s.trig = true) : (respStep s).q = s.q := by
  obtain hq | ⟨_, hclear, -⟩ := respStep_q s
  · exact hq
  · simp [h] at hclear

/-- Settles O42: the first sample sets TRIG, and HOST's levels leave TRIG and Q as they are. -/
theorem oneForwardPerAssertion : Obligations.OneForwardPerAssertion := by
  unfold Obligations.OneForwardPerAssertion
  intro s levels hr hq _
  have htrig : (hostDrive levels (respStep s)).trig = true := respStep_trig_of_qualifying hr hq
  exact respStep_q_of_trig htrig

/-! ### The latch -/

theorem hostLatch_of_sampled {s : State} (hs : s.sampled = true) (hd : s.ddir = .output) :
    hostLatch s = { s with latched := s.latched ++ [s.dout] } :=
  if_pos ⟨hs, hd⟩

theorem hostLatch_of_not_sampled {s : State} (hs : s.sampled = false) :
    hostLatch s = { s with latched := s.latched ++ [Config.freeBus s.draws], draws := s.draws + 1 } :=
  if_neg (by simp [hs])

/-- R120: an assertion ends where OE is deasserted, and with it what its samples have answered. -/
theorem hostDrive_sampled_of_released {s : State} {levels : Nat} (h : (snapshot (hostDrive levels s)).oe = false) :
    (hostDrive levels s).sampled = false :=
  Bool.and_eq_false_iff.mpr (.inr h)

theorem hostDrive_sampled_of_not_sampled {s : State} (levels : Nat) (h : s.sampled = false) :
    (hostDrive levels s).sampled = false :=
  Bool.and_eq_false_iff.mpr (.inl h)

/-- Settles O43: the deassertion clears the record of the assertion's samples, and driving levels does not set it. -/
theorem latchAfterReassertionIsFree : Obligations.LatchAfterReassertionIsFree := by
  unfold Obligations.LatchAfterReassertionIsFree
  intro s low high hlow
  exact hostLatch_of_not_sampled (hostDrive_sampled_of_not_sampled high (hostDrive_sampled_of_released hlow))

/-! ### The read transaction -/

theorem setPin_of_level {pins i : Nat} {level : Bool} (h : pinLevel pins i = level) : setPin pins i level = pins :=
  if_pos h

/-- D2: the strap has a pin of its own, so HOST's lines leave its level. -/
theorem driveLines_level_strap {p : Params} {l : Layout} (h : linesDistinct p l = true) (b : Snapshot) (pins : Nat) :
    pinLevel (driveLines p l b pins) p.pins.strap = pinLevel pins p.pins.strap := by
  obtain ⟨⟨hoe, hce, haddr⟩, -, -, -⟩ := (linesDistinct_iff p l).mp h
  rw [driveLines, setPin_level, if_neg hce, setPin_level, if_neg hoe, driveAddr_level_of_ne _ _ _ _ _ _ haddr]

theorem hostLines_eq {s : State} (h : linesDistinct s.params s.layout = true) (b : Snapshot) :
    hostLines b s = { s with pins := driveLines s.params s.layout b s.pins, sampled := s.sampled && b.oe } := by
  simp only [hostLines, hostDrive, setPin_of_level (driveLines_level_strap h b s.pins), drivenLinesAreSampled _ _ _ _ h]

theorem snapshot_hostLines {s : State} (h : linesDistinct s.params s.layout = true) (b : Snapshot) :
    snapshot (hostLines b s) = b := by
  rw [hostLines_eq h]
  exact drivenLinesAreSampled _ _ _ _ h

/-- R118 steps 1 to 3 with one sample: HOST's lines qualify, RESP answers, HOST latches the addressed word. -/
theorem hostLatch_respStep_hostLines {s : State} (hr : s.run = true) (h : linesDistinct s.params s.layout = true)
    {b : Snapshot} (hq : qualifying s.params b = true) :
    hostLatch (respStep (hostLines b s)) = { s with
      pins := driveLines s.params s.layout b s.pins
      dout := busWord s.img b.addr, ddir := .output, trig := true, sampled := true
      latched := s.latched ++ [busWord s.img b.addr]
      q := if s.trig = false ∧ s.q.length < s.params.fifoDepth then s.q ++ [forwardedWord b.addr] else s.q } := by
  have hq' : qualifying (hostLines b s).params (snapshot (hostLines b s)) = true := by rwa [snapshot_hostLines h]
  rw [respStep_of_qualifying (s := hostLines b s) hr hq', snapshot_hostLines h, hostLatch_of_sampled rfl rfl, hostLines_eq h]

/-- R118 steps 4 and 5 with one sample: HOST's lines do not qualify, and RESP releases the data lines. -/
theorem respStep_hostLines_of_not_qualifying {s : State} (hr : s.run = true)
    (h : linesDistinct s.params s.layout = true) {b : Snapshot} (hq : qualifying s.params b = false) :
    respStep (hostLines b s) = releaseData { s with pins := driveLines s.params s.layout b s.pins } := by
  have hq' : qualifying (hostLines b s).params (snapshot (hostLines b s)) = false := by rwa [snapshot_hostLines h]
  rw [respStep_of_not_qualifying (s := hostLines b s) hr hq', hostLines_eq h]
  rfl

/-- Settles O40: the asserted half of the transaction answers and forwards, the deasserted half releases the lines; the
strap's pin is none of those HOST drives. -/
theorem readTransaction : Obligations.ReadTransaction := by
  unfold Obligations.ReadTransaction
  intro s a hr h
  have hassert : qualifying s.params { oe := true, ce := true, addr := a } = true := rfl
  have hrelease : qualifying s.params { oe := false, ce := false, addr := a } = false := rfl
  refine ⟨driveLines s.params s.layout { oe := false, ce := false, addr := a }
      (driveLines s.params s.layout { oe := true, ce := true, addr := a } s.pins),
    drivenLinesAreSampled _ _ _ _ h, ?_, ?_⟩
  · rw [driveLines_level_strap h, driveLines_level_strap h]
  · show Host.Outcome.next (hostRead a s) = _
    rw [hostRead_eq, hostLatch_respStep_hostLines hr h hassert, respStep_hostLines_of_not_qualifying]
    · rfl
    · exact hr
    · exact h
    · exact hrelease

end Sys2Proof.Machine
end

section
/-! What one step can make of Q, and the invariant of Q that follows (spec/41_channel.md R140 to R144, R147). -/

namespace Sys2Proof.Machine

/-- R141, R142, R144: Q stays, loses its oldest word, or gains one address behind its newest word where there is room. -/
def QueueMove (depth : Nat) (q q' : List FifoWord) : Prop :=
  q' = q ∨ (∃ v, q = v :: q') ∨ ∃ a : Addr, q.length < depth ∧ q' = q ++ [forwardedWord a]

/-! ### The moves of RESP and HOST -/

theorem respStep_queueMove (s : State) : QueueMove s.params.fifoDepth s.q (respStep s).q := by
  rcases respStep_q s with e | ⟨a, _, hroom, e, _⟩
  · exact .inl e
  · exact .inr (.inr ⟨a, hroom, e⟩)

theorem hostLatch_q (s : State) : (hostLatch s).q = s.q := by
  unfold hostLatch
  split <;> rfl

theorem hostLatch_trig (s : State) : (hostLatch s).trig = s.trig := by
  unfold hostLatch
  split <;> rfl

/-- R114: two samples with nothing between them that writes Q or TRIG forward at most once: where the first forwards, it
leaves TRIG set for the second. -/
theorem respStep_queueMove_after {s u : State} (hq : u.q = (respStep s).q) (htrig : u.trig = (respStep s).trig)
    (hp : u.params = s.params) : QueueMove s.params.fifoDepth s.q (respStep u).q := by
  rcases respStep_q s with e | ⟨a, _, hroom, e, hset⟩
  · rw [← e, ← hq, ← hp]
    exact respStep_queueMove u
  · exact .inr (.inr ⟨a, hroom, by rw [respStep_q_of_trig (htrig.trans hset), hq, e]⟩)

/-- Of the two samples of a read transaction, one at most forwards. -/
theorem hostRead_queueMove (a : Addr) (s : State) : QueueMove s.params.fifoDepth s.q (hostRead a s).q := by
  rw [hostRead_eq]
  exact respStep_queueMove_after (s := hostLines _ s) (hostLatch_q _) (hostLatch_trig _)
    ((hostLatch_frame _).params.trans (respStep_frame _).params)

/-! ### The moves of DISP -/

theorem finish_runTasks_q (todo : List Task) (s : State) : (runTasks todo s).finish.q = s.q := by
  obtain ⟨d, e⟩ := (runTasks todo s).finish_eq
  rw [e]
  exact (runTasks_frame todo s).q

/-- Ending boot, a command or a payload pops nothing. -/
theorem settle_q (s : State) : (settle s).q = s.q := by
  unfold settle
  split
  · exact finish_runTasks_q _ s
  · exact finish_runTasks_q _ s
  · rfl
  · rfl
  · rfl

/-- Consuming a word does not touch the words behind it. -/
theorem startInstr_q {s : State} {c : Context} (hc : s.context = some c) (v : Addr) (q : List FifoWord) :
    (startInstr (decode c v) { s with q := q }).q = q := by
  obtain ⟨m, d, e, _⟩ := startInstr_eq hc v q
  rw [e]

/-- R142: a single step of DISP pops at most one word, the oldest. -/
theorem dispStep_queueMove (c : Choice) (s : State) : QueueMove s.params.fifoDepth s.q (dispStep c s).q := by
  rcases dispStep_cases c s with ⟨back, t, ts, _, _, e⟩ | ⟨_, _, _, e⟩ | ⟨_, _, _, _, _, _, e⟩ | ⟨_, v, rest, hc, hq, e⟩ | e
  · have hframe := Task.step_frame c t s
    left
    rw [e]
    cases hstep : t.step c s <;> rw [hstep] at hframe <;> exact hframe.q
  · exact .inl (by rw [e])
  · exact .inl (by rw [e])
  · exact .inr (.inl ⟨v, by rw [e, startInstr_q hc, hq]⟩)
  · exact .inl (by rw [e])

/-! ### Steps -/

/-- Settles O52: HOST and RESP forward at most one address in a step, and DISP pops at most one word. -/
theorem queueChangesByOneWord : Obligations.QueueChangesByOneWord := by
  unfold Obligations.QueueChangesByOneWord
  intro s t h hcycle
  obtain ⟨draws, script, eu⟩ := nextEvent_snd s
  have hq : (nextEvent s).2.q = s.q := by rw [eu]
  have hp : (nextEvent s).2.params = s.params := by rw [eu]
  show QueueMove s.params.fifoDepth s.q t.q
  rw [← hq, ← hp]
  rcases step_cases h with ⟨a, _, rfl⟩ | ⟨levels, _, rfl⟩ | ⟨_, rfl⟩ | ⟨_, rfl⟩ | ⟨c, _, rfl⟩ | ⟨_, rfl⟩ |
    ⟨c, v, rest, _, hc, hpop, rfl⟩ | ⟨n, _, rfl⟩ | ⟨torn, he, _⟩
  · exact hostRead_queueMove a _
  · exact .inl rfl
  · exact respStep_queueMove _
  · exact .inl (hostLatch_q _)
  · exact dispStep_queueMove c _
  · exact .inl (settle_q _)
  · exact .inr (.inl ⟨v, by rw [settle_q, startInstr_q hc, hpop]⟩)
  · exact .inl rfl
  · exact absurd he (hcycle torn)

/-- Words stay what they were, and an append finds room and adds an address. -/
theorem FifoInv.of_queueMove {s t : State} (h : FifoInv s) (hp : t.params = s.params)
    (k : QueueMove s.params.fifoDepth s.q t.q) : FifoInv t := by
  have hbound := h.bound
  have hwords := h.words
  rcases k with e | ⟨v, e⟩ | ⟨a, hroom, e⟩
  · exact ⟨by rwa [hp, e], by rwa [e]⟩
  · rw [e] at hbound hwords
    exact ⟨by rw [hp]; exact Nat.le_of_succ_le hbound, fun w hw => hwords w (List.mem_cons_of_mem v hw)⟩
  · constructor
    · rw [hp, e, List.length_append]
      exact hroom
    · intro w hw
      rw [e, List.mem_append, List.mem_singleton] at hw
      rcases hw with hw | rfl
      · exact hwords w hw
      · exact ⟨a, rfl⟩

theorem powerCycle_fifoInv (torn : List Byte) (s : State) : FifoInv (powerCycle torn s) :=
  ⟨Nat.zero_le _, fun _ hv => absurd hv List.not_mem_nil⟩

/-- Settles O53: a power cycle empties Q, and every other step changes it by one word at most (O52). -/
theorem fifoInvKept : Obligations.FifoInvKept := by
  unfold Obligations.FifoInvKept
  intro s t hs h
  by_cases hcycle : ∃ torn, (nextEvent s).1 = .powerCycle torn
  · obtain ⟨torn, he⟩ := hcycle
    rw [step_eq, he] at h
    cases h
    exact powerCycle_fifoInv torn _
  · exact hs.of_queueMove (bootAloneSetsLayoutAndRun s t h).1
      (queueChangesByOneWord s t h fun torn he => hcycle ⟨torn, he⟩)

end Sys2Proof.Machine
end

section
/-! The word DISP consumes: what its role says of DISP's state, and what the instruction it decodes to does to the matcher
(spec/42_command_decoder.md R160 to R176; spec/30_encoding.md R92, R93). -/

namespace Sys2Proof.Machine

/-! ### The role of the next word -/

theorem State.context_eq_token_iff (s : State) : s.context = some .token ↔ s.dctl = .recv ∧ s.matcher ≠ .armed := by
  unfold State.context
  split <;> simp [*]

theorem State.context_eq_command_iff (s : State) : s.context = some .command ↔ s.dctl = .recv ∧ s.matcher = .armed := by
  unfold State.context
  split <;> simp [*]

theorem State.context_eq_payload_iff (s : State) : s.context = some .payload ↔ ∃ i due, s.dctl = .hostCopy i due := by
  unfold State.context
  split
  · split <;> simp [*]
  all_goals simp [*]

/-- R92: a bus word is HOST's, never DISP's. -/
theorem State.context_ne_bus (s : State) : s.context ≠ some .bus := by
  unfold State.context
  split
  · split <;> simp
  all_goals simp

/-! ### A word received whole -/

theorem settle_of_recv {s : State} (h : s.dctl = .recv) : settle s = s := by simp only [settle, h]

/-- R161, R168: after a token there is nothing left to run, and after a command word its command. -/
theorem receiveWhole_eq_settle_receiveWord {s : State} (hd : s.dctl = .recv) (v : Addr) :
    receiveWhole v s = settle (receiveWord v s) := by
  unfold receiveWhole receiveWord
  split
  · rfl
  · exact (settle_of_recv (s := { s with matcher := matchNext s.matcher v }) hd).symm

/-- Settles O9: by the role of the instruction's word. -/
theorem wholeInstrIsStartThenSettle : Obligations.WholeInstrIsStartThenSettle := by
  unfold Obligations.WholeInstrIsStartThenSettle
  intro i s hc
  cases i with
  | rd a => exact absurd hc s.context_ne_bus
  | magic0 | magic1 | magic2 | otherToken v =>
    obtain ⟨hd, _⟩ := s.context_eq_token_iff.mp hc
    exact congrArg Host.Outcome.next (receiveWhole_eq_settle_receiveWord hd _)
  | updateActiveSlot arg | writeStatusToSram arg | restorePageToSram arg | copyPageHostToSram arg
  | copyPageFlashToSram arg | copyPageSramToFlash arg | eraseFlashSector arg | reservedOp7 arg | reservedOp8to15 op arg =>
    rfl
  | payload ign d =>
    obtain ⟨i, due, hd⟩ := s.context_eq_payload_iff.mp hc
    simp only [exec, execPayload, startInstr, startPayload, hd]

/-- R163: outside ARMED a word moves the matcher, and nothing else. -/
theorem exec_token_of_not_armed {s : State} (h : s.matcher ≠ .armed) (v : Addr) :
    exec (decode .token v) s = .next { s with matcher := matchNext s.matcher v } := by
  rw [exec_token, receiveWhole, if_neg h]

/-- R166: in ARMED every word is a command word, whatever token it would be elsewhere. -/
theorem exec_token_of_armed {s : State} (h : s.matcher = .armed) (v : Addr) :
    exec (decode .token v) s = exec (decode .command v) s := by
  rw [exec_token, receiveWhole, if_pos h, exec_command]

/-! ### Commands without effect -/

/-- R182, E1: of a slot out of range no step is left to do. -/
theorem settle_startUpdateActiveSlot_of_not_valid {slot : Arg} (h : validSlot slot.toNat = false) (s : State) :
    settle (startUpdateActiveSlot slot s) = { s with matcher := .s0, dctl := .recv } := by
  simp [startUpdateActiveSlot, h, startCommand, settle, Res.finish]

/-- Settles O16: a reserved word is consumed in one step, and a slot out of range leaves no step. -/
theorem silentCommandsHaveNoEffect : Obligations.SilentCommandsHaveNoEffect := by
  unfold Obligations.SilentCommandsHaveNoEffect
  intro s op arg
  refine ⟨rfl, rfl, fun hslot => ?_⟩
  have hinvalid : validSlot arg.toNat = false := by
    simp only [validSlot, Bool.and_eq_false_iff, decide_eq_false_iff_not]
    omega
  exact congrArg Host.Outcome.next (settle_startUpdateActiveSlot_of_not_valid hinvalid s)

/-- Settles O27: the command has no step before its first payload word. -/
theorem copyPageHostWaitsForPayload : Obligations.CopyPageHostWaitsForPayload := by
  unfold Obligations.CopyPageHostWaitsForPayload
  intro s arg
  rfl

/-! ### Tokens -/

/-- R91, R93: in its context an instruction's word, and no other, is read as that instruction. -/
theorem decode_eq_iff {i : Instr} {c : Context} (hc : i.context = c) (hw : i.wellFormed = true) (v : Addr) :
    decode c v = i ↔ v = encode i :=
  ⟨fun h => h ▸ (encodeOfDecode c v).1.symm, decode_of_eq_encode hc hw⟩

theorem matchNext_magicToken0 {m : MatchState} (h : m ≠ .armed) : matchNext m magicToken0 = .s1 := by
  cases m with
  | s0 | s1 | s2 => rfl
  | armed => exact absurd rfl h

theorem matchNext_magicToken1 (m : MatchState) : matchNext m magicToken1 = if m = .s1 then .s2 else .s0 := by
  cases m <;> rfl

theorem matchNext_magicToken2 (m : MatchState) : matchNext m magicToken2 = if m = .s2 then .armed else .s0 := by
  cases m <;> rfl

/-- R176: no row of the matcher's table names another token. -/
theorem matchNext_otherToken (m : MatchState) {v : Addr} (h : (Instr.otherToken v).wellFormed = true) :
    matchNext m v = .s0 := by
  obtain ⟨h0, h1, h2⟩ := (wellFormed_otherToken_iff v).mp h
  cases m <;> simp only [matchNext, h0, h1, h2, if_false]

/-- Settles O12: the matcher's table row by row, and in ARMED the silent command that each magic word decodes to (O16). -/
theorem magicTokensMoveMatcher : Obligations.MagicTokensMoveMatcher := by
  unfold Obligations.MagicTokensMoveMatcher
  refine ⟨fun v => ⟨decode_eq_iff (i := .magic0) rfl rfl v, decode_eq_iff (i := .magic1) rfl rfl v,
    decode_eq_iff (i := .magic2) rfl rfl v⟩, fun s => ⟨fun hm => ?_, fun hm => ?_⟩⟩
  · rw [← matchNext_magicToken1, ← matchNext_magicToken2, ← matchNext_magicToken0 hm]
    exact ⟨exec_token_of_not_armed hm magicToken0, exec_token_of_not_armed hm magicToken1,
      exec_token_of_not_armed hm magicToken2⟩
  · obtain ⟨-, -, hslot130⟩ := silentCommandsHaveNoEffect s 0 130
    obtain ⟨-, -, hslot1098⟩ := silentCommandsHaveNoEffect s 0 1098
    obtain ⟨-, hreserved, -⟩ := silentCommandsHaveNoEffect s 15 0x3A7F
    exact ⟨(exec_token_of_armed hm magicToken0).trans (hslot130 (.inr (by decide))),
      (exec_token_of_armed hm magicToken1).trans (hslot1098 (.inr (by decide))),
      (exec_token_of_armed hm magicToken2).trans hreserved⟩

/-- Settles O13: the matcher's table sends such a token to S0, and in ARMED it is dispatched like every word. -/
theorem otherTokenResetsMatcher : Obligations.OtherTokenResetsMatcher := by
  unfold Obligations.OtherTokenResetsMatcher
  intro s v h0 h1 h2
  have hv : (Instr.otherToken v).wellFormed = true := (wellFormed_otherToken_iff v).mpr ⟨h0, h1, h2⟩
  have hdec : decode .token v = .otherToken v := decodeToken_of_wellFormed hv
  refine ⟨hdec, fun hm => ?_, fun hm => ?_⟩
  · rw [← hdec, exec_token_of_not_armed hm, matchNext_otherToken _ hv]
  · rw [← hdec, exec_token_of_armed hm]

/-! ### A step that runs an instruction -/

theorem step_of_script {s : State} {e : Event} {moves : List Event} (h : s.script = e :: moves) :
    step s = applyEvent e { s with script := moves } := by
  simp only [step, nextEvent, h]

/-- R161: while a word is due and there is one, DISP runs the instruction that it decodes to. -/
theorem dispRun_of_word {s : State} {c : Context} {v : FifoWord} {rest : List FifoWord} (hc : s.context = some c)
    (hq : s.q = v :: rest) : dispRun s = exec (decode c (tokenOf v)) { s with q := rest } := by
  simp only [dispRun, hc, fifoPop, hq]

/-- Settles O7: the step makes the listed move, and DISP's run takes the oldest word. -/
theorem stepRunsDecodedInstruction : Obligations.StepRunsDecodedInstruction := by
  unfold Obligations.StepRunsDecodedInstruction
  constructor
  · intro s c v rest moves hmove hc hq
    rw [step_of_script hmove]
    exact dispRun_of_word (s := { s with script := moves }) hc hq
  · intro s a moves hmove
    exact step_of_script hmove

theorem run_one (M : Host.Core) (s : M.State) : M.run 1 s = M.step s := by
  unfold Host.Core.run
  cases M.step s <;> rfl

/-- A run that begins where a token is due: the token moves the matcher, and the run goes on. -/
theorem run_succ_of_token {s : State} (hd : s.dctl = .recv) (m : MatchState) (hm : m ≠ .armed) (a : Addr)
    (rest : List FifoWord) (moves : List Event) (n : Nat) :
    Host.Core.run core (n + 1) { s with matcher := m, q := forwardedWord a :: rest, script := .run :: moves } =
      Host.Core.run core n { s with matcher := matchNext m a, q := rest, script := moves } := by
  have hc : { s with matcher := m, q := forwardedWord a :: rest, script := .run :: moves }.context = some .token :=
    (State.context_eq_token_iff _).mpr ⟨hd, hm⟩
  refine run_succ_of_step core ?_ n
  refine (stepRunsDecodedInstruction.1 _ .token _ rest moves rfl hc rfl).trans ?_
  rw [(forwardedWordCarriesAddress a).1]
  exact exec_token_of_not_armed (s := { s with matcher := m, q := rest, script := moves }) hm a

/-- A run of one step where a command word is due. -/
theorem run_one_of_command {s : State} (hd : s.dctl = .recv) (a : Addr) (rest : List FifoWord) (moves : List Event) :
    Host.Core.run core 1 { s with matcher := .armed, q := forwardedWord a :: rest, script := .run :: moves } =
      exec (decode .command a) { s with matcher := .armed, q := rest, script := moves } := by
  have hc : { s with matcher := .armed, q := forwardedWord a :: rest, script := .run :: moves }.context = some .command :=
    (State.context_eq_command_iff _).mpr ⟨hd, rfl⟩
  refine (run_one core _).trans ((stepRunsDecodedInstruction.1 _ .command _ rest moves rfl hc rfl).trans ?_)
  rw [(forwardedWordCarriesAddress a).1]

/-- Settles O14: MAGIC0 leads to S1 from anywhere, the next two words on to ARMED, and the fourth is a command word. -/
theorem magicSequenceDispatches : Obligations.MagicSequenceDispatches := by
  unfold Obligations.MagicSequenceDispatches
  intro s x rest moves hd hm hq hmoves
  have hs : s = { s with
      q := [forwardedWord magicToken0, forwardedWord magicToken1, forwardedWord magicToken2, forwardedWord x] ++ rest
      script := [.run, .run, .run, .run] ++ moves } := by rw [← hq, ← hmoves]
  have harmed : Host.Core.run core 4 s =
      Host.Core.run core 1 { s with matcher := .armed, q := forwardedWord x :: rest, script := .run :: moves } := calc
    _ = Host.Core.run core 3 { s with
          matcher := .s1, script := [.run, .run, .run] ++ moves
          q := [forwardedWord magicToken1, forwardedWord magicToken2, forwardedWord x] ++ rest } := by
        rw [← matchNext_magicToken0 hm]
        exact (congrArg _ hs).trans (run_succ_of_token hd _ hm _ _ _ 3)
    _ = Host.Core.run core 2 { s with
          matcher := .s2, script := [.run, .run] ++ moves
          q := [forwardedWord magicToken2, forwardedWord x] ++ rest } := run_succ_of_token hd .s1 nofun _ _ _ 2
    _ = _ := run_succ_of_token hd .s2 nofun _ _ _ 1
  exact harmed.trans (run_one_of_command hd x rest moves)

end Sys2Proof.Machine
end

section
/-! What a step can make of MATCH, and the one way into ARMED (spec/42_command_decoder.md R163, R165, R166). -/

namespace Sys2Proof.Machine

/-- R163, R166: MATCH stays, goes back to S0, or takes the row of the matcher's table for the word popped in RECV. -/
def MatchMove (s : State) (m : MatchState) : Prop :=
  m = s.matcher ∨ m = .s0 ∨ (s.dctl = .recv ∧ ∃ v rest, s.q = v :: rest ∧ m = matchNext s.matcher (tokenOf v))

/-! ### The moves of DISP -/

theorem finish_runTasks_matcher (todo : List Task) (s : State) : (runTasks todo s).finish.matcher = s.matcher := by
  obtain ⟨d, e⟩ := (runTasks todo s).finish_eq
  rw [e]
  exact (runTasks_frame todo s).matcher

/-- Ending boot, a command or a payload does not touch MATCH. -/
theorem settle_matcher (s : State) : (settle s).matcher = s.matcher := by
  unfold settle
  split
  · exact finish_runTasks_matcher _ s
  · exact finish_runTasks_matcher _ s
  · rfl
  · rfl
  · rfl

/-- R166: dispatch puts MATCH back to S0. -/
theorem dispatch_matcher (v : Addr) (s : State) : (dispatch v s).matcher = .s0 := by
  rcases dispatch_cases v s with e | e | ⟨op, todo, e, _⟩ <;> rw [e]

theorem takePayload_matcher (data : Half) (i : Nat) (due : List Host.Cell) (s : State) :
    (takePayload data i due s).matcher = s.matcher := by
  unfold takePayload
  dsimp only
  split <;> rfl

theorem startInstr_matchMove {s : State} {c : Context} (hc : s.context = some c) {v : FifoWord} {rest : List FifoWord}
    (hq : s.q = v :: rest) : MatchMove s (startInstr (decode c (tokenOf v)) { s with q := rest }).matcher := by
  rcases startInstr_cases hc (tokenOf v) rest with ⟨hd, _, e⟩ | ⟨_, _, e⟩ | ⟨i, due, _, e⟩ <;> rw [e]
  · exact .inr (.inr ⟨hd, v, rest, hq, rfl⟩)
  · exact .inr (.inl (dispatch_matcher _ _))
  · exact .inl (takePayload_matcher _ i due _)

theorem dispStep_matchMove (c : Choice) (s : State) : MatchMove s (dispStep c s).matcher := by
  rcases dispStep_cases c s with ⟨back, t, ts, _, _, e⟩ | ⟨_, _, _, e⟩ | ⟨_, _, _, _, _, _, e⟩ | ⟨_, v, rest, hc, hq, e⟩ | e
  · have hframe := Task.step_frame c t s
    left
    rw [e]
    cases hstep : t.step c s <;> rw [hstep] at hframe <;> exact hframe.matcher
  · exact .inl (by rw [e])
  · exact .inl (by rw [e])
  · rw [e]; exact startInstr_matchMove hc hq
  · exact .inl (by rw [e])

/-! ### Steps -/

/-- Only DISP takes the matcher's table forward; a power cycle puts MATCH back to S0. -/
theorem step_matchMove {s t : State} (h : step s = .next t) : MatchMove s t.matcher := by
  obtain ⟨draws, script, eu⟩ := nextEvent_snd s
  suffices hu : MatchMove (nextEvent s).2 t.matcher by rwa [eu] at hu
  rcases step_cases h with ⟨a, _, rfl⟩ | ⟨levels, _, rfl⟩ | ⟨_, rfl⟩ | ⟨_, rfl⟩ | ⟨c, _, rfl⟩ | ⟨_, rfl⟩ |
    ⟨c, v, rest, _, hc, hq, rfl⟩ | ⟨n, _, rfl⟩ | ⟨torn, _, rfl⟩
  · exact .inl (hostRead_frame a _).matcher
  · exact .inl (hostDrive_frame levels _).matcher
  · exact .inl (respStep_frame _).matcher
  · exact .inl (hostLatch_frame _).matcher
  · exact dispStep_matchMove c _
  · exact .inl (settle_matcher _)
  · rw [settle_matcher]; exact startInstr_matchMove hc hq
  · exact .inl rfl
  · exact .inr (.inl rfl)

/-- R165: one row of the matcher's table leads to ARMED. -/
theorem matchNext_eq_armed_iff (m : MatchState) (v : Addr) : matchNext m v = .armed ↔ m = .s2 ∧ v = magicToken2 := by
  constructor
  · intro h
    cases m with
    | s0 | s1 => simp only [matchNext] at h; split_ifs at h
    | s2 => simp only [matchNext] at h; split_ifs at h with _ h2; exact ⟨rfl, h2⟩
    | armed => cases h
  · rintro ⟨rfl, rfl⟩
    rfl

/-- Settles O15: of the three things a step can make of MATCH, only a row of the matcher's table is a way into ARMED. -/
theorem onlyMagic2InS2Arms : Obligations.OnlyMagic2InS2Arms := by
  unfold Obligations.OnlyMagic2InS2Arms
  intro s t h harmed
  rcases step_matchMove h with e | e | ⟨hd, v, rest, hq, e⟩ <;> rw [harmed] at e
  · exact .inl e.symm
  · cases e
  · obtain ⟨hm, hv⟩ := (matchNext_eq_armed_iff _ _).mp e.symm
    exact .inr ⟨hm, hd, v, rest, hq, hv⟩

end Sys2Proof.Machine
end

section
/-! 32-bit words of pages and of the flash, and what programming and erasing make of them (spec/20_memory.md R66;
spec/45_config_store.md R221, R222, R225). -/

namespace Sys2Proof.Machine

/-! ### Words of lists of bytes -/

theorem wordAt_congr {as bs : List Byte} {i j : Nat}
    (h : ∀ k < 4, as.getD (i + k) erasedByte = bs.getD (j + k) erasedByte) : wordAt as i = wordAt bs j := by
  have h0 := h 0 (by decide)
  simp only [Nat.add_zero] at h0
  rw [wordAt, wordAt, h 3 (by decide), h 2 (by decide), h 1 (by decide), h0]

@[simp] theorem length_le32 (x : BitVec 32) : (le32 x).length = 4 := rfl

theorem wordAt_le32 (x : BitVec 32) : wordAt (le32 x) 0 = x := by
  show x.extractLsb' 24 8 ++ x.extractLsb' 16 8 ++ x.extractLsb' 8 8 ++ x.extractLsb' 0 8 = x
  rw [BitVec.extractLsb'_append_extractLsb'_eq_extractLsb' (show 24 = 16 + 8 from rfl),
    BitVec.extractLsb'_append_extractLsb'_eq_extractLsb' (show 16 = 8 + 8 from rfl),
    BitVec.extractLsb'_append_extractLsb'_eq_extractLsb' (show 8 = 0 + 8 from rfl), BitVec.extractLsb'_eq_self]

theorem getD_setWordAt {bytes : List Byte} {off : Nat} (h : off + 4 ≤ bytes.length) (x : BitVec 32) (j : Nat) :
    (setWordAt bytes off x).getD j erasedByte =
      if off ≤ j ∧ j < off + 4 then (le32 x).getD (j - off) erasedByte else bytes.getD j erasedByte := by
  simp only [setWordAt, List.getD_eq_getElem?_getD, List.getElem?_append, List.length_append, List.length_take, length_le32,
    List.getElem?_drop, List.getElem?_take, Nat.min_eq_left (show off ≤ bytes.length by omega)]
  by_cases hlo : j < off
  · rw [if_pos (by omega), if_pos hlo, if_pos hlo, if_neg (by omega)]
  · by_cases hhi : j < off + 4
    · rw [if_pos hhi, if_neg hlo, if_pos (by omega)]
    · rw [if_neg hhi, if_neg (by omega)]
      congr 2
      omega

/-- The replaced word reads as its new value. -/
theorem wordAt_setWordAt_self {bytes : List Byte} {off : Nat} (h : off + 4 ≤ bytes.length) (x : BitVec 32) :
    wordAt (setWordAt bytes off x) off = x := by
  refine (wordAt_congr fun k hk => ?_).trans (wordAt_le32 x)
  rw [getD_setWordAt h, if_pos (by omega), Nat.add_sub_cancel_left, Nat.zero_add]

/-- A word apart from the replaced one reads as before. -/
theorem wordAt_setWordAt_of_apart {bytes : List Byte} {off a : Nat} (h : off + 4 ≤ bytes.length)
    (hapart : a + 4 ≤ off ∨ off + 4 ≤ a) (x : BitVec 32) : wordAt (setWordAt bytes off x) a = wordAt bytes a :=
  wordAt_congr fun k hk => by rw [getD_setWordAt h, if_neg (by omega)]

theorem wordAt_readList (flash : Memory) (a : Nat) {n off : Nat} (h : off + 4 ≤ n) :
    wordAt (Memory.readList flash a n) off = flashWord flash (a + off) :=
  wordAt_congr fun k hk => by
    rw [Memory.getD_readList _ _ _ _ (by omega), Memory.getD_readList _ _ _ _ (by omega), Nat.zero_add, Nat.add_assoc]

/-! ### Words of the flash -/

theorem flashWord_eq (flash : Memory) (a : Nat) : flashWord flash a =
    Memory.read flash (a + 3) ++ Memory.read flash (a + 2) ++ Memory.read flash (a + 1) ++ Memory.read flash a := rfl

theorem flashWord_congr {f g : Memory} {a : Nat} (h : ∀ x, a ≤ x → x < a + 4 → Memory.read f x = Memory.read g x) :
    flashWord f a = flashWord g a := by
  rw [flashWord_eq, flashWord_eq, h (a + 3) (by omega) (by omega), h (a + 2) (by omega) (by omega),
    h (a + 1) (by omega) (by omega), h a (by omega) (by omega)]

theorem flashWord_of_erased {flash : Memory} {a : Nat} (h : ∀ k < 4, Memory.read flash (a + k) = erasedByte) :
    flashWord flash a = erasedWord := by
  have h0 := h 0 (by decide)
  rw [Nat.add_zero] at h0
  rw [flashWord_eq, h 3 (by decide), h 2 (by decide), h 1 (by decide), h0]
  decide

/-- R66: programming ANDs word by word. -/
theorem flashWord_program (flash : Memory) (a : Nat) {bytes : List Byte} {off : Nat} (h : off + 4 ≤ bytes.length) :
    flashWord (Memory.program flash a bytes) (a + off) = flashWord flash (a + off) &&& wordAt bytes off := by
  have hbyte : ∀ k < 4, Memory.read (Memory.program flash a bytes) (a + off + k) =
      Memory.read flash (a + off + k) &&& bytes.getD (off + k) erasedByte := fun k hk => by
    rw [Memory.read_program, if_pos (by omega), Nat.add_assoc, Nat.add_sub_cancel_left]
  have h0 := hbyte 0 (by decide)
  simp only [Nat.add_zero] at h0
  rw [flashWord_eq, flashWord_eq, wordAt, hbyte 3 (by decide), hbyte 2 (by decide), hbyte 1 (by decide), h0,
    BitVec.and_append, BitVec.and_append, BitVec.and_append]

theorem flashWord_program_of_apart (flash : Memory) {a : Nat} {bytes : List Byte} {b : Nat}
    (h : b + 4 ≤ a ∨ a + bytes.length ≤ b) : flashWord (Memory.program flash a bytes) b = flashWord flash b :=
  flashWord_congr fun x _ _ => by rw [Memory.read_program, if_neg (by omega)]

theorem flashWord_program_le32 (flash : Memory) (a : Nat) (x : BitVec 32) :
    flashWord (Memory.program flash a (le32 x)) a = flashWord flash a &&& x := by
  have h := flashWord_program flash a (bytes := le32 x) (off := 0) (by simp)
  rwa [wordAt_le32, Nat.add_zero] at h

theorem flashWord_erase (flash : Memory) {a n b : Nat} (hlo : a ≤ b) (hhi : b + 4 ≤ a + n) :
    flashWord (Memory.erase flash a n) b = erasedWord :=
  flashWord_of_erased fun k hk => by rw [Memory.read_erase, if_pos (by omega)]

/-! ### Bitmaps -/

/-- R8: the lookup answers the index of a set bit below which none is set. -/
theorem ctz32_eq {x : BitVec 32} {k : Nat} (hset : x.getLsbD k = true) (hclear : ∀ i < k, x.getLsbD i = false) :
    ctz32 x = k := by
  have hne : x ≠ 0 := fun e => by simp [e] at hset
  obtain ⟨-, hset', hclear'⟩ := ctz32_lowest hne
  rcases Nat.lt_trichotomy (ctz32 x) k with hlt | heq | hgt
  · rw [hclear _ hlt] at hset'; cases hset'
  · exact heq
  · rw [hclear' _ hgt] at hset; cases hset

theorem erasedWord_eq : erasedWord = BitVec.allOnes 32 := by decide

theorem getLsbD_erasedWord {i : Nat} (hi : i < 32) : erasedWord.getLsbD i = true := by
  rw [erasedWord_eq, BitVec.getLsbD_allOnes, decide_eq_true hi]

/-- R224: of a bitmap with the bits below k cleared the lookup answers k. -/
theorem ctz32_clearBelow_erasedWord {k : Nat} (hk : k < 32) : ctz32 (clearBelow erasedWord k) = k := by
  refine ctz32_eq ?_ fun i hi => ?_
  · rw [getLsbD_clearBelow _ _ hk, getLsbD_erasedWord hk]; simp
  · rw [getLsbD_clearBelow _ _ (by omega)]; simp [Nat.not_le.mpr hi]

@[simp] theorem clearBelow_zero (x : BitVec 32) : clearBelow x 0 = x :=
  BitVec.eq_of_getLsbD_eq fun i hi => by rw [getLsbD_clearBelow _ _ hi]; simp

theorem and_clearBelow_self (x : BitVec 32) (k : Nat) : x &&& clearBelow x k = clearBelow x k := by
  rw [clearBelow, ← BitVec.and_assoc, BitVec.and_self]

theorem clearBelow_clearBelow (x : BitVec 32) {j k : Nat} (h : j ≤ k) : clearBelow (clearBelow x j) k = clearBelow x k := by
  refine BitVec.eq_of_getLsbD_eq fun i hi => ?_
  rw [getLsbD_clearBelow _ _ hi, getLsbD_clearBelow _ _ hi, getLsbD_clearBelow _ _ hi]
  by_cases hk : k ≤ i
  · simp [hk, h.trans hk]
  · simp [hk]

theorem erasedWord_and (x : BitVec 32) : erasedWord &&& x = x := by
  rw [erasedWord_eq, BitVec.allOnes_and]

end Sys2Proof.Machine
end

section
/-! The store update run whole, from any in-range tuple (spec/45_config_store.md R225, R226). -/

namespace Sys2Proof.Machine

/-- What goes on without a step changes nothing. -/
theorem Res.bind_of_done {f : State → Res} (h : ∀ s, f s = .done s) (x : Res) : x.bind f = x := by
  cases x with
  | done s => exact h s
  | stop s r => rfl

/-- One task run is its whole step and what that leaves. -/
theorem runTasks_singleton (t : Task) (s : State) : runTasks [t] s = (t.whole s).runOn := by
  rw [runTasks_cons, Task.run_eq_whole_runOn, Res.bind_of_done runTasks_nil]

/-- R225: FLASH with tuple `t2` of page `p2` programmed, and PB where the active page has changed to another than page 0. -/
def tupleProgrammed (p : Params) (flash : Memory) (slot : Nat) (pb : BitVec 32) (page p2 t2 : Nat) : Memory :=
  let base := cfgPageAddr p p2
  let programmed := Memory.program flash base (storePageImage p (Memory.readList flash base pageSize) slot page p2 t2)
  if p2 ≠ page ∧ p2 ≠ 0 then Memory.program programmed (pbAddr p) (le32 (clearBelow pb p2)) else programmed

/-- R225: FLASH after the store update with the active tuple `t` of page `page`. -/
def updatedFlash (p : Params) (flash : Memory) (slot page t : Nat) : Memory :=
  if (nextTuple page t).1 = cfgPages then
    tupleProgrammed p (Memory.erase flash p.configSector sectorSize) slot (storePb p flash) page 0 (nextTuple page t).2
  else tupleProgrammed p flash slot (storePb p flash) page (nextTuple page t).1 (nextTuple page t).2

theorem configPage_rangeOk {p : Params} (hr : flashRangeOk p p.configSector sectorSize = true) {page : Nat}
    (hp : page < cfgPages) : flashRangeOk p (cfgPageAddr p page) pageSize = true := by
  simp only [cfgPages] at hp
  refine flashRangeOk_sub hr ?_ ?_ <;> simp only [cfgPageAddr, pageSize, sectorSize] <;> omega

section
variable {s : State} (hl : cfgLayoutLegal s.params.cfgLayout = true)
  (hr : flashRangeOk s.params s.params.configSector sectorSize = true) (hf : s.failAt = none)
include hl hr hf

theorem runTasks_storePage (slot : Nat) (pb : BitVec 32) (page : Nat) {p2 t2 : Nat} (hp2 : p2 < cfgPages)
    (ht2 : t2 < cfgTuples) : runTasks [.storePage slot pb page p2 t2] s =
      .done { s with flash := tupleProgrammed s.params s.flash slot pb page p2 t2 } := by
  have hpage := configPage_rangeOk hr hp2
  have hlen := length_storePageImage hl (Memory.length_readList s.flash (cfgPageAddr s.params p2) pageSize) slot page p2 ht2
  obtain ⟨hpb, -, -⟩ := fields_readable hl hr hp2 ht2
  rw [runTasks_singleton, Task.whole, storePageStep, flashRead_of_ok hpage hf]
  dsimp only [Progress.runOn]
  rw [runTasks_cons, Task.run_program, flashProgram_of_ok (by rwa [hlen]) hf, Res.bind_done, tupleProgrammed]
  split
  · rw [runTasks_cons, Task.run_program, Res.bind_of_done runTasks_nil]
    exact flashProgram_of_ok hpb hf
  · rfl

theorem runTasks_storeTuples (slot : Nat) {pb : BitVec 32} (hpb : ctz32 pb < cfgPages)
    (ht : ctz32 (storeTb s.params s.flash (ctz32 pb)) < cfgTuples) (hpb' : pb = storePb s.params s.flash) :
    runTasks [.storeTuples slot pb] s = .done { s with
      flash := updatedFlash s.params s.flash slot (ctz32 pb) (ctz32 (storeTb s.params s.flash (ctz32 pb))) } := by
  obtain ⟨-, htb, -⟩ := fields_readable hl hr hpb ht
  obtain ⟨hp2, ht2⟩ := nextTuple_bounds hpb ht
  rw [runTasks_singleton, Task.whole, storeTuplesStep, flashRead_of_ok htb hf]
  dsimp only
  rw [if_neg (Nat.not_le.mpr ht), updatedFlash, ← hpb']
  split
  · dsimp only [Progress.runOn]
    rw [runTasks_cons, Task.run_erase, flashErase_of_ok hr hf, Res.bind_done]
    exact runTasks_storePage (s := { s with flash := Memory.erase s.flash s.params.configSector sectorSize }) hl hr hf slot
      pb _ (by decide) ht2
  · exact runTasks_storePage hl hr hf slot pb _ (by omega) ht2

/-- R225: with no failure and a readable sector, the update of an in-range tuple is done. -/
theorem runTasks_storePages (slot : Nat) (hpb : ctz32 (storePb s.params s.flash) < cfgPages)
    (ht : ctz32 (storeTb s.params s.flash (ctz32 (storePb s.params s.flash))) < cfgTuples) :
    runTasks [.storePages slot] s = .done { s with
      flash := updatedFlash s.params s.flash slot (ctz32 (storePb s.params s.flash))
        (ctz32 (storeTb s.params s.flash (ctz32 (storePb s.params s.flash)))) } := by
  obtain ⟨hread, -, -⟩ := fields_readable hl hr hpb ht
  rw [runTasks_singleton, Task.whole, storePagesStep, flashRead_of_ok hread hf]
  dsimp only
  rw [if_neg (Nat.not_le.mpr hpb)]
  exact runTasks_storeTuples hl hr hf slot hpb ht rfl

end

end Sys2Proof.Machine
end

section
/-! What the store holds after an update of a store that only updates have written (spec/45_config_store.md R224 to R229). -/

namespace Sys2Proof.Machine

/-! ### The fields of a config page lie apart -/

/-- Two 4-byte fields share no byte. -/
abbrev fieldsApart (x y : Nat) : Prop := x + 4 ≤ y ∨ y + 4 ≤ x

/-- R221: the fields of a config page lie inside it and pairwise apart. -/
structure CfgFields (p : Params) : Prop where
  pagesIn : p.cfgLayout.pagesBitmap + 4 ≤ pageSize
  tuplesIn : p.cfgLayout.tuplesBitmap + 4 ≤ pageSize
  slotIn : ∀ t < cfgTuples, slotOffset p t + 4 ≤ pageSize
  bitmaps : fieldsApart p.cfgLayout.pagesBitmap p.cfgLayout.tuplesBitmap
  pagesSlot : ∀ t < cfgTuples, fieldsApart p.cfgLayout.pagesBitmap (slotOffset p t)
  tuplesSlot : ∀ t < cfgTuples, fieldsApart p.cfgLayout.tuplesBitmap (slotOffset p t)
  slots : ∀ t t', t ≠ t' → t < cfgTuples → t' < cfgTuples → fieldsApart (slotOffset p t) (slotOffset p t')

theorem cfgFields_of_legal {p : Params} (h : cfgLayoutLegal p.cfgLayout = true) : CfgFields p := by
  obtain ⟨hpagesIn, htuplesIn, hslotIn⟩ := cfgLayoutLegal_bounds h
  simp only [cfgLayoutLegal, Bool.and_eq_true, decide_eq_true_eq, cfgOffsets, List.cons_append, List.nil_append,
    List.pairwise_cons, List.mem_cons, List.mem_map, List.mem_range, List.pairwise_map, forall_eq_or_imp,
    forall_exists_index, and_imp, forall_apply_eq_imp_iff₂] at h
  obtain ⟨-, ⟨hbitmaps, hpages⟩, htuples, hslots⟩ := h
  have hbelow : ∀ t t', t < t' → t' < cfgTuples → fieldsApart (slotOffset p t) (slotOffset p t') := fun t t' hlt ht' => by
    have hpair := List.pairwise_iff_getElem.mp hslots t t' (by simp; omega) (by simpa using ht') hlt
    simpa [slotOffset] using hpair
  refine ⟨hpagesIn, htuplesIn, hslotIn, hbitmaps, hpages, htuples, fun t t' hne ht ht' => ?_⟩
  rcases Nat.lt_or_gt_of_ne hne with hlt | hgt
  · exact hbelow t t' hlt ht'
  · exact (hbelow t' t hgt ht).symm

/-! ### The image of the target page -/

/-- R225: the page's bytes with its own pages-bitmap field cleared below it, if it becomes the active page. -/
def withOwnPages (p : Params) (img : List Byte) (page p2 : Nat) : List Byte :=
  if p2 = page then img
  else setWordAt img p.cfgLayout.pagesBitmap (clearBelow (wordAt img p.cfgLayout.pagesBitmap) p2)

theorem storePageImage_eq (p : Params) (img : List Byte) (slot page p2 t2 : Nat) :
    storePageImage p img slot page p2 t2 =
      setWordAt (setWordAt (withOwnPages p img page p2) p.cfgLayout.tuplesBitmap
        (clearBelow (wordAt (withOwnPages p img page p2) p.cfgLayout.tuplesBitmap) t2))
        (slotOffset p t2) (BitVec.ofNat 32 slot) := rfl

section
variable {p : Params} (hc : CfgFields p) {img : List Byte} (himg : img.length = pageSize) (page p2 : Nat)
include hc himg

theorem length_withOwnPages : (withOwnPages p img page p2).length = pageSize := by
  unfold withOwnPages
  split
  · exact himg
  · rw [length_setWordAt (himg ▸ hc.pagesIn), himg]

theorem wordAt_withOwnPages_of_apart {off : Nat} (h : fieldsApart p.cfgLayout.pagesBitmap off) :
    wordAt (withOwnPages p img page p2) off = wordAt img off := by
  unfold withOwnPages
  split
  · rfl
  · exact wordAt_setWordAt_of_apart (himg ▸ hc.pagesIn) h.symm _

theorem wordAt_withOwnPages_self : wordAt (withOwnPages p img page p2) p.cfgLayout.pagesBitmap =
    if p2 = page then wordAt img p.cfgLayout.pagesBitmap else clearBelow (wordAt img p.cfgLayout.pagesBitmap) p2 := by
  unfold withOwnPages
  split
  · rfl
  · exact wordAt_setWordAt_self (himg ▸ hc.pagesIn) _

variable (slot : Nat) {t2 : Nat} (ht2 : t2 < cfgTuples)
include ht2

theorem wordAt_storePageImage_slot :
    wordAt (storePageImage p img slot page p2 t2) (slotOffset p t2) = BitVec.ofNat 32 slot := by
  have hown := length_withOwnPages hc himg page p2
  rw [storePageImage_eq, wordAt_setWordAt_self (by rw [length_setWordAt (hown ▸ hc.tuplesIn), hown]; exact hc.slotIn t2 ht2)]

theorem wordAt_storePageImage_of_apart {off : Nat} (h : fieldsApart off (slotOffset p t2)) :
    wordAt (storePageImage p img slot page p2 t2) off =
      wordAt (setWordAt (withOwnPages p img page p2) p.cfgLayout.tuplesBitmap
        (clearBelow (wordAt (withOwnPages p img page p2) p.cfgLayout.tuplesBitmap) t2)) off := by
  have hown := length_withOwnPages hc himg page p2
  rw [storePageImage_eq, wordAt_setWordAt_of_apart
    (by rw [length_setWordAt (hown ▸ hc.tuplesIn), hown]; exact hc.slotIn t2 ht2) h]

theorem wordAt_storePageImage_tuples : wordAt (storePageImage p img slot page p2 t2) p.cfgLayout.tuplesBitmap =
    clearBelow (wordAt img p.cfgLayout.tuplesBitmap) t2 := by
  have hown := length_withOwnPages hc himg page p2
  rw [wordAt_storePageImage_of_apart hc himg page p2 slot ht2 (hc.tuplesSlot t2 ht2),
    wordAt_setWordAt_self (hown ▸ hc.tuplesIn), wordAt_withOwnPages_of_apart hc himg page p2 hc.bitmaps]

theorem wordAt_storePageImage_pages : wordAt (storePageImage p img slot page p2 t2) p.cfgLayout.pagesBitmap =
    if p2 = page then wordAt img p.cfgLayout.pagesBitmap else clearBelow (wordAt img p.cfgLayout.pagesBitmap) p2 := by
  have hown := length_withOwnPages hc himg page p2
  rw [wordAt_storePageImage_of_apart hc himg page p2 slot ht2 (hc.pagesSlot t2 ht2),
    wordAt_setWordAt_of_apart (hown ▸ hc.tuplesIn) hc.bitmaps, wordAt_withOwnPages_self hc himg]

/-- The slot fields of the other tuples keep their bytes. -/
theorem wordAt_storePageImage_other {t : Nat} (hne : t ≠ t2) (ht : t < cfgTuples) :
    wordAt (storePageImage p img slot page p2 t2) (slotOffset p t) = wordAt img (slotOffset p t) := by
  have hown := length_withOwnPages hc himg page p2
  rw [wordAt_storePageImage_of_apart hc himg page p2 slot ht2 (hc.slots t t2 hne ht ht2),
    wordAt_setWordAt_of_apart (hown ▸ hc.tuplesIn) (hc.tuplesSlot t ht).symm,
    wordAt_withOwnPages_of_apart hc himg page p2 (hc.pagesSlot t ht)]

end

end Sys2Proof.Machine
end

section
/-! One step of the store from tuple to tuple (spec/45_config_store.md R222 to R229). -/

namespace Sys2Proof.Machine

/-! ### The flash with the target page programmed -/

section
variable {p : Params} (hl : cfgLayoutLegal p.cfgLayout = true) (flash : Memory) (slot : Nat) (pb : BitVec 32)
  (page p2 : Nat)
include hl

/-- PB lies before every page but page 0. -/
theorem pbAddr_add_le (hne : p2 ≠ 0) : pbAddr p + 4 ≤ cfgPageAddr p p2 := by
  have hin := (cfgFields_of_legal hl).pagesIn
  simp only [pbAddr, cfgPageAddr, pageSize] at hin ⊢
  omega

variable {t2 : Nat} (ht2 : t2 < cfgTuples)
include ht2

/-- R225: of the flash only the target page, and PB where it is reprogrammed, is changed. -/
theorem read_tupleProgrammed_of_apart {x : Nat} (hx : x < cfgPageAddr p p2 ∨ cfgPageAddr p p2 + pageSize ≤ x)
    (hpb : p2 ≠ 0 → x < pbAddr p ∨ pbAddr p + 4 ≤ x) :
    Memory.read (tupleProgrammed p flash slot pb page p2 t2) x = Memory.read flash x := by
  have hlen := length_storePageImage hl (Memory.length_readList flash (cfgPageAddr p p2) pageSize) slot page p2 ht2
  unfold tupleProgrammed
  dsimp only
  split
  next h => rw [Memory.read_program, if_neg (by have := hpb h.2; simp; omega), Memory.read_program, if_neg (by omega)]
  next => rw [Memory.read_program, if_neg (by omega)]

/-- R225: a word of the target page is ANDed with its image. -/
theorem flashWord_tupleProgrammed {off : Nat} (hoff : off + 4 ≤ pageSize) :
    flashWord (tupleProgrammed p flash slot pb page p2 t2) (cfgPageAddr p p2 + off) =
      flashWord flash (cfgPageAddr p p2 + off) &&&
        wordAt (storePageImage p (Memory.readList flash (cfgPageAddr p p2) pageSize) slot page p2 t2) off := by
  have hlen := length_storePageImage hl (Memory.length_readList flash (cfgPageAddr p p2) pageSize) slot page p2 ht2
  have hword := flashWord_program flash (cfgPageAddr p p2) (hlen ▸ hoff)
  unfold tupleProgrammed
  dsimp only
  split
  next h =>
    have hpb := pbAddr_add_le hl p2 h.2
    rw [flashWord_program_of_apart _ (.inr (by simp; omega)), hword]
  next => exact hword

theorem storeSlotv_tupleProgrammed : storeSlotv p (tupleProgrammed p flash slot pb page p2 t2) p2 t2 =
    storeSlotv p flash p2 t2 &&& BitVec.ofNat 32 slot := by
  have hc := cfgFields_of_legal hl
  rw [storeSlotv, slotvAddr, flashWord_tupleProgrammed hl flash slot pb page p2 ht2 (hc.slotIn t2 ht2),
    wordAt_storePageImage_slot hc (Memory.length_readList _ _ _) page p2 slot ht2]
  rfl

theorem storeSlotv_tupleProgrammed_other {t : Nat} (hne : t ≠ t2) (ht : t < cfgTuples) :
    storeSlotv p (tupleProgrammed p flash slot pb page p2 t2) p2 t = storeSlotv p flash p2 t := by
  have hc := cfgFields_of_legal hl
  rw [storeSlotv, slotvAddr, flashWord_tupleProgrammed hl flash slot pb page p2 ht2 (hc.slotIn t ht),
    wordAt_storePageImage_other hc (Memory.length_readList _ _ _) page p2 slot ht2 hne ht,
    wordAt_readList _ _ (hc.slotIn t ht), BitVec.and_self]
  rfl

theorem storeTb_tupleProgrammed : storeTb p (tupleProgrammed p flash slot pb page p2 t2) p2 =
    clearBelow (storeTb p flash p2) t2 := by
  have hc := cfgFields_of_legal hl
  rw [storeTb, tbAddr, flashWord_tupleProgrammed hl flash slot pb page p2 ht2 hc.tuplesIn,
    wordAt_storePageImage_tuples hc (Memory.length_readList _ _ _) page p2 slot ht2,
    wordAt_readList _ _ hc.tuplesIn, and_clearBelow_self]
  rfl

/-- R225: PB is cleared below the active page where that has changed, be it in page 0's own image or on its own. -/
theorem storePb_tupleProgrammed (hpb : p2 ≠ 0 → pb = storePb p flash) :
    storePb p (tupleProgrammed p flash slot pb page p2 t2) =
      if p2 = page then storePb p flash else clearBelow (storePb p flash) p2 := by
  have hc := cfgFields_of_legal hl
  by_cases h0 : p2 = 0
  · subst h0
    have hword := flashWord_tupleProgrammed hl flash slot pb page 0 ht2 hc.pagesIn
    rw [wordAt_storePageImage_pages hc (Memory.length_readList _ _ _) page 0 slot ht2,
      wordAt_readList _ _ hc.pagesIn] at hword
    refine hword.trans ?_
    split
    · exact BitVec.and_self
    · exact and_clearBelow_self _ _
  · have hlen := length_storePageImage hl (Memory.length_readList flash (cfgPageAddr p p2) pageSize) slot page p2 ht2
    have hlt := pbAddr_add_le hl p2 h0
    rw [storePb, tupleProgrammed]
    by_cases hpage : p2 = page
    · rw [if_neg (fun h => h.1 hpage), if_pos hpage, flashWord_program_of_apart _ (.inl hlt)]
      rfl
    · rw [if_pos ⟨hpage, h0⟩, if_neg hpage, flashWord_program_le32, flashWord_program_of_apart _ (.inl hlt), hpb h0]
      exact and_clearBelow_self _ _

end

/-! ### From tuple to tuple -/

/-- R224, R226: what the update needs of the flash in which it programs tuple `t2` of page `p2`: the tuple, those after it
and the pages after it are erased, and clearing the bitmaps below it leaves nothing else cleared. -/
structure TargetErased (p : Params) (flash : Memory) (page p2 t2 : Nat) : Prop where
  pageLt : p2 < cfgPages
  tupleLt : t2 < cfgTuples
  pb : (if p2 = page then storePb p flash else clearBelow (storePb p flash) p2) = clearBelow erasedWord p2
  tb : clearBelow (storeTb p flash p2) t2 = clearBelow erasedWord t2
  tuples : ∀ t, t2 ≤ t → t < cfgTuples → storeSlotv p flash p2 t = erasedWord
  pages : ∀ page', p2 < page' → page' < cfgPages →
    ∀ j < pageSize, Memory.read flash (cfgPageAddr p page' + j) = erasedByte

section
variable {p : Params} (hl : cfgLayoutLegal p.cfgLayout = true) {flash : Memory} (slot : Nat) {page : Nat}
include hl

/-- R225: programming such a target makes it the active tuple. -/
theorem TargetErased.storeAt {p2 t2 : Nat} (h : TargetErased p flash page p2 t2) {pb : BitVec 32}
    (hpb : p2 ≠ 0 → pb = storePb p flash) :
    StoreAt p (tupleProgrammed p flash slot pb page p2 t2) p2 t2 ∧
      storeSlotv p (tupleProgrammed p flash slot pb page p2 t2) p2 t2 = BitVec.ofNat 32 slot := by
  obtain ⟨hp2, ht2, hpages, htb, htuples, hlater⟩ := h
  refine ⟨⟨hp2, ht2, ?_, ?_, fun t hlt ht => ?_, fun page' hlt hp' j hj => ?_⟩, ?_⟩
  · rw [storePb_tupleProgrammed hl flash slot pb page p2 ht2 hpb, hpages]
  · rw [storeTb_tupleProgrammed hl flash slot pb page p2 ht2, htb]
  · rw [storeSlotv_tupleProgrammed_other hl flash slot pb page p2 ht2 (by omega) ht, htuples t hlt.le ht]
  · have hx : cfgPageAddr p p2 + pageSize ≤ cfgPageAddr p page' + j := by
      simp only [cfgPageAddr, pageSize]; omega
    have hpbLt := pbAddr_add_le hl p2
    rw [read_tupleProgrammed_of_apart hl flash slot pb page p2 ht2 (.inr hx) fun h0 => .inr (by have := hpbLt h0; omega),
      hlater page' hlt hp' j hj]
  · rw [storeSlotv_tupleProgrammed hl flash slot pb page p2 ht2, htuples t2 le_rfl ht2, erasedWord_and]

theorem storeTb_of_erasedPage {page' : Nat}
    (h : ∀ j < pageSize, Memory.read flash (cfgPageAddr p page' + j) = erasedByte) : storeTb p flash page' = erasedWord := by
  have hin := (cfgFields_of_legal hl).tuplesIn
  exact flashWord_of_erased fun k hk => by rw [tbAddr, Nat.add_assoc]; exact h _ (by omega)

theorem storeSlotv_of_erasedPage {page' : Nat}
    (h : ∀ j < pageSize, Memory.read flash (cfgPageAddr p page' + j) = erasedByte) {t : Nat} (ht : t < cfgTuples) :
    storeSlotv p flash page' t = erasedWord := by
  have hin := (cfgFields_of_legal hl).slotIn t ht
  exact flashWord_of_erased fun k hk => by rw [slotvAddr, Nat.add_assoc]; exact h _ (by omega)

omit hl in
/-- The tuple after the active one, in its page. -/
theorem StoreAt.target_samePage {t : Nat} (h : StoreAt p flash page t) (ht : t + 1 < cfgTuples) :
    TargetErased p flash page page (t + 1) where
  pageLt := h.pageLt
  tupleLt := ht
  pb := by rw [if_pos rfl, h.pb]
  tb := by rw [h.tb, clearBelow_clearBelow _ (Nat.le_succ t)]
  tuples := fun t' hle ht' => h.tuples t' (by omega) ht'
  pages := h.pages

/-- Tuple 0 of the page after the active one. -/
theorem StoreAt.target_nextPage {t : Nat} (h : StoreAt p flash page t) (hp : page + 1 < cfgPages) :
    TargetErased p flash page (page + 1) 0 := by
  have herased := h.pages (page + 1) (Nat.lt_succ_self page) hp
  exact {
    pageLt := hp
    tupleLt := by decide
    pb := by rw [if_neg (by omega), h.pb, clearBelow_clearBelow _ (Nat.le_succ page)]
    tb := by rw [storeTb_of_erasedPage hl herased]
    tuples := fun t' _ ht' => storeSlotv_of_erasedPage hl herased ht'
    pages := fun page' hlt hp' => h.pages page' (by omega) hp' }

/-- R229: tuple 0 of page 0 of an erased sector. -/
theorem target_erasedSector (page : Nat) :
    TargetErased p (Memory.erase flash p.configSector sectorSize) page 0 0 := by
  have herased : ∀ page' < cfgPages, ∀ j < pageSize,
      Memory.read (Memory.erase flash p.configSector sectorSize) (cfgPageAddr p page' + j) = erasedByte := by
    intro page' hp' j hj
    rw [Memory.read_erase, if_pos]
    simp only [cfgPageAddr, cfgPages, pageSize, sectorSize] at hp' hj ⊢
    omega
  have hpb : storePb p (Memory.erase flash p.configSector sectorSize) = erasedWord := by
    have hin := (cfgFields_of_legal hl).pagesIn
    simp only [pageSize] at hin
    exact flashWord_erase _ (by simp only [pbAddr]; omega) (by simp only [pbAddr, sectorSize]; omega)
  exact {
    pageLt := by decide
    tupleLt := by decide
    pb := by rw [hpb, clearBelow_zero, ite_self]
    tb := by rw [storeTb_of_erasedPage hl (herased 0 (by decide))]
    tuples := fun t' _ ht' => storeSlotv_of_erasedPage hl (herased 0 (by decide)) ht'
    pages := fun page' _ hp' => herased page' hp' }

/-- R225, R229: the update takes the store to its next tuple, which holds the slot. -/
theorem storeAt_updatedFlash {t : Nat} (h : StoreAt p flash page t) :
    StoreAt p (updatedFlash p flash slot page t) (storeNext page t).1 (storeNext page t).2 ∧
      storeSlotv p (updatedFlash p flash slot page t) (storeNext page t).1 (storeNext page t).2 = BitVec.ofNat 32 slot := by
  have hp := h.pageLt
  have ht := h.tupleLt
  unfold updatedFlash storeNext nextTuple
  by_cases hlast : t + 1 = cfgTuples
  · simp only [if_pos hlast]
    by_cases hwrap : page + 1 = cfgPages
    · simp only [if_pos hwrap]
      exact (target_erasedSector hl page).storeAt hl slot (fun h0 => absurd rfl h0)
    · simp only [if_neg hwrap]
      exact (h.target_nextPage hl (by omega)).storeAt hl slot fun _ => rfl
  · simp only [if_neg hlast, if_neg hp.ne]
    exact (h.target_samePage (by omega)).storeAt hl slot fun _ => rfl

end

/-- R223: the lookup of such a store answers the active tuple's slot. -/
theorem lookupSlot_of_storeAt {p : Params} {flash : Memory} {page t : Nat} (hl : cfgLayoutLegal p.cfgLayout = true)
    (hr : flashRangeOk p p.configSector sectorSize = true) (h : StoreAt p flash page t) :
    lookupSlot p flash = some (slotOfValue (storeSlotv p flash page t)) := by
  have hp := h.pageLt
  have ht := h.tupleLt
  obtain ⟨hpb, htb, hslotv⟩ := fields_readable hl hr hp ht
  simp only [cfgPages, cfgTuples] at hp ht
  refine lookupSlot_of_reaches ⟨hpb, ?_, h.pageLt, htb, ?_, h.tupleLt, hslotv⟩
  · rw [h.pb, ctz32_clearBelow_erasedWord (by omega)]
  · rw [h.tb, ctz32_clearBelow_erasedWord (by omega)]

theorem slotOfValue_ofNat {slot : Nat} (h : validSlot slot = true) : slotOfValue (BitVec.ofNat 32 slot) = slot := by
  have hlt : slot < 2 ^ 32 := by
    simp only [validSlot, Bool.and_eq_true, decide_eq_true_eq] at h
    omega
  rw [slotOfValue, BitVec.toNat_ofNat, Nat.mod_eq_of_lt hlt, if_pos h]

end Sys2Proof.Machine
end

section
/-! The image commands run whole (spec/43_commands_image.md R180 to R185). -/

namespace Sys2Proof.Machine

/-! ### A command run whole, a load run whole -/

/-- R166, R180: how a command ends whose tasks have this result: as every operation, with MATCH back in S0. -/
def Res.commandEnd (x : Res) : State := { x.finish with matcher := .s0 }

/-- R166, R180: a command run whole is its tasks run. -/
theorem settle_startCommand (op : Op) (arg : Arg) (todo : List Task) (s : State) :
    settle (startCommand op arg todo s) = (runTasks todo s).commandEnd := by
  have hrun : runTasks todo (startCommand op arg todo s) = (runTasks todo s).map (State.withControl .s0 (.exec op arg todo)) :=
    runTasks_withControl .s0 (.exec op arg todo) todo s
  rw [settle_of_dctl (.inr ⟨op, arg, rfl⟩) (startCommand_dctl op arg todo s), hrun]
  cases runTasks todo s <;> rfl

theorem copySegment_of_failing {seg : Segment} {s : State} {n : Nat} (hf : s.failAt = some n) (hn : n < seg.len) :
    copySegment seg s = .stop { s with img := Memory.copy s.img seg.dst s.flash seg.src n, failAt := some 0 }
      (.flashFail .read (seg.src + n)) := by
  simp only [copySegment, hf, if_pos hn]

/-- R181: a copy to the image's beginning. -/
theorem Memory.read_copy_zero (img flash : Memory) (a n b : Nat) :
    Memory.read (Memory.copy img 0 flash a n) b = if b < n then Memory.read flash (a + b) else Memory.read img b := by
  rw [Memory.read_copy, Nat.zero_add, Nat.sub_zero]
  simp only [Nat.zero_le, true_and]

theorem runTasks_loadSlotTasks (p : Params) (slot n : Nat) (s : State) : runTasks (loadSlotTasks p slot n) s =
    (checkRange (slotBase p slot) n s).bind (copySegment { dst := 0, src := slotBase p slot, len := n }) := by
  rw [loadSlotTasks, runTasks_cons, Task.run_check]
  congr 1
  funext u
  rw [runTasks_cons, Task.run_copy, copySegments_cons, Res.bind_of_done runTasks_nil, Res.bind_of_done copySegments_nil]

section
variable {p : Params} {slot n : Nat} {s : State}

theorem runTasks_loadSlotTasks_of_ok (hr : flashRangeOk s.params (slotBase p slot) n = true) (hf : s.failAt = none) :
    runTasks (loadSlotTasks p slot n) s =
      .done { s with img := Memory.copy s.img 0 s.flash (slotBase p slot) n } := by
  rw [runTasks_loadSlotTasks, checkRange_of_ok hr, Res.bind_done, copySegment_of_none hf]

theorem runTasks_loadSlotTasks_of_not_ok (hr : flashRangeOk s.params (slotBase p slot) n = false) :
    runTasks (loadSlotTasks p slot n) s = .stop s (.flashRange (slotBase p slot)) := by
  rw [runTasks_loadSlotTasks, checkRange_of_not_ok hr, Res.bind_stop]

theorem runTasks_loadSlotTasks_of_failing (hr : flashRangeOk s.params (slotBase p slot) n = true) {k : Nat}
    (hf : s.failAt = some k) (hk : k < n) : runTasks (loadSlotTasks p slot n) s =
      .stop { s with img := Memory.copy s.img 0 s.flash (slotBase p slot) k, failAt := some 0 }
        (.flashFail .read (slotBase p slot + k)) := by
  rw [runTasks_loadSlotTasks, checkRange_of_ok hr, Res.bind_done, copySegment_of_failing hf hk]

end

/-! ### UPDATE_ACTIVE_SLOT -/

theorem exec_updateActiveSlot {slot : Arg} (h : validSlot slot.toNat = true) (s : State) :
    exec (.updateActiveSlot slot) s = .next ((runTasks [.storePages slot.toNat] s).bind
      (runTasks (loadSlotTasks s.params slot.toNat romBytes))).commandEnd := by
  have hstart : startUpdateActiveSlot slot s = startCommand .updateActiveSlot slot
      ([.storePages slot.toNat] ++ loadSlotTasks s.params slot.toNat romBytes) s := by
    rw [startUpdateActiveSlot, if_pos h]; rfl
  rw [exec, execUpdateActiveSlot, hstart, settle_startCommand, runTasks_append]

/-- R182: the store updated, the image is loaded. -/
theorem exec_updateActiveSlot_of_done {slot : Arg} (h : validSlot slot.toNat = true) {s u : State}
    (hstore : runTasks [.storePages slot.toNat] s = .done u) :
    exec (.updateActiveSlot slot) s = .next (runTasks (loadSlotTasks u.params slot.toNat romBytes) u).commandEnd := by
  have hparams := (runTasks_frame [.storePages slot.toNat] s).params
  rw [hstore] at hparams
  rw [exec_updateActiveSlot h, hstore, Res.bind_done, ← hparams]
  rfl

/-- R252: a fault of the store update ends the command. -/
theorem exec_updateActiveSlot_of_stop {slot : Arg} (h : validSlot slot.toNat = true) {s u : State} {r : FaultReason}
    (hstore : runTasks [.storePages slot.toNat] s = .stop u r) :
    exec (.updateActiveSlot slot) s = .next { u with matcher := .s0, dctl := .faulted r } := by
  rw [exec_updateActiveSlot h, hstore, Res.bind_stop]
  rfl

/-- R182: with an in-range tuple, ranges that may be used and no failure, the store is updated and the image is the slot's. -/
theorem exec_updateActiveSlot_of_inRange {s : State} {slot : Arg} (hslot : validSlot slot.toNat = true)
    (hl : cfgLayoutLegal s.params.cfgLayout = true)
    (hr : flashRangeOk s.params s.params.configSector sectorSize = true)
    (hb : flashRangeOk s.params (slotBase s.params slot.toNat) romBytes = true) (hf : s.failAt = none) {page t : Nat}
    (hpage : ctz32 (storePb s.params s.flash) = page) (hp : page < cfgPages)
    (htuple : ctz32 (storeTb s.params s.flash page) = t) (ht : t < cfgTuples) :
    let flash := updatedFlash s.params s.flash slot.toNat page t
    exec (.updateActiveSlot slot) s = .next { s with
      img := Memory.copy s.img 0 flash (slotBase s.params slot.toNat) romBytes
      flash := flash, matcher := .s0, dctl := .recv } := by
  subst hpage htuple
  intro flash
  have hload : runTasks (loadSlotTasks s.params slot.toNat romBytes) { s with flash := flash } = _ :=
    runTasks_loadSlotTasks_of_ok hb hf
  exact (exec_updateActiveSlot_of_done hslot (runTasks_storePages hl hr hf _ hp ht)).trans
    (congrArg Host.Outcome.next (congrArg Res.commandEnd hload))

/-- Settles O23: the update takes the store to the slot's tuple, from which the lookup answers it, and the load copies its
image. -/
theorem slotSwitchIsRemembered : Obligations.SlotSwitchIsRemembered := by
  unfold Obligations.SlotSwitchIsRemembered
  intro s slot page t hslot hl hr hb hf hat
  have hp := hat.pageLt
  have ht := hat.tupleLt
  have hpage : ctz32 (storePb s.params s.flash) = page := by
    rw [hat.pb, ctz32_clearBelow_erasedWord (by simp only [cfgPages] at hp; omega)]
  have htuple : ctz32 (storeTb s.params s.flash page) = t := by
    rw [hat.tb, ctz32_clearBelow_erasedWord (by simp only [cfgTuples] at ht; omega)]
  obtain ⟨hnext, hslotv⟩ := storeAt_updatedFlash hl slot.toNat hat
  have hlookup := lookupSlot_of_storeAt hl hr hnext
  rw [hslotv, slotOfValue_ofNat hslot] at hlookup
  refine ⟨_, exec_updateActiveSlot_of_inRange hslot hl hr hb hf hpage hp htuple ht, rfl, ?_, hnext, fun b hlt => ?_⟩
  · simp only [getActiveSlot, hlookup]
  · dsimp only
    rw [Memory.read_copy_zero, if_pos hlt]

/-! ### The update leaves the image alone -/

/-- The tasks that write no byte of IMG and leave none that does. -/
def Task.sparesImg : Task → Bool
  | .storePages _ => true
  | .storeTuples _ _ => true
  | .storePage _ _ _ _ _ => true
  | .check _ _ => true
  | .program _ _ => true
  | .programPage _ => true
  | .erase _ => true
  | _ => false

theorem flashProgram_img (a : Nat) (data : List Byte) (s : State) : (flashProgram a data s).state.img = s.img := by
  rcases flashProgram_cases a data s with ⟨_, f, e⟩ | ⟨r, e⟩ <;> rw [e] <;> rfl

theorem flashErase_img (a : Nat) (s : State) : (flashErase a s).state.img = s.img := by
  rcases flashErase_cases a s with ⟨_, f, e⟩ | ⟨r, e⟩ <;> rw [e] <;> rfl

theorem Task.whole_img {t : Task} (ht : t.sparesImg = true) (s : State) : (t.whole s).state.img = s.img := by
  by_cases hr : t.reads = true
  · obtain ⟨f, n, e⟩ := Task.whole_of_reads hr s
    rw [e]
  · cases t with
    | program a data => rw [Task.whole, Progress.state_thenTasks]; exact flashProgram_img a data s
    | programPage a => rw [Task.whole, Progress.state_thenTasks]; exact flashProgram_img a _ s
    | erase a => rw [Task.whole, Progress.state_thenTasks]; exact flashErase_img a s
    | _ => simp [Task.sparesImg, Task.reads] at ht hr

theorem Task.whole_leaves_sparesImg {t : Task} (ht : t.sparesImg = true) (s : State) :
    (t.whole s).Leaves fun u => u.sparesImg = true := by
  cases t with
  | storePages slot => exact (storePagesStep_leaves slot s).imp fun u ⟨_, e⟩ => e ▸ rfl
  | storeTuples slot pb =>
    exact (storeTuplesStep_leaves slot pb s).imp fun u hu => by rcases hu with rfl | ⟨_, _, _, rfl⟩ <;> rfl
  | storePage slot pb page p2 t2 => exact (storePageStep_leaves slot pb page p2 t2 s).imp fun u ⟨_, _, e⟩ => e ▸ rfl
  | check | program | programPage | erase => exact Res.thenTasks_none_leaves _ _
  | _ => cases ht

theorem runTasks_img {todo : List Task} (h : ∀ t ∈ todo, t.sparesImg = true) (s : State) :
    (runTasks todo s).state.img = s.img :=
  runTasks_keeps (P := fun u => u.img = s.img) (ok := fun t => t.sparesImg = true)
    (fun _ u ht hu => (Task.whole_img ht u).trans hu) (fun _ u ht _ => Task.whole_leaves_sparesImg ht u) h rfl

/-! ### How the update's first read faults -/

theorem flashRead_of_not_ok {a n : Nat} {s : State} (h : flashRangeOk s.params a n = false) :
    flashRead a n s = .stop s (.flashRange a) := by
  rw [flashRead, checkRange_of_not_ok h, Res.bind_stop]

theorem flashRead_of_failing {a n : Nat} {s : State} (h : flashRangeOk s.params a n = true) (hf : s.failAt = some 0) :
    flashRead a n s = .stop s (.flashFail .read a) := by
  rw [flashRead, checkRange_of_ok h, Res.bind_done, flashAttempt_of_zero _ _ hf]

theorem runTasks_storePages_of_stop (slot : Nat) {s u : State} {r : FaultReason}
    (h : flashRead (pbAddr s.params) 4 s = .stop u r) : runTasks [.storePages slot] s = .stop u r := by
  rw [runTasks_singleton, Task.whole, storePagesStep, h]
  rfl

/-- Settles O22: the store update's own end, and after it the load's. -/
theorem updateActiveSlotReloads : Obligations.UpdateActiveSlotReloads := by
  unfold Obligations.UpdateActiveSlotReloads
  intro s slot hslot
  dsimp only
  have himg : (runTasks [.storePages slot.toNat] s).state.img = s.img := runTasks_img (by simp [Task.sparesImg]) s
  have hparams := (runTasks_frame [.storePages slot.toNat] s).params
  refine ⟨fun hl hr hb hf hp ht => ?_, fun u r hstore => ?_, fun hpb => ?_, fun hpb hf => ?_, fun u hstore => ?_⟩
  · exact ⟨_, _, exec_updateActiveSlot_of_inRange hslot hl hr hb hf rfl hp rfl ht, runTasks_storePages hl hr hf _ hp ht,
      fun b => Memory.read_copy_zero _ _ _ _ b⟩
  · rw [hstore] at himg
    exact ⟨himg, exec_updateActiveSlot_of_stop hslot hstore⟩
  · exact exec_updateActiveSlot_of_stop hslot (runTasks_storePages_of_stop _ (flashRead_of_not_ok hpb))
  · exact exec_updateActiveSlot_of_stop hslot (runTasks_storePages_of_stop _ (flashRead_of_failing hpb hf))
  · rw [hstore] at himg hparams
    simp only [Res.state] at himg hparams
    have hexec := exec_updateActiveSlot_of_done hslot hstore
    rw [← hparams]
    refine ⟨himg, fun hb => ?_, fun n hn hb hf => ?_⟩
    · rw [hexec, runTasks_loadSlotTasks_of_not_ok hb]
      rfl
    · rw [runTasks_loadSlotTasks_of_failing hb hf hn] at hexec
      exact ⟨_, hexec, fun b => himg ▸ Memory.read_copy_zero _ _ _ _ b⟩

end Sys2Proof.Machine
end

section
/-! The status record, the reload of the page buffer and the host's page (spec/43_commands_image.md R184 to R186). -/

namespace Sys2Proof.Machine

/-! ### WRITE_STATUS_TO_SRAM -/

/-- R53: bytes written at offsets 0, 1, … read back as they are. -/
theorem Memory.readList_writeCells_zip (m : Memory) (bytes : List Byte) :
    Memory.readList (Memory.writeCells m ((List.range bytes.length).zip bytes)) 0 bytes.length = bytes := by
  have hnodup : (((List.range bytes.length).zip bytes).map Prod.fst).Nodup := by
    rw [List.map_fst_zip (by simp)]
    exact List.nodup_range
  refine List.ext_getElem (Memory.length_readList _ _ _) fun j hj hj' => ?_
  simp only [Memory.readList, List.getElem_map, List.getElem_range, Nat.zero_add]
  refine Memory.read_writeCells_of_mem m hnodup (List.mem_iff_getElem.mpr ⟨j, by simpa using hj', ?_⟩)
  simp

/-- R55: the bus carries a word of the image with its first byte high. -/
theorem busWord_ofNat (img : Memory) {w : Nat} (h : w < 2 ^ 18) :
    busWord img (BitVec.ofNat 18 w) = Memory.read img (2 * w) ++ Memory.read img (2 * w + 1) := by
  rw [busWord_eq, BitVec.toNat_ofNat, Nat.mod_eq_of_lt h]

/-- R184: the command's image. -/
theorem exec_writeStatusToSram (arg : Arg) (s : State) : exec (.writeStatusToSram arg) s = .next { (getActiveSlot s).2 with
    img := Memory.writeCells s.img (statusCells s.params (getActiveSlot s).1), matcher := .s0, dctl := .recv } := by
  rw [exec, execWriteStatusToSram, startWriteStatusToSram, settle_startCommand, runTasks_cons, Task.run_status,
    getActiveSlot_img, getActiveSlot_params]
  rfl

/-- Settles O25: the record's bytes by where they are written, the words by their bytes. -/
theorem writeStatusPublishesRecord : Obligations.WriteStatusPublishesRecord := by
  unfold Obligations.WriteStatusPublishesRecord
  intro s arg slot
  have hrecord : Memory.readList (Memory.writeCells s.img (statusCells s.params slot)) 0 10 = statusRecord s.params slot :=
    Memory.readList_writeCells_zip s.img (statusRecord s.params slot)
  refine ⟨_, exec_writeStatusToSram arg s, hrecord, fun b hb => ?_, ?_⟩
  · refine Memory.read_writeCells_of_not_mem _ _ _ fun c hc => ?_
    have hlt := List.mem_range.mp (List.of_mem_zip hc).1
    omega
  · have hbyte : ∀ j < 10, Memory.read (Memory.writeCells s.img (statusCells s.params slot)) j =
        (statusRecord s.params slot).getD j erasedByte := fun j hj => by
      rw [← hrecord, Memory.getD_readList _ _ _ _ hj, Nat.zero_add]
    have hword : ∀ w < 5, busWord (Memory.writeCells s.img (statusCells s.params slot)) (BitVec.ofNat 18 w) =
        (statusRecord s.params slot).getD (2 * w) erasedByte ++ (statusRecord s.params slot).getD (2 * w + 1) erasedByte :=
      fun w hw => by rw [busWord_ofNat _ (by omega), hbyte _ (by omega), hbyte _ (by omega)]
    exact ⟨(hword 0 (by decide)).trans (show 0x52#8 ++ 0x50#8 = 0x5250#16 by decide),
      (hword 1 (by decide)).trans (show 0x52#8 ++ 0x4D#8 = 0x524D#16 by decide),
      hword 2 (by decide), hword 3 (by decide), hword 4 (by decide)⟩

/-! ### RESTORE_PAGE_TO_SRAM -/

/-- R185: the command is a load of the active slot's first bytes. -/
theorem exec_restorePageToSram (arg : Arg) (s : State) : exec (.restorePageToSram arg) s =
    .next (runTasks (loadSlotTasks s.params (getActiveSlot s).1 responseBytes) (getActiveSlot s).2).commandEnd := by
  rw [exec, execRestorePageToSram, startRestorePageToSram, settle_startCommand, runTasks_singleton, Task.whole]
  dsimp only [Progress.runOn]
  rw [getActiveSlot_params]

/-- Settles O26: the three ends of the load. -/
theorem restorePageReloads : Obligations.RestorePageReloads := by
  unfold Obligations.RestorePageReloads
  intro s arg slot
  have hexec : exec (.restorePageToSram arg) s =
      .next (runTasks (loadSlotTasks s.params slot 258) (getActiveSlot s).2).commandEnd := exec_restorePageToSram arg s
  have hparams := getActiveSlot_params s
  have himg := getActiveSlot_img s
  have hflash := getActiveSlot_flash s
  have hfail := getActiveSlot_failAt s
  refine ⟨fun hf hb => ?_, fun hb => ?_, fun n hn hb hf => ?_⟩
  · rw [runTasks_loadSlotTasks_of_ok (by rwa [hparams]) (hfail.trans hf)] at hexec
    exact ⟨_, hexec, fun b => himg ▸ hflash ▸ Memory.read_copy_zero _ _ _ _ b⟩
  · rw [hexec, runTasks_loadSlotTasks_of_not_ok (by rwa [hparams])]
    rfl
  · rw [runTasks_loadSlotTasks_of_failing (by rwa [hparams]) (hfail.trans hf) hn] at hexec
    exact ⟨_, hexec, fun b => himg ▸ hflash ▸ Memory.read_copy_zero _ _ _ _ b⟩

/-! ### PAYLOAD -/

theorem Memory.writeCells_append (m : Memory) (cs ds : List Host.Cell) :
    Memory.writeCells m (cs ++ ds) = Memory.writeCells (Memory.writeCells m cs) ds := by
  induction cs generalizing m with
  | nil => rfl
  | cons c cs ih => exact ih _

/-- R186: the two bytes of a payload word, the high one first. -/
theorem payloadCells_eq (i : Nat) (d : Half) :
    payloadCells i d = [(2 * i, d.extractLsb' 8 8), (2 * i + 1, d.extractLsb' 0 8)] := by
  rw [payloadCells, swap16, BitVec.extractLsb'_append_eq_left, BitVec.extractLsb'_append_eq_right]

theorem exec_payload {s : State} {i : Nat} {due : List Host.Cell} (h : s.dctl = .hostCopy i due) (ign : BitVec 2) (d : Half) :
    exec (.payload ign d) s = .next { s with
      img := Memory.writeCells (Memory.writeCells s.img due) (payloadCells i d)
      dctl := if i + 1 < hostCopyWords then .hostCopy (i + 1) [] else .recv } := by
  rw [← Memory.writeCells_append]
  simp only [exec, execPayload, h, takePayload]
  by_cases hi : i + 1 < hostCopyWords
  · rw [if_pos hi, if_pos hi]; rfl
  · rw [if_neg hi, if_neg hi]; rfl

/-- Settles O28: the word's two byte writes come after those due. -/
theorem payloadWritesItsBytes : Obligations.PayloadWritesItsBytes := by
  unfold Obligations.PayloadWritesItsBytes
  intro s i due ign d h
  have hread : ∀ b, Memory.read (Memory.writeCells (Memory.writeCells s.img due) (payloadCells i d)) b =
      if b = 2 * i then d.extractLsb' 8 8 else if b = 2 * i + 1 then d.extractLsb' 0 8
      else Memory.read (Memory.writeCells s.img due) b := by
    intro b
    rw [payloadCells_eq]
    simp only [Memory.writeCells, Memory.read_write]
    by_cases hb : b = 2 * i
    · rw [if_neg (by omega), if_pos hb, if_pos hb]
    · rw [if_neg hb, if_neg hb]
  refine ⟨_, exec_payload h ign d, hread, fun hi => ?_⟩
  rw [busWord_ofNat _ hi, hread, hread, if_pos rfl, if_neg (by omega), if_pos rfl]
  exact append_extractLsb'_eq_self (m := 8) (n := 8) d

/-- R186: the words that are left of a page, from word `i` on, become words `i` to 127 of the image; nothing else is changed
but DCTL. -/
theorem execSeq_payload (words : List (BitVec 2 × Half)) {s : State} {i : Nat}
    (h : s.dctl = if i < 128 then .hostCopy i [] else .recv) (hlen : i + words.length = 128) :
    ∃ img, execSeq (words.map fun w => .payload w.1 w.2) s = .next { s with img := img, dctl := .recv } ∧
      (∀ j (hj : j < words.length), busWord img (BitVec.ofNat 18 (i + j)) = words[j].2) ∧
      ∀ b, b < 2 * i ∨ 256 ≤ b → Memory.read img b = Memory.read s.img b := by
  induction words generalizing s i with
  | nil =>
    rw [if_neg (by simp at hlen; omega)] at h
    exact ⟨s.img, by rw [← h]; rfl, fun j hj => absurd hj (Nat.not_lt_zero j), fun _ _ => rfl⟩
  | cons w words ih =>
    rw [List.length_cons] at hlen
    rw [if_pos (by omega)] at h
    obtain ⟨img, hexec, hread, hword⟩ := payloadWritesItsBytes s i [] w.1 w.2 h
    obtain ⟨img', hexec', hwords, hkeep⟩ :=
      ih (s := { s with img := img, dctl := if i + 1 < 128 then .hostCopy (i + 1) [] else .recv }) rfl (by omega)
    refine ⟨img', ?_, fun j hj => ?_, fun b hb => ?_⟩
    · rw [List.map_cons, execSeq, hexec]
      exact hexec'
    · cases j with
      | zero =>
        have hsame : busWord img' (BitVec.ofNat 18 i) = busWord img (BitVec.ofNat 18 i) := by
          rw [busWord_ofNat _ (by omega), busWord_ofNat _ (by omega), hkeep _ (by omega), hkeep _ (by omega)]
        exact hsame.trans (hword (by omega))
      | succ j =>
        rw [← Nat.add_assoc, Nat.add_right_comm]
        exact hwords j (by simpa using hj)
    · rw [hkeep b (by omega), hread, if_neg (by omega), if_neg (by omega)]
      rfl

/-- Settles O30: the words from word 0 on. -/
theorem hostPageArrives : Obligations.HostPageArrives := by
  unfold Obligations.HostPageArrives
  intro s words h hlen
  obtain ⟨img, hexec, hwords, hkeep⟩ := execSeq_payload words (i := 0) h (by omega)
  refine ⟨img, hexec, fun i hi => ?_, fun b hb => hkeep b (.inr hb)⟩
  simpa only [Nat.zero_add] using hwords i hi

end Sys2Proof.Machine
end

section
/-! A whole run is a sequence of single steps of DISP (spec/43_commands_image.md R180; spec/42_command_decoder.md R168): the
step that takes bytes in the whole run's order leaves the end of the run as it was and less to do. -/

namespace Sys2Proof.Machine

/-! ### The whole run's order -/

/-- Log 7: the choice that the whole run makes: the first segment of a copy whole, the first byte that is due. -/
def Choice.inOrder (len : Nat) : Choice := { land := true, pick := 0, off := 0, len := len }

/-- How many bytes the whole run copies in the first step of a task. -/
def Task.firstLen : Task → Nat
  | .copy (g :: _) => g.len
  | _ => 0

theorem copyStep_inOrder (g : Segment) (gs : List Segment) (s : State) :
    copyStep (Choice.inOrder g.len) (g :: gs) s = (copySegment g s).thenTasks fun _ => copyLeft gs := by
  simp [copyStep, Choice.inOrder, segmentList, copyLeft]

theorem bytesStep_inOrder (n : Nat) (cell : Host.Cell) (cells : List Host.Cell) (s : State) :
    bytesStep (Choice.inOrder n) (cell :: cells) s =
      .cont (bytesLeft cells) { s with img := Memory.write s.img cell.1 cell.2 } := by
  simp [bytesStep, Choice.inOrder, bytesLeft]

/-- A step in the whole run's order, and then what is left run to its end, is the task run, whatever fails in it. -/
theorem Task.step_inOrder_runOn (t : Task) (s : State) :
    (t.step (Choice.inOrder t.firstLen) s).runOn = Task.run 4 t s := by
  cases t with
  | copy segs =>
    cases segs with
    | nil => rfl
    | cons g gs =>
      rw [Task.run_copy, Task.step, Task.firstLen, copyStep_inOrder, Res.thenTasks_runOn, copySegments_cons]
      exact congrArg _ (funext fun u => runTasks_copyLeft gs u)
  | bytes cells =>
    cases cells with
    | nil => rfl
    | cons cell cells =>
      rw [Task.run_bytes, Task.step, bytesStep_inOrder]
      exact runTasks_bytesLeft cells _
  | _ => simp only [Task.step, Task.run_eq_whole_runOn]

/-! ### How many steps are left -/

/-- How many single steps a task takes at most in the whole run's order. -/
def Task.steps : Task → Nat
  | .copy segs => segs.length + 1
  | .bytes cells => cells.length + 1
  | .loadActive _ => 4
  | .status => 12
  | .storePages _ => 6
  | .storeTuples _ _ => 5
  | .storePage _ _ _ _ _ => 3
  | _ => 1

/-- How many single steps the tasks that a step leaves take at most. -/
def Progress.steps : Progress → Nat
  | .cont todo _ => (todo.map Task.steps).sum
  | .stop _ _ => 0

theorem Res.thenTasks_steps_le (x : Res) (todo : List Task) :
    (x.thenTasks fun _ => todo).steps ≤ (todo.map Task.steps).sum := by
  cases x with
  | done s => exact le_rfl
  | stop s r => exact Nat.zero_le _

theorem steps_copyLeft_le (gs : List Segment) : ((copyLeft gs).map Task.steps).sum ≤ gs.length + 1 := by
  unfold copyLeft
  split <;> simp [Task.steps]

theorem steps_bytesLeft_le (cells : List Host.Cell) : ((bytesLeft cells).map Task.steps).sum ≤ cells.length + 1 := by
  unfold bytesLeft
  split <;> simp [Task.steps]

theorem Task.steps_pos (t : Task) : 0 < t.steps := by cases t <;> simp [Task.steps]

theorem storePagesStep_steps_lt (slot : Nat) (s : State) : (storePagesStep slot s).steps < 6 := by
  unfold storePagesStep
  split
  · exact Nat.succ_pos _
  · dsimp only
    split
    · exact Nat.succ_pos _
    · simp [Progress.steps, Task.steps]

theorem storeTuplesStep_steps_lt (slot : Nat) (pb : BitVec 32) (s : State) : (storeTuplesStep slot pb s).steps < 5 := by
  unfold storeTuplesStep
  split
  · exact Nat.succ_pos _
  · dsimp only
    split
    · exact Nat.succ_pos _
    · split <;> simp [Progress.steps, Task.steps]

theorem storePageStep_steps_lt (slot : Nat) (pb : BitVec 32) (page p2 t2 : Nat) (s : State) :
    (storePageStep slot pb page p2 t2 s).steps < 3 := by
  unfold storePageStep
  split
  · exact Nat.succ_pos _
  · split <;> simp [Progress.steps, Task.steps]

/-- Every step in the whole run's order leaves less to do. -/
theorem Task.steps_step_lt (t : Task) (s : State) : (t.step (Choice.inOrder t.firstLen) s).steps < t.steps := by
  cases t with
  | copy segs =>
    cases segs with
    | nil => exact Nat.one_pos
    | cons g gs =>
      rw [Task.step, Task.firstLen, copyStep_inOrder]
      exact ((Res.thenTasks_steps_le _ _).trans (steps_copyLeft_le gs)).trans_lt (by simp [Task.steps])
  | bytes cells =>
    cases cells with
    | nil => exact Nat.one_pos
    | cons cell cells =>
      rw [Task.step, bytesStep_inOrder]
      exact (steps_bytesLeft_le cells).trans_lt (by simp [Task.steps])
  | storePages slot => exact storePagesStep_steps_lt slot s
  | storeTuples slot pb => exact storeTuplesStep_steps_lt slot pb s
  | storePage slot pb page p2 t2 => exact storePageStep_steps_lt slot pb page p2 t2 s
  | loadActive n => simp [Task.step, Task.whole, Progress.steps, loadSlotTasks, Task.steps]
  | status => simp [Task.step, Task.whole, Progress.steps, Task.steps, statusCells, statusRecord]
  | sampleStrap | startResponder => exact Nat.one_pos
  | check | program | programPage | erase =>
    exact (Res.thenTasks_steps_le _ []).trans_lt (Task.steps_pos _)

/-- How many single steps of DISP are left at most until it waits for a word or is FAULTED. -/
def State.stepsLeft (s : State) : Nat :=
  match s.dctl with
  | .boot todo => (todo.map Task.steps).sum + 1
  | .exec _ _ todo => (todo.map Task.steps).sum + 1
  | .hostCopy _ due => due.length
  | .recv => 0
  | .faulted _ => 0

/-! ### One step -/

section
variable {back : List Task → Dctl} (hback : back = Dctl.boot ∨ ∃ op arg, back = Dctl.exec op arg)
include hback

theorem State.stepsLeft_of_dctl {s : State} {todo : List Task} (hd : s.dctl = back todo) :
    s.stepsLeft = (todo.map Task.steps).sum + 1 := by
  rcases hback with rfl | ⟨op, arg, rfl⟩ <;> simp only [State.stepsLeft, hd]

theorem dispStep_of_todo {s : State} {todo : List Task} (hd : s.dctl = back todo) (c : Choice) :
    dispStep c s = taskStep c todo back s := by
  rcases hback with rfl | ⟨op, arg, rfl⟩ <;> simp only [dispStep, hd]

/-- R180: a step of boot or of a command in the whole run's order. -/
theorem exists_dispStep_of_todo {s : State} {todo : List Task} (hd : s.dctl = back todo) :
    ∃ c, settle (dispStep c s) = settle s ∧ (dispStep c s).stepsLeft < s.stepsLeft := by
  rw [settle_of_dctl hback hd, State.stepsLeft_of_dctl hback hd]
  simp only [dispStep_of_todo hback hd]
  cases todo with
  | nil => exact ⟨Choice.inOrder 0, rfl, Nat.one_pos⟩
  | cons t ts =>
    refine ⟨Choice.inOrder t.firstLen, ?_⟩
    have hrun := Task.step_inOrder_runOn t s
    have hless := Task.steps_step_lt t s
    rw [runTasks_cons, ← hrun, taskStep, List.map_cons, List.sum_cons]
    generalize t.step (Choice.inOrder t.firstLen) s = x at hless ⊢
    cases x with
    | cont more u =>
      simp only [Progress.steps] at hless
      dsimp only
      rw [settle_with_dctl hback, runTasks_append, State.stepsLeft_of_dctl hback rfl, List.map_append, List.sum_append]
      exact ⟨rfl, by omega⟩
    | stop u r => exact ⟨rfl, Nat.succ_pos _⟩

end

/-- D45: the first payload byte that is due lands. -/
theorem exists_dispStep_of_due {s : State} {i : Nat} {cell : Host.Cell} {due : List Host.Cell}
    (hd : s.dctl = .hostCopy i (cell :: due)) :
    ∃ c, settle (dispStep c s) = settle s ∧ (dispStep c s).stepsLeft < s.stepsLeft := by
  have hstep : dispStep (Choice.inOrder 0) s =
      { s with img := Memory.write s.img cell.1 cell.2, dctl := .hostCopy i due } := by
    simp [dispStep, hd, Choice.inOrder]
  refine ⟨Choice.inOrder 0, ?_, ?_⟩
  · rw [hstep]
    simp only [settle, hd, Memory.writeCells]
  · rw [hstep]
    simp only [State.stepsLeft, hd, List.length_cons, Nat.lt_succ_self]

/-- Either nothing is left to run, or a single step runs a part of it. -/
theorem settle_eq_self_or_exists_dispStep (s : State) :
    settle s = s ∨ ∃ c, settle (dispStep c s) = settle s ∧ (dispStep c s).stepsLeft < s.stepsLeft := by
  cases hd : s.dctl with
  | boot todo => exact .inr (exists_dispStep_of_todo (.inl rfl) hd)
  | exec op arg todo => exact .inr (exists_dispStep_of_todo (.inr ⟨op, arg, rfl⟩) hd)
  | recv => exact .inl (settle_of_recv hd)
  | faulted r => left; simp only [settle, hd]
  | hostCopy i due =>
    cases due with
    | nil => left; simp only [settle, hd, Memory.writeCells]; rw [← hd]
    | cons cell due => exact .inr (exists_dispStep_of_due hd)

/-- Settles O10, by induction on the steps that are left. -/
theorem settleIsMadeOfDispSteps : Obligations.SettleIsMadeOfDispSteps := by
  unfold Obligations.SettleIsMadeOfDispSteps
  intro s
  induction hn : s.stepsLeft using Nat.strong_induction_on generalizing s with
  | _ n ih =>
    rcases settle_eq_self_or_exists_dispStep s with hself | ⟨c, hsettle, hless⟩
    · exact ⟨[], hself.symm⟩
    · obtain ⟨choices, hchoices⟩ := ih _ (hn ▸ hless) _ rfl
      exact ⟨c :: choices, hchoices.trans hsettle⟩

end Sys2Proof.Machine
end

section
/-! Which image bytes each instruction of DISP may change (spec/43_commands_image.md R182 to R186; spec/44_commands_flash.md
R202 to R206). -/

namespace Sys2Proof.Machine

/-- IMG outside `lo .. hi - 1` is as it was. -/
def ImgOutside (lo hi : Nat) (s t : State) : Prop :=
  ∀ x, x < lo ∨ hi ≤ x → Memory.read t.img x = Memory.read s.img x

theorem ImgOutside.of_eq {lo hi : Nat} {s t : State} (h : t.img = s.img) : ImgOutside lo hi s t := fun _ _ => by rw [h]

theorem ImgOutside.trans {lo hi : Nat} {s t u : State} (h : ImgOutside lo hi s t) (k : ImgOutside lo hi t u) :
    ImgOutside lo hi s u :=
  fun x hx => (k x hx).trans (h x hx)

/-! ### Operations that write within a range -/

/-- A part of a segment copied, done or failed on the way, writes within the segment. -/
theorem ImgOutside.of_copySegment_part {lo hi : Nat} {g : Segment} (hg : lo ≤ g.dst ∧ g.dst + g.len ≤ hi) {off n : Nat}
    (hn : off + n ≤ g.len) (s : State) : ImgOutside lo hi s (copySegment (g.part off n) s).state := by
  intro x hx
  rcases read_copySegment_part hn s x with h | ⟨a, ⟨hlo, hhi, _⟩, _⟩
  · exact h
  · omega

theorem ImgOutside.of_copySegments {lo hi : Nat} {gs : List Segment} (hgs : ∀ g ∈ gs, lo ≤ g.dst ∧ g.dst + g.len ≤ hi)
    (s : State) : ImgOutside lo hi s (copySegments gs s).state := by
  induction gs generalizing s with
  | nil => exact .of_eq rfl
  | cons g gs ih =>
    obtain ⟨hg, hgs⟩ := List.forall_mem_cons.mp hgs
    have hwhole := ImgOutside.of_copySegment_part hg (off := 0) (Nat.zero_add g.len).le s
    exact Res.bind_rel (R := ImgOutside lo hi) ImgOutside.trans hwhole fun t _ => ih hgs t

theorem ImgOutside.of_writeCells {lo hi : Nat} {cells : List Host.Cell} (h : ∀ c ∈ cells, lo ≤ c.1 ∧ c.1 < hi) (s : State) :
    ImgOutside lo hi s { s with img := Memory.writeCells s.img cells } :=
  fun x hx => Memory.read_writeCells_of_not_mem cells s.img x fun c hc e => by have := h c hc; omega

/-! ### Tasks that write within a range -/

/-- The tasks that write image bytes in `lo .. hi - 1` only, and leave only such tasks. -/
def Task.WritesImgWithin (lo hi : Nat) : Task → Prop
  | .loadActive n => lo = 0 ∧ n ≤ hi
  | .status => lo = 0 ∧ 10 ≤ hi
  | .copy segs => ∀ g ∈ segs, lo ≤ g.dst ∧ g.dst + g.len ≤ hi
  | .bytes cells => ∀ c ∈ cells, lo ≤ c.1 ∧ c.1 < hi
  | _ => True

theorem Task.writesImgWithin_of_sparesImg {t : Task} (h : t.sparesImg = true) (lo hi : Nat) : t.WritesImgWithin lo hi := by
  cases t with
  | loadActive | status | copy | bytes => cases h
  | _ => trivial

theorem Task.whole_imgOutside {lo hi : Nat} {t : Task} (ht : t.WritesImgWithin lo hi) (s : State) :
    ImgOutside lo hi s (t.whole s).state := by
  by_cases hs : t.sparesImg = true
  · exact .of_eq (Task.whole_img hs s)
  · cases t with
    | sampleStrap => exact .of_eq rfl
    | startResponder => exact .of_eq rfl
    | loadActive n => exact .of_eq (getActiveSlot_img s)
    | status => exact .of_eq (getActiveSlot_img s)
    | copy segs =>
      rw [Task.whole, Progress.state_thenTasks]
      exact .of_copySegments ht s
    | bytes cells => exact .of_writeCells ht s
    | _ => exact absurd rfl hs

/-- R184: the status record goes to bytes 0 to 9. -/
theorem fst_lt_of_mem_statusCells {p : Params} {slot : Nat} {c : Host.Cell} (hc : c ∈ statusCells p slot) : c.1 < 10 :=
  List.mem_range.mp (List.of_mem_zip hc).1

theorem Task.whole_leaves_writesImgWithin {lo hi : Nat} {t : Task} (ht : t.WritesImgWithin lo hi) (s : State) :
    (t.whole s).Leaves (Task.WritesImgWithin lo hi) := by
  by_cases hs : t.sparesImg = true
  · exact (Task.whole_leaves_sparesImg hs s).imp fun u hu => Task.writesImgWithin_of_sparesImg hu lo hi
  · cases t with
    | sampleStrap => simp [Task.whole, Progress.Leaves]
    | startResponder => simp [Task.whole, Progress.Leaves]
    | bytes cells => simp [Task.whole, Progress.Leaves]
    | copy segs => exact Res.thenTasks_none_leaves _ _
    | loadActive n =>
      obtain ⟨rfl, hn⟩ := ht
      simpa [Task.whole, Progress.Leaves, loadSlotTasks, Task.WritesImgWithin] using hn
    | status =>
      obtain ⟨rfl, hhi⟩ := ht
      refine List.forall_mem_singleton.mpr fun c hc => ⟨Nat.zero_le _, ?_⟩
      have := fst_lt_of_mem_statusCells hc
      omega
    | _ => exact absurd rfl hs

/-! ### Instructions -/

theorem fst_of_mem_sentinelBusy : ∀ c ∈ sentinelBusy, c.1 = 256 ∨ c.1 = 257 := by decide

theorem fst_of_mem_sentinelIdle : ∀ c ∈ sentinelIdle, c.1 = 256 ∨ c.1 = 257 := by decide

/-- R180: how a command ends changes no byte. -/
theorem Res.commandEnd_img (x : Res) : x.commandEnd.img = x.state.img := by cases x <;> rfl

/-- A command whose tasks write within a range changes no image byte outside it, also where it faults. -/
theorem read_settle_startCommand_img {lo hi : Nat} {op : Op} {arg : Arg} {todo : List Task}
    (h : ∀ t ∈ todo, t.WritesImgWithin lo hi) (s : State) {x : Nat} (hx : x < lo ∨ hi ≤ x) :
    Memory.read (settle (startCommand op arg todo s)).img x = Memory.read s.img x := by
  have hrun : ImgOutside lo hi s (runTasks todo s).state :=
    runTasks_keeps (P := ImgOutside lo hi s) (ok := Task.WritesImgWithin lo hi)
      (fun _ u ht hu => hu.trans (Task.whole_imgOutside ht u))
      (fun _ u ht _ => Task.whole_leaves_writesImgWithin ht u) h (.of_eq rfl)
  rw [settle_startCommand, Res.commandEnd_img, hrun x hx]

/-- R200: the sentinel's own writes lie in bytes 256 and 257. -/
theorem bracket_writesImgWithin {lo hi : Nat} (hlo : lo ≤ 256) (hhi : 258 ≤ hi) {body : List Task}
    (h : ∀ t ∈ body, t.WritesImgWithin lo hi) : ∀ t ∈ bracket body, t.WritesImgWithin lo hi := by
  refine List.forall_mem_cons.mpr ⟨fun c hc => ?_, List.forall_mem_append.mpr
    ⟨h, List.forall_mem_singleton.mpr fun c hc => ?_⟩⟩
  · have := fst_of_mem_sentinelBusy c hc
    omega
  · have := fst_of_mem_sentinelIdle c hc
    omega

/-- A command that writes image bytes 256 and 257 only leaves every other byte alone. -/
theorem read_settle_bracket_img {op : Op} {arg : Arg} {t : Task} (ht : t.sparesImg = true) (s : State) {b : Nat}
    (h256 : b ≠ 256) (h257 : b ≠ 257) :
    Memory.read (settle (startCommand op arg (bracket [t]) s)).img b = Memory.read s.img b :=
  read_settle_startCommand_img (lo := 256) (hi := 258) (bracket_writesImgWithin le_rfl le_rfl
    (List.forall_mem_singleton.mpr (Task.writesImgWithin_of_sparesImg ht _ _))) s (by omega)

/-- Settles O37: each command by the range that its tasks write, a payload word by its bytes. -/
theorem imageFrame : Obligations.ImageFrame := by
  unfold Obligations.ImageFrame
  intro s t
  refine ⟨fun arg h b hb => ?_, fun arg h b hb => ?_, fun page h b hb => ?_, fun page h b h256 h257 => ?_,
    fun sector h b h256 h257 => ?_, fun slot h b hb => ?_, fun arg h => ?_, fun i due ign d hd h b hdue h0 h1 => ?_⟩
  · cases h
    refine read_settle_startCommand_img (lo := 0) (hi := 10) (List.forall_mem_singleton.mpr ?_) s (.inr hb)
    exact ⟨rfl, le_rfl⟩
  · cases h
    refine read_settle_startCommand_img (lo := 0) (hi := 258) (List.forall_mem_singleton.mpr ?_) s (.inr hb)
    exact ⟨rfl, le_rfl⟩
  · cases h
    refine read_settle_startCommand_img (lo := 0) (bracket_writesImgWithin (Nat.zero_le _) le_rfl ?_) s (.inr hb)
    simp [Task.WritesImgWithin, pageSize]
  · cases h
    exact read_settle_bracket_img rfl s h256 h257
  · cases h
    exact read_settle_bracket_img rfl s h256 h257
  · cases h
    refine read_settle_startCommand_img (lo := 0) ?_ s (.inr hb)
    split
    · simp [loadSlotTasks, Task.WritesImgWithin]
    · simp
  · cases h
    rfl
  · rw [exec_payload hd] at h
    cases h
    have hword : ∀ c ∈ payloadCells i d, c.1 ≠ b := by
      rw [payloadCells_eq]
      simpa using ⟨h0.symm, h1.symm⟩
    exact (Memory.read_writeCells_of_not_mem _ _ b hword).trans (Memory.read_writeCells_of_not_mem _ _ b hdue)

end Sys2Proof.Machine
end

section
/-! The sentinel in every order of its byte writes: the phases of a bracketed command, what a poll reads in each, and that
every step keeps them (spec/44_commands_flash.md R200, R201, R205; spec/20_memory.md R69). -/

namespace Sys2Proof.Machine

/-! ### Polls -/

/-- R201: the host's view of the sentinel is its two bytes. -/
theorem busWord_sentinelAddr (img : Memory) : busWord img sentinelAddr = Memory.read img 256 ++ Memory.read img 257 :=
  busWord_eq img sentinelAddr

/-- R201: one busy byte is enough for a poll to read nonzero. -/
theorem busWord_sentinelAddr_ne_zero {img : Memory} {a : Nat} (ha : a = 256 ∨ a = 257)
    (h : Memory.read img a = 0xFF#8) : busWord img sentinelAddr ≠ 0 := by
  intro hzero
  rw [busWord_sentinelAddr] at hzero
  have hhigh := congrArg (BitVec.extractLsb' 8 8) hzero
  have hlow := congrArg (BitVec.extractLsb' 0 8) hzero
  rw [BitVec.extractLsb'_append_eq_left] at hhigh
  rw [BitVec.extractLsb'_append_eq_right] at hlow
  rcases ha with rfl | rfl
  · exact absurd (h.symm.trans hhigh) (by decide)
  · exact absurd (h.symm.trans hlow) (by decide)

/-- With fewer than two byte writes due, one of the busy bytes has landed. -/
theorem exists_busy_not_mem {cells : List Host.Cell} (h : cells.length < 2) : ∃ c ∈ sentinelBusy, c ∉ cells := by
  by_contra hall
  push Not at hall
  have hsub : sentinelBusy.Subperm cells := List.subperm_of_subset (by decide) hall
  exact absurd hsub.length_le (Nat.not_le.mpr h)

/-- Settles O58: a busy byte makes the poll nonzero, the two bytes make it the word. -/
theorem sentinelPolls : Obligations.SentinelPolls := by
  unfold Obligations.SentinelPolls
  intro todo img
  refine ⟨?_, ?_, ?_, ?_⟩
  · rintro cells rest rfl hlen ⟨cells', body, htodo, _, _, _, hlanded⟩
    obtain ⟨hcells, _⟩ := List.cons.inj htodo
    cases hcells
    obtain ⟨c, hc, hnot⟩ := exists_busy_not_mem hlen
    exact busWord_sentinelAddr_ne_zero (fst_of_mem_sentinelBusy c hc) (hlanded c hc hnot)
  · rintro ⟨body, _, _, h256, h257⟩
    rw [busWord_sentinelAddr, h256, h257]
    decide
  · rintro ⟨cells, rfl, hmem, _, hread⟩ hne
    obtain ⟨c, hc⟩ := List.exists_mem_of_ne_nil cells fun e => hne (by rw [e])
    refine busWord_sentinelAddr_ne_zero (fst_of_mem_sentinelIdle c (hmem c hc)) ?_
    rw [hread c (hmem c hc), if_pos hc]
  · rintro ⟨_, h256, h257⟩
    rw [busWord_sentinelAddr, h256, h257]
    decide

/-! ### Byte writes that are due -/

/-- R53: of the bytes `all`, those in `cells` are still to be written, and the others read as written. -/
structure BytesDue (all cells : List Host.Cell) (img : Memory) : Prop where
  mem : ∀ c ∈ cells, c ∈ all
  nodup : (cells.map Prod.fst).Nodup
  landed : ∀ c ∈ all, c ∉ cells → Memory.read img c.1 = c.2

/-- A due byte that lands is due no more, and the bytes still due read as before. -/
theorem BytesDue.write {all cells rest : List Host.Cell} {cell : Host.Cell} {img : Memory} (h : BytesDue all cells img)
    (hall : (all.map Prod.fst).Nodup) (hp : (cell :: rest).Perm cells) :
    BytesDue all rest (Memory.write img cell.1 cell.2) ∧
      ∀ c ∈ rest, Memory.read (Memory.write img cell.1 cell.2) c.1 = Memory.read img c.1 := by
  have hnodup := (hp.map Prod.fst).nodup_iff.mpr h.nodup
  obtain ⟨hfresh, hrest⟩ := List.nodup_cons.mp hnodup
  have hmem : ∀ c, c ∈ cells ↔ c = cell ∨ c ∈ rest := fun c => by rw [← hp.mem_iff, List.mem_cons]
  have hcell : cell ∈ all := h.mem cell ((hmem cell).mpr (.inl rfl))
  refine ⟨⟨fun c hc => h.mem c ((hmem c).mpr (.inr hc)), hrest, fun c hc hnot => ?_⟩, fun c hc => ?_⟩
  · rw [Memory.read_write]
    by_cases hfst : c.1 = cell.1
    · rw [if_pos hfst, List.inj_on_of_nodup_map hall hc hcell hfst]
    · rw [if_neg hfst]
      exact h.landed c hc fun hdue => ((hmem c).mp hdue).elim (fun e => hfst (congrArg Prod.fst e)) hnot
  · rw [Memory.read_write, if_neg fun e => hfresh (List.mem_map.mpr ⟨c, hc, e⟩)]

/-- A step of byte writes lands one of the bytes that are due, or none is due. -/
theorem BytesDue.bytesStep {all cells : List Host.Cell} {s : State} (h : BytesDue all cells s.img)
    (hall : (all.map Prod.fst).Nodup) (c : Choice) : ∃ rest u, bytesStep c cells s = .cont (bytesLeft rest) u ∧
      BytesDue all rest u.img ∧ ∀ cell ∈ rest, cell ∈ cells ∧ Memory.read u.img cell.1 = Memory.read s.img cell.1 := by
  rcases bytesStep_cases c cells s with ⟨rfl, e⟩ | ⟨i, cell, hcell, e⟩
  · exact ⟨[], s, e, h, fun _ hc => absurd hc List.not_mem_nil⟩
  · obtain ⟨hlt, rfl⟩ := List.getElem?_eq_some_iff.mp hcell
    obtain ⟨hdue, hkeep⟩ := h.write hall (List.getElem_cons_eraseIdx_perm hlt)
    exact ⟨_, _, e, hdue, fun c hc => ⟨List.mem_of_mem_eraseIdx hc, hkeep c hc⟩⟩

/-! ### The phases -/

/-- R200: with these tasks to do and this image, a bracketed command is in one of its phases. -/
def SentinelPhase (todo : List Task) (img : Memory) : Prop :=
  phase0 todo img ∨ phase1 todo img ∨ phase2 todo img ∨ phase3 todo img

theorem snd_of_mem_sentinelBusy : ∀ c ∈ sentinelBusy, c.2 = 0xFF#8 := by decide

theorem snd_of_mem_sentinelIdle : ∀ c ∈ sentinelIdle, c.2 = 0x00#8 := by decide

/-- Phase 0 with what is left of its byte writes, or phase 1 with none left. -/
theorem SentinelPhase.of_busy {cells : List Host.Cell} {body : List Task} {img : Memory}
    (h : BytesDue sentinelBusy cells img) (hbody : ∀ t ∈ body, inPageBuffer t = true) :
    SentinelPhase (bytesLeft cells ++ (body ++ [.bytes sentinelIdle])) img := by
  have hlanded : ∀ c ∈ sentinelBusy, c ∉ cells → Memory.read img c.1 = 0xFF#8 := fun c hc hnot => by
    rw [h.landed c hc hnot, snd_of_mem_sentinelBusy c hc]
  unfold bytesLeft
  split
  next hnil =>
    subst hnil
    exact .inr (.inl ⟨body, rfl, hbody, hlanded (256, 0xFF#8) (by decide) List.not_mem_nil,
      hlanded (257, 0xFF#8) (by decide) List.not_mem_nil⟩)
  next => exact .inl ⟨cells, body, rfl, h.mem, h.nodup, hbody, hlanded⟩

/-- Phase 2 with what is left of its byte writes, or the end with none left. -/
theorem SentinelPhase.of_idle {cells : List Host.Cell} {img : Memory} (h : BytesDue sentinelIdle cells img)
    (hbusy : ∀ c ∈ cells, Memory.read img c.1 = 0xFF#8) : SentinelPhase (bytesLeft cells) img := by
  have hlanded : ∀ c ∈ sentinelIdle, c ∉ cells → Memory.read img c.1 = 0x00#8 := fun c hc hnot => by
    rw [h.landed c hc hnot, snd_of_mem_sentinelIdle c hc]
  unfold bytesLeft
  split
  next hnil =>
    subst hnil
    exact .inr (.inr (.inr ⟨rfl, hlanded (256, 0x00#8) (by decide) List.not_mem_nil,
      hlanded (257, 0x00#8) (by decide) List.not_mem_nil⟩))
  next =>
    refine .inr (.inr (.inl ⟨cells, rfl, h.mem, h.nodup, fun c hc => ?_⟩))
    split
    next hdue => exact hbusy c hdue
    next hnot => exact hlanded c hc hnot

/-- R200: a command begins in phase 0 with both bytes due. -/
theorem sentinelPhase_bracket {body : List Task} (hbody : ∀ t ∈ body, inPageBuffer t = true) (img : Memory) :
    SentinelPhase (bracket body) img :=
  .of_busy (cells := sentinelBusy) ⟨fun _ hc => hc, by decide, fun _ hc hnot => absurd hc hnot⟩ hbody

/-! ### A step within a phase -/

/-- R202 to R204: a step of a task of phase 1 writes image bytes 0 to 255 at most, and leaves only such tasks. -/
theorem Task.step_of_inPageBuffer (c : Choice) {t : Task} (ht : inPageBuffer t = true) (s : State) :
    ImgOutside 0 pageSize s (t.step c s).state ∧ (t.step c s).Leaves fun u => inPageBuffer u = true := by
  cases t with
  | copy segs =>
    have hsegs : ∀ g ∈ segs, g.dst + g.len ≤ pageSize := by simpa [inPageBuffer] using ht
    rw [Task.step]
    rcases copyStep_cases c segs s with ⟨_, e⟩ | ⟨pre, g, post, off, n, rfl, hn, e⟩ <;> rw [e]
    · exact ⟨.of_eq rfl, fun t ht => absurd ht List.not_mem_nil⟩
    · have hg := hsegs g (by simp)
      have hrest : inPageBuffer (.copy (withoutPart pre post g off n)) = true := by
        simp only [inPageBuffer, List.all_eq_true, decide_eq_true_eq]
        intro k hk
        rcases mem_withoutPart.mp hk with hk | ⟨_, rfl⟩ | ⟨_, rfl⟩ | hk
        · exact hsegs k (by simp [hk])
        · simp only [Segment.part]; omega
        · simp only [Segment.part]; omega
        · exact hsegs k (by simp [hk])
      rw [Progress.state_thenTasks]
      refine ⟨.of_copySegment_part ⟨Nat.zero_le _, hg⟩ hn s, Res.thenTasks_leaves _ _ fun u _ t ht => ?_⟩
      unfold copyLeft at ht
      split at ht
      · cases ht
      · rwa [List.mem_singleton.mp ht]
  | check a n => exact ⟨.of_eq (Task.whole_img (t := .check a n) rfl s), Res.thenTasks_none_leaves _ _⟩
  | programPage a => exact ⟨.of_eq (Task.whole_img (t := .programPage a) rfl s), Res.thenTasks_none_leaves _ _⟩
  | erase a => exact ⟨.of_eq (Task.whole_img (t := .erase a) rfl s), Res.thenTasks_none_leaves _ _⟩
  | _ => cases ht

section
variable {t : Task} {ts more : List Task} {s u : State} {c : Choice} (hstep : t.step c s = .cont more u)
include hstep

theorem phase0.step (h : phase0 (t :: ts) s.img) : SentinelPhase (more ++ ts) u.img := by
  obtain ⟨cells, body, htodo, hmem, hnodup, hbody, hbusy⟩ := h
  obtain ⟨rfl, rfl⟩ := List.cons.inj htodo
  have hdue : BytesDue sentinelBusy cells s.img :=
    ⟨hmem, hnodup, fun c hc hnot => (hbusy c hc hnot).trans (snd_of_mem_sentinelBusy c hc).symm⟩
  obtain ⟨rest, v, e, hrest, _⟩ := hdue.bytesStep (by decide) c
  obtain ⟨rfl, rfl⟩ := Progress.cont.inj (hstep.symm.trans e)
  exact .of_busy hrest hbody

theorem phase2.step (h : phase2 (t :: ts) s.img) : SentinelPhase (more ++ ts) u.img := by
  obtain ⟨cells, htodo, hmem, hnodup, hread⟩ := h
  obtain ⟨rfl, rfl⟩ := List.cons.inj htodo
  have hdue : BytesDue sentinelIdle cells s.img :=
    ⟨hmem, hnodup, fun c hc hnot => by rw [hread c hc, if_neg hnot, snd_of_mem_sentinelIdle c hc]⟩
  obtain ⟨rest, v, e, hrest, hkeep⟩ := hdue.bytesStep (by decide) c
  obtain ⟨rfl, rfl⟩ := Progress.cont.inj (hstep.symm.trans e)
  rw [List.append_nil]
  refine .of_idle hrest fun c hc => ?_
  obtain ⟨hcells, hsame⟩ := hkeep c hc
  rw [hsame, hread c (hmem c hcells), if_pos hcells]

/-- R69: the body's steps leave the sentinel alone; the body done, phase 2 begins with both bytes busy. -/
theorem phase1.step (h : phase1 (t :: ts) s.img) : SentinelPhase (more ++ ts) u.img := by
  obtain ⟨body, htodo, hbody, h256, h257⟩ := h
  cases body with
  | nil =>
    refine phase2.step hstep ⟨sentinelIdle, htodo, fun _ hc => hc, by decide, fun c hc => ?_⟩
    rw [if_pos hc]
    rcases fst_of_mem_sentinelIdle c hc with e | e <;> rw [e] <;> assumption
  | cons b body =>
    obtain ⟨rfl, rfl⟩ := List.cons.inj htodo
    obtain ⟨ht, hbody⟩ := List.forall_mem_cons.mp hbody
    obtain ⟨himg, hleaves⟩ := Task.step_of_inPageBuffer c ht s
    rw [hstep] at himg hleaves
    refine .inr (.inl ⟨more ++ body, (List.append_assoc _ _ _).symm,
      List.forall_mem_append.mpr ⟨hleaves, hbody⟩, ?_, ?_⟩)
    · rw [← h256]; exact himg 256 (.inr le_rfl)
    · rw [← h257]; exact himg 257 (.inr (Nat.le_succ 256))

theorem SentinelPhase.step (h : SentinelPhase (t :: ts) s.img) : SentinelPhase (more ++ ts) u.img := by
  rcases h with h | h | h | ⟨h, _⟩
  · exact h.step hstep
  · exact h.step hstep
  · exact h.step hstep
  · cases h

end

/-! ### The invariant -/

theorem sentinelInv_iff (s : State) : SentinelInv s ↔ ∀ op arg todo, s.dctl = .exec op arg todo → op.bracketed = true →
    SentinelPhase todo s.img := by
  unfold SentinelInv
  split
  next op arg todo hd =>
    simp only [hd, Dctl.exec.injEq]
    exact ⟨by rintro h _ _ _ ⟨rfl, rfl, rfl⟩; exact h, fun h => h op arg todo ⟨rfl, rfl, rfl⟩⟩
  next hd => exact ⟨fun _ op arg todo h => absurd h (hd op arg todo), fun _ => trivial⟩

theorem SentinelInv.of_exec {s : State} {op : Op} {arg : Arg} {todo : List Task} (hd : s.dctl = .exec op arg todo)
    (h : op.bracketed = true → SentinelPhase todo s.img) : SentinelInv s := by
  unfold SentinelInv
  rw [hd]
  exact h

theorem SentinelInv.of_not_exec {s : State} (h : ∀ op arg todo, s.dctl ≠ .exec op arg todo) : SentinelInv s :=
  (sentinelInv_iff s).mpr fun op arg todo hd => absurd hd (h op arg todo)

theorem SentinelInv.of_eq {s t : State} (h : SentinelInv s) (himg : t.img = s.img) (hdctl : t.dctl = s.dctl) :
    SentinelInv t := by
  rw [sentinelInv_iff] at h ⊢
  rwa [himg, hdctl]

theorem BusFrame.sentinelInv {s t : State} (k : BusFrame s t) (h : SentinelInv s) : SentinelInv t := h.of_eq k.img k.dctl

/-! ### DISP's moves -/

/-- An operation run to its end leaves DISP in no command. -/
theorem Res.finish_sentinelInv (x : Res) : SentinelInv x.finish := by
  cases x <;> exact .of_not_exec fun _ _ _ hd => nomatch hd

theorem settle_sentinelInv (s : State) : SentinelInv (settle s) := by
  unfold settle
  split
  next => exact Res.finish_sentinelInv _
  next => exact Res.finish_sentinelInv _
  next => exact .of_not_exec fun _ _ _ hd => nomatch hd
  next h => exact .of_not_exec fun _ _ _ hd => nomatch h.symm.trans hd
  next h => exact .of_not_exec fun _ _ _ hd => nomatch h.symm.trans hd

/-- R166, R200: dispatch of a bracketed command begins its phase 0. -/
theorem dispatch_sentinelInv (v : Addr) (s : State) : SentinelInv (dispatch v s) := by
  rcases dispatch_cases v s with e | e | ⟨op, todo, e, hop⟩ <;> rw [e]
  · exact .of_not_exec fun _ _ _ hd => nomatch hd
  · exact .of_not_exec fun _ _ _ hd => nomatch hd
  · refine .of_exec rfl fun hb => ?_
    rcases hop with ⟨rfl, _⟩ | ⟨rfl, _⟩ | ⟨rfl, _⟩ | ⟨_, rfl⟩ | ⟨_, rfl⟩ | ⟨_, rfl⟩
    · cases hb
    · cases hb
    · cases hb
    · exact sentinelPhase_bracket (by simp [inPageBuffer]) s.img
    · exact sentinelPhase_bracket (by simp [inPageBuffer]) s.img
    · exact sentinelPhase_bracket (by simp [inPageBuffer]) s.img

theorem takePayload_sentinelInv (data : Half) (i : Nat) (due : List Host.Cell) (s : State) :
    SentinelInv (takePayload data i due s) := by
  unfold takePayload
  dsimp only
  split
  · exact .of_not_exec fun _ _ _ hd => nomatch hd
  · exact .of_exec rfl fun hb => nomatch hb

theorem startInstr_sentinelInv {s : State} {c : Context} (hc : s.context = some c) (v : Addr) (q : List FifoWord)
    (h : SentinelInv s) : SentinelInv (startInstr (decode c v) { s with q := q }) := by
  rcases startInstr_cases hc v q with ⟨_, _, e⟩ | ⟨_, _, e⟩ | ⟨i, due, _, e⟩ <;> rw [e]
  · exact h.of_eq rfl rfl
  · exact dispatch_sentinelInv v _
  · exact takePayload_sentinelInv _ i due _

theorem dispStep_sentinelInv (c : Choice) {s : State} (h : SentinelInv s) : SentinelInv (dispStep c s) := by
  rcases dispStep_cases c s with ⟨back, t, ts, hback, hd, e⟩ | ⟨_, _, _, e⟩ | ⟨_, _, _, _, _, _, e⟩ |
    ⟨_, v, rest, hc, _, e⟩ | e <;> rw [e]
  · cases hstep : t.step c s with
    | stop u r => exact Res.finish_sentinelInv (.stop u r)
    | cont more u =>
      rcases hback with rfl | ⟨op, arg, rfl⟩
      · exact .of_not_exec fun _ _ _ hd => nomatch hd
      · exact .of_exec rfl fun hb => SentinelPhase.step (u := u) hstep ((sentinelInv_iff s).mp h op arg _ hd hb)
  · exact Res.finish_sentinelInv (.done s)
  · exact .of_not_exec fun _ _ _ hd => nomatch hd
  · exact startInstr_sentinelInv hc _ rest h
  · exact h

/-- Settles O57: HOST's and RESP's moves leave IMG and DISP alone, a single step of DISP takes a phase to itself or the next
one, a run of DISP ends the command, and a power cycle leaves DISP in BOOT. -/
theorem sentinelInvKept : Obligations.SentinelInvKept := by
  unfold Obligations.SentinelInvKept
  intro s t hs h
  have hu : SentinelInv (nextEvent s).2 := by
    obtain ⟨draws, script, e⟩ := nextEvent_snd s
    rw [e]
    exact hs.of_eq rfl rfl
  rcases step_cases h with ⟨a, _, rfl⟩ | ⟨levels, _, rfl⟩ | ⟨_, rfl⟩ | ⟨_, rfl⟩ | ⟨c, _, rfl⟩ | ⟨_, rfl⟩ |
    ⟨_, _, _, _, _, _, rfl⟩ | ⟨n, _, rfl⟩ | ⟨torn, _, rfl⟩
  · exact (hostRead_frame a _).sentinelInv hu
  · exact (hostDrive_frame levels _).sentinelInv hu
  · exact (respStep_frame _).sentinelInv hu
  · exact (hostLatch_frame _).sentinelInv hu
  · exact dispStep_sentinelInv c hu
  · exact settle_sentinelInv _
  · exact settle_sentinelInv _
  · exact hu.of_eq rfl rfl
  · exact .of_not_exec fun _ _ _ hd => nomatch hd

end Sys2Proof.Machine
end

section
/-! The commands bracketed by the sentinel, run whole (spec/44_commands_flash.md R200 to R205). -/

namespace Sys2Proof.Machine

/-! ### The bracket -/

/-- R200: phase 0 done, the sentinel is SENTINEL_BUSY. -/
def State.markBusy (s : State) : State := { s with img := Memory.writeCells s.img sentinelBusy }

theorem read_writeCells_sentinel (m : Memory) (v : Byte) (b : Nat) :
    Memory.read (Memory.writeCells m [(256, v), (257, v)]) b = if b = 256 ∨ b = 257 then v else Memory.read m b := by
  simp only [Memory.writeCells, Memory.read_write]
  by_cases h : b = 257
  · rw [if_pos h, if_pos (.inr h)]
  · rw [if_neg h]
    simp only [h, or_false]

theorem read_writeCells_sentinelBusy (m : Memory) (b : Nat) :
    Memory.read (Memory.writeCells m sentinelBusy) b = if b = 256 ∨ b = 257 then 0xFF#8 else Memory.read m b :=
  read_writeCells_sentinel m 0xFF#8 b

theorem read_writeCells_sentinelIdle (m : Memory) (b : Nat) :
    Memory.read (Memory.writeCells m sentinelIdle) b = if b = 256 ∨ b = 257 then 0x00#8 else Memory.read m b :=
  read_writeCells_sentinel m 0x00#8 b

/-- R200: of the image, phase 0 changes the sentinel only. -/
theorem read_markBusy_of_ne (s : State) {b : Nat} (hb : ¬(b = 256 ∨ b = 257)) :
    Memory.read s.markBusy.img b = Memory.read s.img b := by
  rw [State.markBusy, read_writeCells_sentinelBusy, if_neg hb]

/-- R200: the two sentinel writes of a bracket leave the other bytes, and the sentinel idle. -/
theorem read_writeCells_idle_markBusy (s : State) (b : Nat) :
    Memory.read (Memory.writeCells s.markBusy.img sentinelIdle) b =
      if b = 256 ∨ b = 257 then 0x00#8 else Memory.read s.img b := by
  rw [read_writeCells_sentinelIdle]
  split
  next => rfl
  next hb => exact read_markBusy_of_ne s hb

theorem runTasks_bracket (body : List Task) (s : State) : runTasks (bracket body) s =
    (runTasks body s.markBusy).bind (runTasks [.bytes sentinelIdle]) := by
  rw [bracket, runTasks_cons, Task.run_bytes, Res.bind_done, runTasks_append]
  rfl

section
variable {op : Op} {arg : Arg} {body : List Task} {s u : State}

/-- R200: the body done, phase 2 leaves the sentinel idle and DISP receives again. -/
theorem settle_bracket_of_done (h : runTasks body s.markBusy = .done u) :
    settle (startCommand op arg (bracket body) s) =
      { u with img := Memory.writeCells u.img sentinelIdle, matcher := .s0, dctl := .recv } := by
  rw [settle_startCommand, runTasks_bracket, h]
  rfl

/-- R205: the body stopped, phase 2 never runs. -/
theorem settle_bracket_of_stop {r : FaultReason} (h : runTasks body s.markBusy = .stop u r) :
    settle (startCommand op arg (bracket body) s) = { u with matcher := .s0, dctl := .faulted r } := by
  rw [settle_startCommand, runTasks_bracket, h]
  rfl

end

/-! ### The bodies -/

theorem runTasks_checkedCopy (a n : Nat) (s : State) :
    runTasks [.check a n, .copy [{ dst := 0, src := a, len := n }]] s =
      (checkRange a n s).bind (copySegment { dst := 0, src := a, len := n }) := by
  rw [runTasks_cons, Task.run_check]
  congr 1
  funext u
  rw [runTasks_cons, Task.run_copy, copySegments_cons, Res.bind_of_done runTasks_nil, Res.bind_of_done copySegments_nil]

theorem runTasks_programPage (a : Nat) (s : State) :
    runTasks [.programPage a] s = flashProgram a (Memory.readList s.img 0 pageSize) s := by
  rw [runTasks_cons, Task.run_programPage, Res.bind_of_done runTasks_nil]

theorem runTasks_erase (a : Nat) (s : State) : runTasks [.erase a] s = flashErase a s := by
  rw [runTasks_cons, Task.run_erase, Res.bind_of_done runTasks_nil]

section
variable {a n : Nat} {s : State}

theorem runTasks_checkedCopy_of_ok (hr : flashRangeOk s.params a n = true) (hf : s.failAt = none) :
    runTasks [.check a n, .copy [{ dst := 0, src := a, len := n }]] s =
      .done { s with img := Memory.copy s.img 0 s.flash a n } := by
  rw [runTasks_checkedCopy, checkRange_of_ok hr, Res.bind_done, copySegment_of_none hf]

theorem runTasks_checkedCopy_of_not_ok (hr : flashRangeOk s.params a n = false) :
    runTasks [.check a n, .copy [{ dst := 0, src := a, len := n }]] s = .stop s (.flashRange a) := by
  rw [runTasks_checkedCopy, checkRange_of_not_ok hr, Res.bind_stop]

theorem runTasks_checkedCopy_of_failing {k : Nat} (hr : flashRangeOk s.params a n = true)
    (hf : s.failAt = some k) (hk : k < n) : runTasks [.check a n, .copy [{ dst := 0, src := a, len := n }]] s =
      .stop { s with img := Memory.copy s.img 0 s.flash a k, failAt := some 0 } (.flashFail .read (a + k)) := by
  rw [runTasks_checkedCopy, checkRange_of_ok hr, Res.bind_done, copySegment_of_failing hf hk]

theorem runTasks_programPage_of_ok (hr : flashRangeOk s.params a pageSize = true) (hf : s.failAt = none) :
    runTasks [.programPage a] s =
      .done { s with flash := Memory.program s.flash a (Memory.readList s.img 0 pageSize) } := by
  rw [runTasks_programPage, flashProgram_of_ok (by rwa [Memory.length_readList]) hf]

theorem runTasks_programPage_of_not_ok (hr : flashRangeOk s.params a pageSize = false) :
    runTasks [.programPage a] s = .stop s (.flashRange a) := by
  rw [runTasks_programPage, flashProgram, Memory.length_readList, checkRange_of_not_ok hr, Res.bind_stop]

theorem runTasks_programPage_of_failing (hr : flashRangeOk s.params a pageSize = true) (hf : s.failAt = some 0) :
    runTasks [.programPage a] s = .stop s (.flashFail .program a) := by
  rw [runTasks_programPage, flashProgram, Memory.length_readList, checkRange_of_ok hr, Res.bind_done,
    flashAttempt_of_zero _ _ hf, Res.bind_stop]

theorem runTasks_erase_of_ok (hr : flashRangeOk s.params a sectorSize = true) (hf : s.failAt = none) :
    runTasks [.erase a] s = .done { s with flash := Memory.erase s.flash a sectorSize } := by
  rw [runTasks_erase, flashErase_of_ok hr hf]

theorem runTasks_erase_of_not_ok (hr : flashRangeOk s.params a sectorSize = false) :
    runTasks [.erase a] s = .stop s (.flashRange a) := by
  rw [runTasks_erase, flashErase, checkRange_of_not_ok hr, Res.bind_stop]

theorem runTasks_erase_of_failing (hr : flashRangeOk s.params a sectorSize = true) (hf : s.failAt = some 0) :
    runTasks [.erase a] s = .stop s (.flashFail .erase a) := by
  rw [runTasks_erase, flashErase, checkRange_of_ok hr, Res.bind_done, flashAttempt_of_zero _ _ hf, Res.bind_stop]

end

/-! ### The commands -/

/-- R65, R202: a checked copy of the page at its flash address, bracketed. -/
theorem exec_copyPageFlashToSram (page : Arg) (s : State) : exec (.copyPageFlashToSram page) s =
    .next (settle (startCommand .copyPageFlashToSram page (bracket [.check (s.params.pageOrigin + 256 * page.toNat) 256,
      .copy [{ dst := 0, src := s.params.pageOrigin + 256 * page.toNat, len := 256 }]]) s)) := rfl

/-- R65, R203: the page at its flash address programmed, bracketed. -/
theorem exec_copyPageSramToFlash (page : Arg) (s : State) : exec (.copyPageSramToFlash page) s =
    .next (settle (startCommand .copyPageSramToFlash page
      (bracket [.programPage (s.params.pageOrigin + 256 * page.toNat)]) s)) := rfl

/-- R65, R204: the sector at its flash address erased, bracketed. -/
theorem exec_eraseFlashSector (sector : Arg) (s : State) : exec (.eraseFlashSector sector) s =
    .next (settle (startCommand .eraseFlashSector sector
      (bracket [.erase (s.params.pageOrigin + 4096 * sector.toNat)]) s)) := rfl

/-- Settles O31: the copied page lies below the sentinel, and the rest is as after the two sentinel writes. -/
theorem copyPageFlashToSramCopies : Obligations.CopyPageFlashToSramCopies := by
  unfold Obligations.CopyPageFlashToSramCopies
  intro s page a hf hr
  have hexec := exec_copyPageFlashToSram page s
  rw [settle_bracket_of_done (runTasks_checkedCopy_of_ok hr hf)] at hexec
  refine ⟨_, hexec, fun b => ?_⟩
  dsimp only
  rw [read_writeCells_sentinelIdle, Memory.read_copy_zero]
  by_cases hpage : b < 256
  · rw [if_neg (by omega), if_pos hpage, if_pos hpage]
    rfl
  · rw [if_neg hpage, if_neg hpage]
    by_cases hsentinel : b < 258
    · rw [if_pos (by omega), if_pos hsentinel]
      rfl
    · rw [if_neg (by omega), if_neg hsentinel, read_markBusy_of_ne s (by omega)]

/-- Settles O32: the programmed bytes lie below the sentinel, so that phase 0 has not changed them. -/
theorem copyPageSramToFlashPrograms : Obligations.CopyPageSramToFlashPrograms := by
  unfold Obligations.CopyPageSramToFlashPrograms
  intro s page a hf hr
  have hexec := exec_copyPageSramToFlash page s
  rw [settle_bracket_of_done (runTasks_programPage_of_ok hr hf)] at hexec
  refine ⟨_, _, hexec, read_writeCells_idle_markBusy s, fun x => ?_⟩
  rw [Memory.read_program, Memory.length_readList]
  split
  next hx =>
    simp only [pageSize] at hx
    rw [if_pos hx, Memory.getD_readList _ _ _ _ (by simp only [pageSize]; omega), Nat.zero_add,
      read_markBusy_of_ne s (by omega)]
    rfl
  next hx => exact (if_neg hx).symm

/-- Settles O33: the sector reads as erased, the image as after the two sentinel writes. -/
theorem eraseFlashSectorErases : Obligations.EraseFlashSectorErases := by
  unfold Obligations.EraseFlashSectorErases
  intro s sector a hf hr
  have hexec := exec_eraseFlashSector sector s
  rw [settle_bracket_of_done (runTasks_erase_of_ok hr hf)] at hexec
  exact ⟨_, _, hexec, read_writeCells_idle_markBusy s, Memory.read_erase s.flash a 4096⟩

/-- Settles O34: the range check comes after phase 0 and before anything else. -/
theorem bracketedRangeFaultStaysBusy : Obligations.BracketedRangeFaultStaysBusy := by
  unfold Obligations.BracketedRangeFaultStaysBusy
  intro s arg page sector busy
  refine ⟨fun hpage => ⟨?_, ?_⟩, fun hsector => ?_⟩
  · rw [exec_copyPageFlashToSram, settle_bracket_of_stop (runTasks_checkedCopy_of_not_ok hpage)]
    rfl
  · rw [exec_copyPageSramToFlash, settle_bracket_of_stop (runTasks_programPage_of_not_ok hpage)]
    rfl
  · rw [exec_eraseFlashSector, settle_bracket_of_stop (runTasks_erase_of_not_ok hsector)]
    rfl

/-- Settles O35: a program or erase that fails changes nothing after phase 0, read `n` of a copy follows `n` bytes copied. -/
theorem flashFailureStaysBusy : Obligations.FlashFailureStaysBusy := by
  unfold Obligations.FlashFailureStaysBusy
  intro s arg page sector busy
  refine ⟨fun hr hf => ?_, fun hr hf => ?_, fun n hn hr hf => ?_⟩
  · rw [exec_copyPageSramToFlash, settle_bracket_of_stop (runTasks_programPage_of_failing hr hf)]
    rfl
  · rw [exec_eraseFlashSector, settle_bracket_of_stop (runTasks_erase_of_failing hr hf)]
    rfl
  · have hexec := exec_copyPageFlashToSram arg s
    rw [settle_bracket_of_stop (runTasks_checkedCopy_of_failing hr hf hn)] at hexec
    exact ⟨_, hexec, Memory.read_copy_zero _ _ _ _⟩

end Sys2Proof.Machine
end

section
/-! The config store from update to update: the next tuple, the flash and the tuples that an update leaves alone
(spec/45_config_store.md R225, R226, R229; spec/20_memory.md R66, R68). -/

namespace Sys2Proof.Machine

/-! ### What an update leaves alone -/

/-- R68: tasks that write within a range leave the flash outside it alone, also where they stop. -/
theorem runTasks_flashOutside {lo hi : Nat} {todo : List Task} {s : State}
    (h : ∀ t ∈ todo, t.WritesWithin s.params lo hi) : FlashOutside lo hi s (runTasks todo s).state :=
  runTasks_keeps (P := FlashOutside lo hi s) (ok := Task.WritesWithin s.params lo hi)
    (fun _ u ht hu => hu.trans (Task.whole_flashOutside ht u))
    (fun _ u ht hu => by rw [← hu.params] at ht ⊢; exact Task.whole_leaves_within ht) h (.refl lo hi s)

section
variable {p : Params} (hl : cfgLayoutLegal p.cfgLayout = true) (flash : Memory) (slot : Nat)
include hl

/-- R225: the slot fields of every page but the target page keep their bytes, those of page 0 also where PB is reprogrammed. -/
theorem storeSlotv_tupleProgrammed_otherPage (pb : BitVec 32) (page : Nat) {p2 t2 page' t' : Nat} (ht2 : t2 < cfgTuples)
    (hne : page' ≠ p2) (ht' : t' < cfgTuples) :
    storeSlotv p (tupleProgrammed p flash slot pb page p2 t2) page' t' = storeSlotv p flash page' t' := by
  have hc := cfgFields_of_legal hl
  have hin := hc.slotIn t' ht'
  refine flashWord_congr fun x hlo hhi => read_tupleProgrammed_of_apart hl flash slot pb page p2 ht2 ?_ fun _ => ?_
  · simp only [slotvAddr, cfgPageAddr, pageSize] at hin hlo hhi ⊢
    omega
  · by_cases h0 : page' = 0
    · have hapart := hc.pagesSlot t' ht'
      subst h0
      simp only [slotvAddr, cfgPageAddr, pbAddr, fieldsApart] at hapart hlo hhi ⊢
      omega
    · have hpb := pbAddr_add_le hl page' h0
      simp only [slotvAddr] at hlo
      exact .inr (by omega)

/-- R225, R226: an update that does not erase the sector keeps the value of every tuple up to the active one. -/
theorem storeSlotv_updatedFlash_of_le {page t page' t' : Nat} (hp : page < cfgPages) (ht : t < cfgTuples)
    (hkeep : storeErases page t = false) (hle : page' < page ∨ (page' = page ∧ t' ≤ t)) (ht' : t' < cfgTuples) :
    storeSlotv p (updatedFlash p flash slot page t) page' t' = storeSlotv p flash page' t' := by
  unfold updatedFlash nextTuple
  by_cases hlast : t + 1 = cfgTuples
  · have hmore : page + 1 ≠ cfgPages := fun h => by simp [storeErases, h, hlast] at hkeep
    simp only [if_pos hlast, if_neg hmore]
    exact storeSlotv_tupleProgrammed_otherPage hl flash slot _ page (by decide) (by omega) ht'
  · simp only [if_neg hlast, if_neg hp.ne]
    have ht2 : t + 1 < cfgTuples := by omega
    rcases hle with hlt | ⟨rfl, hle⟩
    · exact storeSlotv_tupleProgrammed_otherPage hl flash slot _ page ht2 hlt.ne ht'
    · exact storeSlotv_tupleProgrammed_other hl flash slot _ page' page' ht2 (by omega) ht'

end

/-! ### The update -/

/-- R224: the bitmaps of such a store name its active page and tuple. -/
theorem StoreAt.ctz32_storePb {p : Params} {flash : Memory} {page t : Nat} (h : StoreAt p flash page t) :
    ctz32 (storePb p flash) = page := by
  have hp := h.pageLt
  simp only [cfgPages] at hp
  rw [h.pb, ctz32_clearBelow_erasedWord (by omega)]

theorem StoreAt.ctz32_storeTb {p : Params} {flash : Memory} {page t : Nat} (h : StoreAt p flash page t) :
    ctz32 (storeTb p flash page) = t := by
  have ht := h.tupleLt
  simp only [cfgTuples] at ht
  rw [h.tb, ctz32_clearBelow_erasedWord (by omega)]

/-- R225: from such a store the update is done. -/
theorem runTasks_storePages_of_storeAt {s : State} {page t : Nat} (hl : cfgLayoutLegal s.params.cfgLayout = true)
    (hr : flashRangeOk s.params s.params.configSector sectorSize = true) (hf : s.failAt = none)
    (h : StoreAt s.params s.flash page t) (slot : Nat) :
    runTasks [.storePages slot] s = .done { s with flash := updatedFlash s.params s.flash slot page t } := by
  have hrun := runTasks_storePages hl hr hf slot
  rw [h.ctz32_storePb, h.ctz32_storeTb] at hrun
  exact hrun h.pageLt h.tupleLt

/-- Settles O20: the update takes the store to the slot's tuple, its tasks write the config sector only, and it programs
one tuple that the store has not reached yet. -/
theorem storeUpdateAdvances : Obligations.StoreUpdateAdvances := by
  unfold Obligations.StoreUpdateAdvances
  intro s page t slot hl hr hf hat hslot
  have hrun := runTasks_storePages_of_storeAt hl hr hf hat slot
  obtain ⟨hnext, hslotv⟩ := storeAt_updatedFlash hl slot hat
  refine ⟨_, hrun, hnext, ?_, fun a ha => ?_, fun hkeep page' t' hle ht' => ?_⟩
  · rw [lookupSlot_of_storeAt hl hr hnext, hslotv, slotOfValue_ofNat hslot]
  · have houtside := runTasks_flashOutside (todo := [.storePages slot]) (s := s)
      (List.forall_mem_singleton.mpr ⟨hl, le_rfl, le_rfl⟩)
    rw [hrun] at houtside
    exact houtside.read a ha
  · exact storeSlotv_updatedFlash_of_le hl s.flash slot hat.pageLt hat.tupleLt hkeep hle ht'

end Sys2Proof.Machine
end

section
/-! What the lookup answers, an erased sector, and a store that is corrupt (spec/45_config_store.md R221 to R224, R227,
R229). -/

namespace Sys2Proof.Machine

/-! ### The lookup -/

theorem slotOfValue_eq (v : BitVec 32) : slotOfValue v = if 1 ≤ v.toNat ∧ v.toNat ≤ 7 then v.toNat else 1 := by
  simp only [slotOfValue, validSlot, Bool.and_eq_true, decide_eq_true_eq, defaultSlot]

theorem slotOfValue_bounds (v : BitVec 32) : 1 ≤ slotOfValue v ∧ slotOfValue v ≤ 7 := by
  rw [slotOfValue_eq]
  split <;> omega

/-- R223: where the lookup reaches a tuple, `get_active_slot` answers what its value stands for and draws nothing. -/
theorem getActiveSlot_of_reaches {s : State} {page t : Nat} (h : LookupReaches s.params s.flash page t) :
    getActiveSlot s = (slotOfValue (storeSlotv s.params s.flash page t), s) := by
  simp only [getActiveSlot, lookupSlot_of_reaches h]

/-- R224: where it reaches none, `get_active_slot` answers a free value. -/
theorem getActiveSlot_of_not_reaches {s : State} (h : ∀ page t, ¬ LookupReaches s.params s.flash page t) :
    getActiveSlot s = ((Config.freeSlot s.draws).val + 1, { s with draws := s.draws + 1 }) := by
  simp only [getActiveSlot, lookupSlot_of_not_reaches h]

/-- R223, R224: the answer names a slot. -/
theorem getActiveSlot_bounds (s : State) : 1 ≤ (getActiveSlot s).1 ∧ (getActiveSlot s).1 ≤ 7 := by
  by_cases h : ∃ page t, LookupReaches s.params s.flash page t
  · obtain ⟨page, t, h⟩ := h
    rw [getActiveSlot_of_reaches h]
    exact slotOfValue_bounds _
  · push Not at h
    rw [getActiveSlot_of_not_reaches h]
    exact ⟨Nat.le_add_left 1 _, (Config.freeSlot s.draws).isLt⟩

/-- R221, R222: the addresses of the fields in the default layout. -/
theorem fieldAddrs_of_defaultLayout {p : Params}
    (h : p.cfgLayout = { pagesBitmap := 0, tuplesBitmap := 4, slotField := 8, tupleStride := 8 }) :
    pbAddr p = p.configSector ∧ ∀ page, tbAddr p page = p.configSector + 256 * page + 4 ∧
      ∀ t, slotvAddr p page t = p.configSector + 256 * page + 8 + 8 * t := by
  refine ⟨?_, fun page => ⟨?_, fun t => ?_⟩⟩
  · simp only [pbAddr, h, Nat.add_zero]
  · simp only [tbAddr, cfgPageAddr, pageSize, h]
  · simp only [slotvAddr, slotOffset, cfgPageAddr, pageSize, h, Nat.add_assoc]

/-- Settles O18: the fields and slots by their addresses, the answer by whether the lookup reaches a tuple. -/
theorem lookupAnswer : Obligations.LookupAnswer := by
  unfold Obligations.LookupAnswer
  refine ⟨fun p flash => ⟨fun hlayout => ?_, fun hbases n hlo hhi => ?_⟩, fun s => ?_⟩
  · obtain ⟨hpb, hpages⟩ := fieldAddrs_of_defaultLayout hlayout
    refine ⟨?_, fun page => ⟨?_, fun t => ?_⟩⟩
    · rw [storePb, hpb, flashWord_eq]
    · rw [storeTb, (hpages page).1, flashWord_eq]
    · rw [storeSlotv, (hpages page).2 t, flashWord_eq]
  · rw [slotBase, hbases]
    interval_cases n <;> rfl
  · obtain ⟨hlo, hhi⟩ := getActiveSlot_bounds s
    refine ⟨hlo, hhi, fun hpb hpage htb ht hslotv => ?_, fun hunreached => ?_⟩
    · rw [getActiveSlot_of_reaches ⟨hpb, rfl, hpage, htb, rfl, ht, hslotv⟩, slotOfValue_eq]
    · refine getActiveSlot_of_not_reaches fun page t hreach => ?_
      obtain ⟨hpb, rfl, hpage, htb, rfl, ht, hslotv⟩ := hreach
      simp only [cfgPages, cfgTuples] at hpage ht
      simp only [hpb, htb, hslotv, Bool.true_eq_false, false_or, or_false] at hunreached
      omega

/-! ### An erased sector -/

/-- R229: an erased sector is at tuple 0 of page 0. -/
theorem storeAt_of_erasedSector {p : Params} {flash : Memory} (hl : cfgLayoutLegal p.cfgLayout = true)
    (herased : ∀ j < sectorSize, Memory.read flash (p.configSector + j) = erasedByte) : StoreAt p flash 0 0 := by
  have hpage : ∀ page < cfgPages, ∀ j < pageSize, Memory.read flash (cfgPageAddr p page + j) = erasedByte := by
    intro page hp j hj
    simp only [cfgPages, pageSize] at hp hj
    rw [cfgPageAddr, Nat.add_assoc]
    exact herased _ (by simp only [pageSize, sectorSize]; omega)
  have hpb : storePb p flash = erasedWord := by
    have hin := (cfgFields_of_legal hl).pagesIn
    simp only [pageSize] at hin
    exact flashWord_of_erased fun k hk => by
      rw [pbAddr, Nat.add_assoc]
      exact herased _ (by simp only [sectorSize]; omega)
  exact {
    pageLt := by decide
    tupleLt := by decide
    pb := by rw [hpb, clearBelow_zero]
    tb := by rw [storeTb_of_erasedPage hl (hpage 0 (by decide)), clearBelow_zero]
    tuples := fun t _ ht => storeSlotv_of_erasedPage hl (hpage 0 (by decide)) ht
    pages := fun page _ hp => hpage page hp }

theorem storeSlotv_of_erasedSector {p : Params} {flash : Memory} (hl : cfgLayoutLegal p.cfgLayout = true)
    (herased : ∀ j < sectorSize, Memory.read flash (p.configSector + j) = erasedByte) :
    storeSlotv p flash 0 0 = erasedWord :=
  storeSlotv_of_erasedPage hl (fun j hj => herased j (by simp only [pageSize, sectorSize] at hj ⊢; omega)) (by decide)

/-- Settles O19: the erased word of tuple 0 of page 0 is no slot, so that it stands for the default slot. -/
theorem erasedSectorIsSlotOne : Obligations.ErasedSectorIsSlotOne := by
  unfold Obligations.ErasedSectorIsSlotOne
  intro p flash hl herased
  have hat := storeAt_of_erasedSector hl herased
  refine ⟨hat, fun hpb htb hslotv => ?_⟩
  rw [lookupSlot_of_reaches ⟨hpb, hat.ctz32_storePb.symm, hat.pageLt, htb, hat.ctz32_storeTb.symm, hat.tupleLt, hslotv⟩,
    storeSlotv_of_erasedSector hl herased]
  rfl

/-! ### A corrupt store -/

section
variable {s : State} (hpb : flashRangeOk s.params (pbAddr s.params) 4 = true) (hf : s.failAt = none) (slot : Nat)
include hpb hf

/-- R227: no page bit is set. -/
theorem runTasks_storePages_of_noPage (hpage : cfgPages ≤ ctz32 (storePb s.params s.flash)) :
    runTasks [.storePages slot] s = .stop s (.cfgCorrupt (ctz32 (storePb s.params s.flash))) := by
  rw [runTasks_singleton, Task.whole, storePagesStep, flashRead_of_ok hpb hf]
  dsimp only
  rw [if_pos hpage]
  rfl

/-- R227: the active page has no tuple bit set. -/
theorem runTasks_storePages_of_noTuple {page : Nat} (heq : ctz32 (storePb s.params s.flash) = page) (hpage : page < cfgPages)
    (htb : flashRangeOk s.params (tbAddr s.params page) 4 = true)
    (ht : cfgTuples ≤ ctz32 (storeTb s.params s.flash page)) :
    runTasks [.storePages slot] s = .stop s (.cfgCorrupt (ctz32 (storeTb s.params s.flash page))) := by
  subst heq
  rw [runTasks_singleton, Task.whole, storePagesStep, flashRead_of_ok hpb hf]
  dsimp only
  rw [if_neg (Nat.not_le.mpr hpage)]
  dsimp only [Progress.runOn]
  rw [runTasks_singleton, Task.whole, storeTuplesStep, flashRead_of_ok htb hf]
  dsimp only
  rw [if_pos ht]
  rfl

end

/-- Settles O21: the update stops at the index it finds out of range, having written nothing. -/
theorem corruptStoreFaults : Obligations.CorruptStoreFaults := by
  unfold Obligations.CorruptStoreFaults
  intro s slot hslot hpb hf
  refine ⟨fun hpage => ?_, fun hpage htb ht => ?_⟩
  · exact exec_updateActiveSlot_of_stop hslot (runTasks_storePages_of_noPage hpb hf _ hpage)
  · exact exec_updateActiveSlot_of_stop hslot (runTasks_storePages_of_noTuple hpb hf _ rfl hpage htb ht)

end Sys2Proof.Machine
end

section
/-! What the instructions of DISP leave alone, and FAULTED, which only a power cycle leaves (spec/60_exceptions.md R252, R261,
R262, R266). -/

namespace Sys2Proof.Machine

/-! ### The frame of an instruction -/

/-- R266: what tasks touch (none of them boot's own), MATCH and DCTL are outside the frame. -/
theorem DispFrame.of_touched {s t : State} (h : Touched s t) (m : MatchState) (d : Dctl) :
    DispFrame s { t with matcher := m, dctl := d } := by
  cases h
  exact ⟨rfl, rfl, rfl, rfl, rfl, rfl, rfl, rfl, rfl, rfl, rfl⟩

theorem settle_startCommand_dispFrame (op : Op) (arg : Arg) {todo : List Task} (h : ∀ t ∈ todo, bootOnly t = false)
    (s : State) : DispFrame s (settle (startCommand op arg todo s)) := by
  obtain ⟨d, e⟩ := (runTasks todo s).finish_eq
  rw [settle_startCommand, Res.commandEnd, e]
  exact .of_touched (runTasks_touched h s) .s0 d

/-- R166, R167: no command has a task of boot's own. -/
theorem exec_command_dispFrame {i : Instr} (hc : i.context = .command) {s t : State} (h : exec i s = .next t) :
    DispFrame s t := by
  cases i with
  | rd a | magic0 | magic1 | magic2 | otherToken v | payload ign d => cases hc
  | updateActiveSlot slot =>
    cases h
    refine settle_startCommand_dispFrame _ _ ?_ s
    split
    · simp [loadSlotTasks, bootOnly]
    · simp
  | writeStatusToSram arg | restorePageToSram arg | copyPageFlashToSram arg | copyPageSramToFlash arg
  | eraseFlashSector arg =>
    cases h
    exact settle_startCommand_dispFrame _ _ (by simp [bracket, bootOnly]) s
  | copyPageHostToSram arg | reservedOp7 arg | reservedOp8to15 op arg =>
    cases h
    exact .of_touched (.refl s) .s0 _

/-- R163, R166: a token moves the matcher; in ARMED it is a command word. -/
theorem receiveWhole_dispFrame (v : Addr) (s : State) : DispFrame s (receiveWhole v s) := by
  unfold receiveWhole
  split
  · obtain ⟨-, hcontext, -⟩ := encodeOfDecode .command v
    exact exec_command_dispFrame hcontext (exec_command v s)
  · exact .of_touched (.refl s) _ s.dctl

theorem exec_payload_dispFrame {ign : BitVec 2} {d : Half} {s t : State} (h : exec (.payload ign d) s = .next t) :
    DispFrame s t := by
  by_cases hcopy : ∃ i due, s.dctl = .hostCopy i due
  · obtain ⟨i, due, hd⟩ := hcopy
    rw [exec_payload hd] at h
    cases h
    exact ⟨rfl, rfl, rfl, rfl, rfl, rfl, rfl, rfl, rfl, rfl, rfl⟩
  · rw [payloadStopsOutsideHostCopy s ign d fun i due hd => hcopy ⟨i, due, hd⟩] at h
    cases h

/-- Settles O36: by the role of the instruction's word. -/
theorem dispInstrFrame : Obligations.DispInstrFrame := by
  unfold Obligations.DispInstrFrame
  intro i s t hbus h
  cases hc : i.context with
  | bus => exact absurd hc hbus
  | token =>
    cases i with
    | magic0 | magic1 | magic2 | otherToken v => cases h; exact receiveWhole_dispFrame _ s
    | _ => cases hc
  | command => exact exec_command_dispFrame hc h
  | payload =>
    cases i with
    | payload ign d => exact exec_payload_dispFrame h
    | _ => cases hc

/-! ### FAULTED -/

section
variable {s : State} {r : FaultReason} (hd : s.dctl = .faulted r)
include hd

/-- R252: FAULTED has no step. -/
theorem dispStep_of_faulted (c : Choice) : dispStep c s = s := by simp only [dispStep, hd]

theorem settle_of_faulted : settle s = s := by simp only [settle, hd]

/-- R252: in FAULTED no word is popped. -/
theorem State.context_of_faulted : s.context = none := by simp only [State.context, hd]

end

theorem BusFrame.refl (s : State) : BusFrame s s := ⟨rfl, rfl, rfl, rfl, rfl, rfl, rfl, rfl, rfl⟩

/-- R141: RESP only appends to Q. -/
theorem respStep_q_prefix (s : State) : s.q <+: (respStep s).q := by
  obtain e | ⟨a, _, _, e, _⟩ := respStep_q s <;> rw [e]
  exact List.prefix_append _ _

theorem hostRead_q_prefix (a : Addr) (s : State) : s.q <+: (hostRead a s).q := by
  rw [hostRead_eq]
  have hfirst : s.q <+: (respStep (hostLines { oe := true, ce := true, addr := a } s)).q := respStep_q_prefix (hostLines _ s)
  rw [← hostLatch_q (respStep _)] at hfirst
  exact hfirst.trans (respStep_q_prefix (hostLines _ (hostLatch _)))

/-- R252, R262: from FAULTED a step that is no power cycle is one of HOST's, RESP's or the environment's moves, or none. -/
theorem step_frame_of_faulted {s t : State} {r : FaultReason} (hd : (nextEvent s).2.dctl = .faulted r)
    (h : step s = .next t) (hcycle : ∀ torn, (nextEvent s).1 ≠ .powerCycle torn) :
    (∃ f, BusFrame { (nextEvent s).2 with failAt := f } t) ∧ (nextEvent s).2.q <+: t.q := by
  rcases step_cases h with ⟨a, _, rfl⟩ | ⟨levels, _, rfl⟩ | ⟨_, rfl⟩ | ⟨_, rfl⟩ | ⟨c, _, rfl⟩ | ⟨_, rfl⟩ |
    ⟨c, v, rest, _, hc, _, _⟩ | ⟨n, _, rfl⟩ | ⟨torn, he, _⟩
  · exact ⟨⟨_, hostRead_frame a _⟩, hostRead_q_prefix a _⟩
  · exact ⟨⟨_, hostDrive_frame levels _⟩, List.prefix_rfl⟩
  · exact ⟨⟨_, respStep_frame _⟩, respStep_q_prefix _⟩
  · exact ⟨⟨_, hostLatch_frame _⟩, (hostLatch_q _).symm ▸ List.prefix_rfl⟩
  · rw [dispStep_of_faulted hd]; exact ⟨⟨_, .refl _⟩, List.prefix_rfl⟩
  · rw [settle_of_faulted hd]; exact ⟨⟨_, .refl _⟩, List.prefix_rfl⟩
  · rw [State.context_of_faulted hd] at hc; cases hc
  · exact ⟨⟨n, .refl _⟩, List.prefix_rfl⟩
  · exact absurd he (hcycle torn)

/-- Settles O49: DISP has no move in FAULTED, and the moves of HOST and RESP only append to Q. -/
theorem onlyPowerCycleLeavesFaulted : Obligations.OnlyPowerCycleLeavesFaulted := by
  unfold Obligations.OnlyPowerCycleLeavesFaulted
  intro s t r hd h hcycle
  obtain ⟨draws, script, eu⟩ := nextEvent_snd s
  obtain ⟨⟨f, k⟩, hq⟩ := step_frame_of_faulted (by rw [eu]; exact hd) h hcycle
  rw [eu] at k hq
  exact ⟨k.dctl.trans hd, k.img, k.flash, k.matcher, hq⟩

end Sys2Proof.Machine
end

section
/-! RUN, MATCH and DCTL in step with each other: what the invariant says in each state of DISP, and that every step keeps it
(spec/70_reset_and_hazards.md R281; spec/42_command_decoder.md R166; spec/43_commands_image.md R186). -/

namespace Sys2Proof.Machine

/-! ### The invariant, by DISP's state -/

/-- R281: boot ends by starting RESP, which nothing before it does; RUN is 0 until then. -/
def BootLeft (todo : List Task) (run : Bool) : Prop :=
  (todo = [] ∧ run = true) ∨ ∃ before, todo = before ++ [.startResponder] ∧ .startResponder ∉ before ∧ run = false

theorem bootLeft_iff (todo : List Task) (run : Bool) : BootLeft todo run ↔
    (if todo = [] then run = true else run = false ∧ todo.getLast? = some .startResponder) ∧
      .startResponder ∉ todo.dropLast := by
  rcases List.eq_nil_or_concat todo with rfl | ⟨before, last, rfl⟩
  · simp [BootLeft]
  · simp only [BootLeft, List.concat_eq_append, List.append_eq_nil_iff, List.cons_ne_self, and_false, false_and, false_or,
      if_false, List.getLast?_append, List.getLast?_singleton, Option.some_or, Option.some.injEq, List.dropLast_concat,
      List.append_singleton_inj]
    constructor
    · rintro ⟨_, ⟨rfl, rfl⟩, hbefore, hrun⟩
      exact ⟨⟨hrun, rfl⟩, hbefore⟩
    · rintro ⟨⟨hrun, rfl⟩, hbefore⟩
      exact ⟨before, ⟨rfl, rfl⟩, hbefore, hrun⟩

section
variable {s : State}

theorem controlInv_boot_iff {todo : List Task} (hd : s.dctl = .boot todo) :
    ControlInv s ↔ s.matcher = .s0 ∧ BootLeft todo s.run := by
  simp only [ControlInv, hd, bootLeft_iff]

theorem controlInv_recv_iff (hd : s.dctl = .recv) : ControlInv s ↔ s.run = true := by
  simp only [ControlInv, hd]

theorem controlInv_exec_iff {op : Op} {arg : Arg} {todo : List Task} (hd : s.dctl = .exec op arg todo) :
    ControlInv s ↔ s.run = true ∧ s.matcher = .s0 ∧ s.noBootTask := by
  simp only [ControlInv, hd, State.noBootTask, State.todo]

theorem controlInv_hostCopy_iff {i : Nat} {due : List Host.Cell} (hd : s.dctl = .hostCopy i due) :
    ControlInv s ↔ s.run = true ∧ s.matcher = .s0 ∧ i < hostCopyWords := by
  simp only [ControlInv, hd]

theorem controlInv_faulted_iff {r : FaultReason} (hd : s.dctl = .faulted r) : ControlInv s ↔ s.matcher = .s0 := by
  simp only [ControlInv, hd]

theorem ControlInv.of_eq {t : State} (h : ControlInv s) (hrun : t.run = s.run) (hmatcher : t.matcher = s.matcher)
    (hdctl : t.dctl = s.dctl) : ControlInv t := by
  unfold ControlInv at h ⊢
  rwa [hdctl, hrun, hmatcher]

theorem BusFrame.controlInv {t : State} (k : BusFrame s t) (h : ControlInv s) : ControlInv t :=
  h.of_eq k.run k.matcher k.dctl

end

/-! ### Tasks -/

/-- R29: only the last task of boot writes RUN. -/
theorem Task.step_run (c : Choice) {t : Task} (h : t ≠ .startResponder) (s : State) : (t.step c s).state.run = s.run := by
  cases hb : bootOnly t with
  | false => exact (Task.step_touched c hb s).run
  | true =>
    cases t with
    | sampleStrap => rfl
    | startResponder => exact absurd rfl h
    | _ => cases hb

/-- R281: tasks that end with the start of RESP, if they end, leave RUN set. -/
theorem runTasks_startResponder_run {before : List Task} {s u : State}
    (h : runTasks (before ++ [.startResponder]) s = .done u) : u.run = true := by
  rw [runTasks_append] at h
  cases hbefore : runTasks before s with
  | done w => rw [hbefore] at h; cases h; rfl
  | stop w r => rw [hbefore] at h; cases h

/-! ### DISP's moves -/

/-- R281: a step of boot's first task sets RUN if it is the last one, and leaves the start of RESP the last one if not. -/
theorem BootLeft.step {t : Task} {ts more : List Task} {s u : State} {c : Choice} (h : BootLeft (t :: ts) s.run)
    (hstep : t.step c s = .cont more u) : BootLeft (more ++ ts) u.run := by
  obtain ⟨hnil, -⟩ | ⟨before, htodo, hbefore, hrun⟩ := h
  · cases hnil
  · cases before with
    | nil =>
      obtain ⟨rfl, rfl⟩ := List.cons.inj htodo
      cases hstep
      exact .inl ⟨rfl, rfl⟩
    | cons b before =>
      obtain ⟨rfl, rfl⟩ := List.cons.inj htodo
      obtain ⟨hne, hbefore⟩ := not_or.mp (mt List.mem_cons.mpr hbefore)
      have hkeeps := Task.step_run c (Ne.symm hne) s
      have hleaves := Task.step_leaves c t s
      rw [hstep] at hkeeps hleaves
      refine .inr ⟨more ++ before, (List.append_assoc _ _ _).symm, fun hmem => ?_, hkeeps.trans hrun⟩
      rcases List.mem_append.mp hmem with hmore | hmore
      · cases hleaves _ hmore
      · exact hbefore hmore

section
variable {back : List Task → Dctl} (hback : back = Dctl.boot ∨ ∃ op arg, back = Dctl.exec op arg) {s : State}
include hback

/-- R281, R166: a task of boot or of a command goes one step on. -/
theorem ControlInv.step {u : State} {c : Choice} {t : Task} {ts more : List Task} (h : ControlInv s)
    (hd : s.dctl = back (t :: ts)) (hstep : t.step c s = .cont more u) :
    ControlInv { u with dctl := back (more ++ ts) } := by
  have hmatcher := (Task.step_frame c t s).matcher
  have hleaves := Task.step_leaves c t s
  have hset := Task.step_keeps_run (s := s) c t
  rw [hstep] at hmatcher hleaves hset
  obtain rfl | ⟨op, arg, rfl⟩ := hback
  · obtain ⟨hm, hleft⟩ := (controlInv_boot_iff hd).mp h
    exact (controlInv_boot_iff rfl).mpr ⟨hmatcher.trans hm, BootLeft.step (u := u) hleft hstep⟩
  · obtain ⟨hrun, hm, hb⟩ := (controlInv_exec_iff hd).mp h
    simp only [State.noBootTask, State.todo, hd] at hb
    obtain ⟨-, hts⟩ := List.forall_mem_cons.mp hb
    exact (controlInv_exec_iff rfl).mpr ⟨hset hrun, hmatcher.trans hm, List.forall_mem_append.mpr ⟨hleaves, hts⟩⟩

theorem ControlInv.matcher_of_busy {todo : List Task} (h : ControlInv s) (hd : s.dctl = back todo) : s.matcher = .s0 := by
  obtain rfl | ⟨op, arg, rfl⟩ := hback
  · exact ((controlInv_boot_iff hd).mp h).1
  · obtain ⟨-, hm, -⟩ := (controlInv_exec_iff hd).mp h
    exact hm

/-- R281: boot's tasks, or a command's, run to their end leave RUN set. -/
theorem ControlInv.run_of_done {todo : List Task} {u : State} (h : ControlInv s) (hd : s.dctl = back todo)
    (hdone : runTasks todo s = .done u) : u.run = true := by
  obtain rfl | ⟨op, arg, rfl⟩ := hback
  · obtain ⟨-, ⟨rfl, hrun⟩ | ⟨before, rfl, -, -⟩⟩ := (controlInv_boot_iff hd).mp h
    · cases hdone
      exact hrun
    · exact runTasks_startResponder_run hdone
  · have hset := runTasks_keeps_run todo ((controlInv_exec_iff hd).mp h).1
    rwa [hdone] at hset

/-- R180, R252: boot or a command ends in RECV, with RUN set, or in FAULTED. -/
theorem ControlInv.finish {todo : List Task} (h : ControlInv s) (hd : s.dctl = back todo) :
    ControlInv (runTasks todo s).finish := by
  have hmatcher := (runTasks_frame todo s).matcher
  cases hend : runTasks todo s with
  | done u => exact (controlInv_recv_iff rfl).mpr (h.run_of_done (u := u) hback hd hend)
  | stop u r =>
    rw [hend] at hmatcher
    exact (controlInv_faulted_iff rfl).mpr (hmatcher.trans (h.matcher_of_busy hback hd))

end

theorem settle_controlInv {s : State} (h : ControlInv s) : ControlInv (settle s) := by
  cases hd : s.dctl with
  | boot todo => rw [settle_of_dctl (.inl rfl) hd]; exact h.finish (.inl rfl) hd
  | exec op arg todo => rw [settle_of_dctl (.inr ⟨op, arg, rfl⟩) hd]; exact h.finish (.inr ⟨op, arg, rfl⟩) hd
  | hostCopy i due =>
    simp only [settle, hd]
    exact (controlInv_hostCopy_iff rfl).mpr ((controlInv_hostCopy_iff hd).mp h)
  | recv => rwa [settle_of_recv hd]
  | faulted r => rwa [settle_of_faulted hd]

/-- R166, R186: a token leaves DISP in RECV; a command word, or a payload word, puts MATCH and DCTL where DISP goes on. -/
theorem startInstr_controlInv {s : State} {c : Context} (hc : s.context = some c) (v : Addr) (q : List FifoWord)
    (h : ControlInv s) : ControlInv (startInstr (decode c v) { s with q := q }) := by
  obtain ⟨_, _, estart, hb⟩ := startInstr_eq hc v q
  rw [← estart] at hb
  rcases startInstr_cases hc v q with ⟨hd, _, e⟩ | ⟨hd, _, e⟩ | ⟨i, due, hd, e⟩ <;> rw [e] at hb ⊢
  · exact (controlInv_recv_iff (s := { s with q := q, matcher := matchNext s.matcher v }) hd).mpr
      ((controlInv_recv_iff hd).mp h)
  · have hrun := (controlInv_recv_iff hd).mp h
    rcases dispatch_cases v { s with q := q } with e | e | ⟨op, todo, e, _⟩ <;> rw [e] at hb ⊢
    · exact (controlInv_recv_iff rfl).mpr hrun
    · exact (controlInv_hostCopy_iff rfl).mpr ⟨hrun, rfl, by decide⟩
    · exact (controlInv_exec_iff rfl).mpr ⟨hrun, rfl, hb⟩
  · obtain ⟨hrun, hm, -⟩ := (controlInv_hostCopy_iff hd).mp h
    unfold takePayload at hb ⊢
    dsimp only at hb ⊢
    split at hb
    next hlt => rw [if_pos hlt]; exact (controlInv_hostCopy_iff rfl).mpr ⟨hrun, hm, hlt⟩
    next hlast => rw [if_neg hlast]; exact (controlInv_exec_iff rfl).mpr ⟨hrun, hm, hb⟩

theorem dispStep_controlInv (c : Choice) {s : State} (h : ControlInv s) : ControlInv (dispStep c s) := by
  rcases dispStep_cases c s with ⟨back, t, ts, hback, hd, e⟩ | ⟨back, hback, hd, e⟩ | ⟨i, due, j, cell, hd, _, e⟩ |
    ⟨cx, v, rest, hc, _, e⟩ | e <;> rw [e]
  · have hmatcher := (Task.step_frame c t s).matcher
    cases hstep : t.step c s with
    | cont more u => exact h.step (u := u) hback hd hstep
    | stop u r =>
      rw [hstep] at hmatcher
      exact (controlInv_faulted_iff rfl).mpr (hmatcher.trans (h.matcher_of_busy hback hd))
  · exact h.finish hback hd
  · exact (controlInv_hostCopy_iff rfl).mpr ((controlInv_hostCopy_iff hd).mp h)
  · exact startInstr_controlInv hc _ rest h
  · exact h

/-! ### Power-on, and every step -/

theorem bootLeft_bootTasks : BootLeft bootTasks false :=
  .inr ⟨[.sampleStrap, .loadActive (2 ^ 19)], rfl, by simp, rfl⟩

/-- Settles O56: HOST's and RESP's moves leave all three alone, DISP's take boot or a command towards its end, and a power
cycle begins boot. -/
theorem controlInvKept : Obligations.ControlInvKept := by
  unfold Obligations.ControlInvKept
  intro s t hs h
  have hu : ControlInv (nextEvent s).2 := by
    obtain ⟨draws, script, e⟩ := nextEvent_snd s
    rw [e]
    exact hs.of_eq rfl rfl rfl
  rcases step_cases h with ⟨a, _, rfl⟩ | ⟨levels, _, rfl⟩ | ⟨_, rfl⟩ | ⟨_, rfl⟩ | ⟨c, _, rfl⟩ | ⟨_, rfl⟩ |
    ⟨c, v, rest, _, hc, _, rfl⟩ | ⟨n, _, rfl⟩ | ⟨torn, _, rfl⟩
  · exact (hostRead_frame a _).controlInv hu
  · exact (hostDrive_frame levels _).controlInv hu
  · exact (respStep_frame _).controlInv hu
  · exact (hostLatch_frame _).controlInv hu
  · exact dispStep_controlInv c hu
  · exact settle_controlInv hu
  · exact settle_controlInv (startInstr_controlInv hc _ rest hu)
  · exact hu.of_eq rfl rfl rfl
  · exact (controlInv_boot_iff rfl).mpr ⟨rfl, bootLeft_bootTasks⟩

end Sys2Proof.Machine
end

section
/-! HOST's read transaction before RUN (spec/70_reset_and_hazards.md R284; spec/40_bus_responder.md R110, R120). -/

namespace Sys2Proof.Machine

/-- R28, R120: with the lines released there is no DOUT to latch. -/
theorem hostLatch_of_input {s : State} (h : s.ddir = .input) :
    hostLatch s = { s with latched := s.latched ++ [Config.freeBus s.draws], draws := s.draws + 1 } :=
  if_neg (by simp [h])

/-- R29, R110: before RUN, HOST's lines meet no sample. -/
theorem respStep_hostLines_of_idle {s : State} (hr : s.run = false) (h : linesDistinct s.params s.layout = true)
    (b : Snapshot) : respStep (hostLines b s) =
      { s with pins := driveLines s.params s.layout b s.pins, sampled := s.sampled && b.oe } := by
  rw [respStep_of_idle (s := hostLines b s) hr, hostLines_eq h]

/-- Settles O41: neither half of the transaction is sampled, and the latch between them meets released lines. -/
theorem readBeforeRun : Obligations.ReadBeforeRun := by
  unfold Obligations.ReadBeforeRun
  intro s a hr hin h
  refine ⟨driveLines s.params s.layout { oe := false, ce := false, addr := a }
      (driveLines s.params s.layout { oe := true, ce := true, addr := a } s.pins),
    drivenLinesAreSampled _ _ _ _ h, ?_⟩
  show Host.Outcome.next (hostRead a s) = _
  rw [hostRead_eq, respStep_hostLines_of_idle hr h, hostLatch_of_input, respStep_hostLines_of_idle, Bool.and_false]
  · exact hr
  · exact h
  · exact hin

end Sys2Proof.Machine
end

section
/-! Boot and the power cycle (spec/70_reset_and_hazards.md R280 to R285; spec/45_config_store.md R231). -/

namespace Sys2Proof.Machine

/-! ### Power-on -/

/-- Settles O59: each invariant of the state at power-on, where Q and IMG hold nothing and DISP begins boot. -/
theorem resetMeetsInvariants : Obligations.ResetMeetsInvariants := by
  unfold Obligations.ResetMeetsInvariants
  refine ⟨fun p flash pins hwf hbelow => ?_, rfl⟩
  intro s
  have htasks : ∀ t ∈ bootTasks, taskOk t = true := by simp [bootTasks, taskOk, romBytes]
  have hmemory : MemoryInv s := ⟨Memory.wf_nil, rfl, hwf, hbelow, htasks, trivial⟩
  have hfifo : FifoInv s := ⟨Nat.zero_le _, fun _ hv => absurd hv List.not_mem_nil⟩
  have hlines : LinesInv s := ⟨⟨nofun, nofun⟩, nofun, fun _ => ⟨rfl, rfl⟩⟩
  have hcontrol : ControlInv s := (controlInv_boot_iff rfl).mpr ⟨rfl, bootLeft_bootTasks⟩
  have hsentinel : SentinelInv s := .of_not_exec nofun
  exact ⟨hmemory, hfifo, hlines, hcontrol, hsentinel⟩

/-! ### The power cycle -/

theorem tornFlash_of_not_writing {s : State} (h : writingRange s = none) (torn : List Byte) : tornFlash torn s = s.flash := by
  rw [tornFlash, h]

/-- R231: a power loss touches no byte outside the range being written. -/
theorem read_tornFlash_of_outside {s : State} {x : Nat} (h : ∀ a n, writingRange s = some (a, n) → x < a ∨ a + n ≤ x)
    (torn : List Byte) : Memory.read (tornFlash torn s) x = Memory.read s.flash x := by
  unfold tornFlash
  split
  next => rfl
  next a n hrange =>
    split
    next =>
      have hout := h a n hrange
      have hlen := List.length_take_le n torn
      rw [Memory.read_overwrite, if_neg (by omega)]
    next => rfl

/-- Settles O47: all but FLASH is as at power-on, and FLASH as the power loss left it. -/
theorem powerCycleResets : Obligations.PowerCycleResets := by
  unfold Obligations.PowerCycleResets
  intro s torn t
  exact ⟨rfl, rfl, rfl, rfl, rfl, rfl, rfl, fun h => tornFlash_of_not_writing h torn,
    fun x h => read_tornFlash_of_outside h torn⟩

/-! ### Boot -/

/-- The lookup neither reads nor writes LAYOUT. -/
theorem getActiveSlot_withLayout (l : Layout) (s : State) :
    getActiveSlot { s with layout := l } = ((getActiveSlot s).1, { (getActiveSlot s).2 with layout := l }) := by
  rcases getActiveSlot_cases s with ⟨n, hl, e⟩ | ⟨hl, e⟩ <;> rw [e] <;> simp only [getActiveSlot, hl]

/-- R281: where boot's load begins: the strap sampled, the active slot looked up. -/
def State.bootLoading (s : State) : State := { (getActiveSlot s).2 with layout := layoutOfStrap s.params s.pins }

theorem State.bootLoading_params (s : State) : s.bootLoading.params = s.params := getActiveSlot_params s
theorem State.bootLoading_img (s : State) : s.bootLoading.img = s.img := getActiveSlot_img s
theorem State.bootLoading_flash (s : State) : s.bootLoading.flash = s.flash := getActiveSlot_flash s
theorem State.bootLoading_failAt (s : State) : s.bootLoading.failAt = s.failAt := getActiveSlot_failAt s
theorem State.bootLoading_run (s : State) : s.bootLoading.run = s.run := (getActiveSlot_touched s).run

/-- R281: boot is a load of the active slot between the strap and the start of RESP. -/
theorem settle_boot {s : State} (hd : s.dctl = .boot bootTasks) : settle s =
    ((runTasks (loadSlotTasks s.bootLoading.params (getActiveSlot s).1 romBytes) s.bootLoading).bind
      (runTasks [.startResponder])).finish := by
  rw [settle_of_dctl (.inl rfl) hd, bootTasks, runTasks_cons, Task.run_sampleStrap, Res.bind_done, runTasks_cons,
    Task.run_eq_whole_runOn, Task.whole]
  dsimp only [Progress.runOn]
  rw [getActiveSlot_withLayout]
  rfl

/-- Settles O48: the three ends of the load. -/
theorem bootLoadsActiveSlot : Obligations.BootLoadsActiveSlot := by
  unfold Obligations.BootLoadsActiveSlot
  intro s slot base layout hd
  have hparams := s.bootLoading_params
  have hflash := s.bootLoading_flash
  have hfail := s.bootLoading_failAt
  rw [settle_boot hd, hparams]
  refine ⟨fun hf hb => ?_, fun hrun => ⟨fun hb => ?_, fun n hn hb hf => ?_⟩⟩
  · rw [runTasks_loadSlotTasks_of_ok (by rwa [hparams]) (hfail.trans hf)]
    exact ⟨_, rfl, fun b hlt => by rw [Memory.read_copy_zero, if_pos hlt, hflash]⟩
  · rw [runTasks_loadSlotTasks_of_not_ok (by rwa [hparams]), ← s.bootLoading_run.trans hrun]
    rfl
  · rw [runTasks_loadSlotTasks_of_failing (by rwa [hparams]) (hfail.trans hf) hn, ← s.bootLoading_run.trans hrun]
    exact ⟨_, rfl, fun b => by rw [Memory.read_copy_zero, hflash, s.bootLoading_img]⟩

/-! ### A slot switch, a power cycle and boot -/

/-- R183: after the command, the lookup on the flash that it leaves answers the slot; nothing else has changed but IMG. -/
theorem exec_updateActiveSlot_of_storeAt {s : State} {slot : Arg} {page t : Nat} (hslot : validSlot slot.toNat = true)
    (hl : cfgLayoutLegal s.params.cfgLayout = true)
    (hr : flashRangeOk s.params s.params.configSector sectorSize = true)
    (hb : flashRangeOk s.params (slotBase s.params slot.toNat) romBytes = true) (hf : s.failAt = none)
    (hat : StoreAt s.params s.flash page t) :
    ∃ img flash, exec (.updateActiveSlot slot) s =
        .next { s with img := img, flash := flash, matcher := .s0, dctl := .recv } ∧
      lookupSlot s.params flash = some slot.toNat := by
  obtain ⟨flash, hstore, -, hlookup, -⟩ := storeUpdateAdvances s page t slot.toNat hl hr hf hat hslot
  have hload := runTasks_loadSlotTasks_of_ok (s := { s with flash := flash }) hb hf
  have hexec := exec_updateActiveSlot_of_done hslot hstore
  rw [hload] at hexec
  exact ⟨_, flash, hexec, hlookup⟩

theorem getActiveSlot_of_lookup {s : State} {n : Nat} (h : lookupSlot s.params s.flash = some n) :
    getActiveSlot s = (n, s) := by
  simp only [getActiveSlot, h]

/-- Settles O24: no primitive runs when power is lost after the command, so that boot's lookup is on the command's flash. -/
theorem slotSwitchSurvivesPowerCycle : Obligations.SlotSwitchSurvivesPowerCycle := by
  unfold Obligations.SlotSwitchSurvivesPowerCycle
  intro s slot page t hslot hl hr hb hf hat
  obtain ⟨img, flash, hexec, hlookup⟩ := exec_updateActiveSlot_of_storeAt hslot hl hr hb hf hat
  refine ⟨_, hexec, ?_⟩
  generalize hcycle : powerCycle [] { s with img := img, flash := flash, matcher := MatchState.s0, dctl := Dctl.recv } = v
  have hd : v.dctl = .boot bootTasks := hcycle ▸ rfl
  have hparams : v.params = s.params := hcycle ▸ rfl
  have hflash : v.flash = flash := hcycle ▸ rfl
  have hfail : v.failAt = none := hcycle ▸ hf
  have hfound : getActiveSlot v = (slot.toNat, v) := getActiveSlot_of_lookup (by rwa [hparams, hflash])
  obtain ⟨hboot, -⟩ := bootLoadsActiveSlot v hd
  rw [hfound, hparams, hflash] at hboot
  obtain ⟨booted, hsettle, hread⟩ := hboot hfail hb
  rw [hsettle]
  exact ⟨rfl, rfl, hflash, hread⟩

end Sys2Proof.Machine
end

section
/-! The paced schedule: HOST reads a word, DISP consumes it, and so on (spec/70_reset_and_hazards.md R305, R307;
spec/30_encoding.md R94, R95). -/

namespace Sys2Proof.Machine

/-! ### Runs that keep to the launch premises -/

/-- R307: `n` steps from `s` reach `t`; the reads that HOST begins in them are `as`, each forwarded into Q, and none is begun
before the command ahead of it allows. -/
structure Sends (n : Nat) (s t : State) (as : List Addr) : Prop where
  run : Host.Core.run core n s = .next t
  reads : readsMade n s = as
  words : wordsSent n s = as
  settle : ∀ listed, HpSettle listed n s

theorem Sends.refl (s : State) : Sends 0 s s [] := ⟨rfl, rfl, rfl, fun _ => trivial⟩

/-- A step before such a run, in which the reads that HOST begins are the words that reach Q. -/
theorem Sends.cons {n : Nat} {s u t : State} {as bs : List Addr} (hstep : step s = .next u) (hreads : s.readsBegun = as)
    (hwords : s.wordsForwarded = as) (hsettled : s.readsBegun ≠ [] → ∀ r, settledFor r s = true) (h : Sends n u t bs) :
    Sends (n + 1) s t (as ++ bs) := by
  have hafter := State.after_of_step hstep
  refine ⟨?_, ?_, ?_, fun listed => ?_⟩
  · rw [run_succ_of_step core hstep, h.run]
  · rw [readsMade_succ, hafter, hreads, h.reads]
  · rw [wordsSent_succ, hafter, hwords, h.words]
  · rw [HpSettle_succ, hafter]
    exact ⟨fun hne r _ => hsettled hne r, h.settle _⟩

section
variable {listed : List ListedRead} {n : Nat} {s t : State} (h : Sends n s t (listed.map ListedRead.addr))
include h

theorem Sends.hpQuiet : HpQuiet listed n s := by
  rw [HpQuiet, h.reads]

theorem Sends.hpPace : HpPace listed n s := by
  rw [HpPace, h.reads, h.words, List.length_map, List.take_length]
  exact forwarded_map listed

end

/-! ### Words, one at a time -/

/-- DISP waits for words with `q` in Q and RESP waits for HOST; IMG and FLASH as given, `moves` the moves to come. -/
structure Waits (img flash : Memory) (m : MatchState) (q : List FifoWord) (moves : List Event) (s : State) : Prop where
  run : s.run = true
  dctl : s.dctl = .recv
  trig : s.trig = false
  room : 1 ≤ s.params.fifoDepth
  lines : linesDistinct s.params s.layout = true
  img : s.img = img
  flash : s.flash = flash
  matcher : s.matcher = m
  q : s.q = q
  script : s.script = moves

section
variable {img flash : Memory} {m : MatchState} {moves : List Event} {s : State} {a : Addr}

/-- R118, R121: a read transaction puts its address into the empty Q. -/
theorem Waits.step_read (h : Waits img flash m [] (.read a :: moves) s) :
    ∃ u, step s = .next u ∧ Waits img flash m [forwardedWord a] moves u := by
  obtain ⟨pins, -, -, hexec⟩ := readTransaction { s with script := moves } a h.run h.lines
  refine ⟨_, (stepRunsDecodedInstruction.2 s a moves h.script).trans hexec, h.run, h.dctl, rfl, h.room, h.lines, h.img,
    h.flash, h.matcher, ?_, rfl⟩
  have hforwards : s.trig = false ∧ s.q.length < s.params.fifoDepth := ⟨h.trig, h.q ▸ h.room⟩
  exact (if_pos hforwards).trans (congrArg (· ++ [forwardedWord a]) h.q)

/-- R163: DISP consumes a token. -/
theorem Waits.step_run (h : Waits img flash m [forwardedWord a] (.run :: moves) s) (hm : m ≠ .armed) :
    ∃ u, step s = .next u ∧ Waits img flash (matchNext m a) [] moves u := by
  have hne : s.matcher ≠ .armed := h.matcher ▸ hm
  have hc : s.context = some .token := s.context_eq_token_iff.mpr ⟨h.dctl, hne⟩
  have hexec := exec_token_of_not_armed (s := { s with script := moves, q := [] }) hne a
  rw [← (forwardedWordCarriesAddress a).1] at hexec
  refine ⟨_, (stepRunsDecodedInstruction.1 s .token _ [] moves h.script hc h.q).trans hexec, h.run, h.dctl, h.trig, h.room,
    h.lines, h.img, h.flash, ?_, rfl, rfl⟩
  rw [← h.matcher, (forwardedWordCarriesAddress a).1]

/-- R307: HOST begins the read while DISP waits with Q empty, and the address reaches Q. -/
theorem Waits.read (h : Waits img flash m [] (.read a :: moves) s) : ∃ u, Waits img flash m [forwardedWord a] moves u ∧
    ∀ {n t as}, Sends n u t as → Sends (n + 1) s t (a :: as) := by
  obtain ⟨u, hstep, hu⟩ := h.step_read
  refine ⟨u, hu, .cons (as := [a]) hstep ?_ ?_ fun _ r => settledFor_of_waiting r h.dctl h.q⟩
  · simp only [State.readsBegun, nextEvent, h.script]
  · rw [State.wordsForwarded, State.after_of_step hstep, hu.q, h.q]
    exact congrArg (fun v => [v]) (forwardedWordCarriesAddress a).1

/-- HOST begins no read while DISP consumes a token. -/
theorem Waits.consume (h : Waits img flash m [forwardedWord a] (.run :: moves) s) (hm : m ≠ .armed) :
    ∃ u, Waits img flash (matchNext m a) [] moves u ∧ ∀ {n t as}, Sends n u t as → Sends (n + 1) s t as := by
  obtain ⟨u, hstep, hu⟩ := h.step_run hm
  have hreads : s.readsBegun = [] := by simp only [State.readsBegun, nextEvent, h.script]
  refine ⟨u, hu, .cons (as := []) hstep hreads ?_ fun hne => absurd hreads hne⟩
  rw [State.wordsForwarded, State.after_of_step hstep, hu.q, List.drop_nil, List.map_nil]

/-- R305: a token read and consumed. -/
theorem Waits.token (h : Waits img flash m [] (.read a :: .run :: moves) s) (hm : m ≠ .armed) :
    ∃ u, Waits img flash (matchNext m a) [] moves u ∧ ∀ {n t as}, Sends n u t as → Sends (n + 2) s t (a :: as) := by
  obtain ⟨u, hu, hread⟩ := h.read
  obtain ⟨v, hv, hconsume⟩ := hu.consume hm
  exact ⟨v, hv, fun k => hread (hconsume k)⟩

/-- R305, R88: the magic words and a command word, each token consumed before the next read, leave the command word in Q. -/
theorem Waits.command {x : Addr} (h : Waits img flash .s0 [] (pacedScript (magicAddrs ++ [x]) ++ moves) s) :
    ∃ t, Waits img flash .armed [forwardedWord x] (.run :: moves) t ∧ Sends 7 s t (magicAddrs ++ [x]) := by
  obtain ⟨u, hu, send0⟩ := h.token nofun
  obtain ⟨v, hv, send1⟩ := hu.token nofun
  obtain ⟨w, hw, send2⟩ := hv.token nofun
  obtain ⟨t, ht, send3⟩ := hw.read
  exact ⟨t, ht, send0 (send1 (send2 (send3 (.refl t))))⟩

/-- R166: the step after is the command's whole run. -/
theorem Waits.step_command {x : Addr} (h : Waits img flash .armed [forwardedWord x] (.run :: moves) s) :
    step s = exec (decode .command x) { s with q := [], script := moves } := by
  have hc : s.context = some .command := s.context_eq_command_iff.mpr ⟨h.dctl, h.matcher⟩
  rw [stepRunsDecodedInstruction.1 s .command _ [] moves h.script hc h.q, (forwardedWordCarriesAddress x).1]

end

/-- A run of one step more. -/
theorem run_succ_of_run {n : Nat} {s t : State} (h : Host.Core.run core n s = .next t) :
    Host.Core.run core (n + 1) s = step t := by
  induction n generalizing s with
  | zero => cases h; exact run_one core _
  | succ n ih =>
    obtain ⟨u, hstep⟩ := stepNeverStops s
    rw [run_succ_of_step core hstep] at h ⊢
    exact ih h

/-- Settles O60: three tokens consumed, the command word read, and every read begun while DISP waits. -/
theorem fourReadsSendACommand : Obligations.FourReadsSendACommand := by
  unfold Obligations.FourReadsSendACommand
  intro s op arg moves hrun hdctl hmatcher hq htrig hroom hlines hscript
  have hwaits : Waits s.img s.flash .s0 [] (pacedScript (magicAddrs ++ [encodeCommand op arg]) ++ moves) s :=
    ⟨hrun, hdctl, htrig, hroom, hlines, rfl, rfl, hmatcher, hq, hscript⟩
  obtain ⟨t, ht, hsends⟩ := hwaits.command
  have hlisted : Sends 7 s t ((HostLine.cmd op arg).listed.map ListedRead.addr) := hsends
  exact ⟨t, hsends.run, ht.img, ht.flash, ht.matcher, ht.q, ht.script,
    (run_succ_of_run hsends.run).trans ht.step_command, hlisted.hpQuiet, hlisted.hpPace, hsends.settle _⟩

end Sys2Proof.Machine
end
